-- ==== Sys2Proof/Word.lean ====
section
/-! DEFINITION. The widths of the block's values (00_scope.md R8, R9, R10). -/

namespace Sys2Proof

/-- A command word, a host register: 32 bits (R9). -/
abbrev Word := BitVec 32

/-- A device register value or address: 8 bits (R8). -/
abbrev Byte := BitVec 8

/-- A composite telemetry raw value: 16 bits (R8). -/
abbrev Raw16 := BitVec 16

/-- A slave address: 7 bits (R8). -/
abbrev SlaveAddr := BitVec 7

end Sys2Proof
end

