-- ==== Sys2Proof/Config.lean ====
section
/-! DEFINITION. The configuration record of 00_scope.md R7, the OPEN parameters as opaque constants, and the free
values of the environment. -/

namespace Sys2Proof

/-- The ports, in the order of R7: OUT1 = 0, OUT2 = 1, TYPEC = 2, VIN = 3. -/
inductive Port where
  | out1 | out2 | typec | vin
deriving DecidableEq, Repr

/-- The voltage channels (R7, R93). -/
inductive VChan where
  | vbat | ocv
deriving DecidableEq, Repr

/-- The current channels (R7, R93). -/
inductive IChan where
  | ibat
  | port (p : Port)
deriving DecidableEq, Repr

/-- The status kinds (R93). -/
inductive StatusKind where
  | sys | chg | ntc | boost | mos
deriving DecidableEq, Repr

/-- The composite quantities POLL reads (R7, R194). -/
inductive Quantity where
  | vbat | ocv | ibat | pwr
  | iport (p : Port)
deriving DecidableEq, Repr

/-- The charge phases the source lists (42_decoder.md R174). -/
inductive ChargePhase where
  | idle | trickle | constantCurrent | constantVoltage | done
deriving DecidableEq, Repr, Inhabited

/-- A voltage range within 6 to 12 V, what a BOOST flag stands for (42_decoder.md R174). DESIGN CHOICE (Log 20): it is
given by its two ends, rational numbers of volts. -/
structure BoostRange where
  lo : ℚ
  hi : ℚ
  six_le_lo : 6 ≤ lo
  lo_le_hi : lo ≤ hi
  hi_le_twelve : hi ≤ 12
deriving DecidableEq, Repr

/-- The part of 6 to 12 V between two voltages. Every range is the part between its own ends. -/
def BoostRange.between (lo hi : ℚ) : BoostRange where
  lo := max 6 (min 12 lo)
  hi := max (max 6 (min 12 lo)) (min 12 hi)
  six_le_lo := le_max_left _ _
  lo_le_hi := le_max_left _ _
  hi_le_twelve := max_le (max_le (by norm_num) (min_le_left _ _)) (min_le_left _ _)

/-- A linear transform's parameters NUM, DEN and OFF (R7, R162). -/
structure Scale where
  num : Nat
  den : Nat
  off : Nat
deriving DecidableEq, Repr

/-- The configuration record (R7, and the naming tables of R174), fixed for one block: it is no state (R52). -/
structure Config where
  /-- `F_CLK`, Hz. DESIGN CHOICE (Log 6): a whole number, 0 included; R7 gives a frequency and not the numbers it may
  be. -/
  fClk : Nat
  /-- `NUM_V`, `DEN_V`, `OFF_V`. -/
  volt : VChan → Scale
  /-- `NUM_I`, `DEN_I`, `OFF_I`. -/
  curr : IChan → Scale
  /-- `NUM_P`, `DEN_P`, `OFF_P`. -/
  power : Scale
  /-- `REG_<q>_L`. -/
  regLo : Quantity → Byte
  /-- `REG_<q>_H`. -/
  regHi : Quantity → Byte
  /-- `REG_SYS`, `REG_CHG`, `REG_NTC`, `REG_BOOST`, `REG_MOS`. -/
  regStatus : StatusKind → Byte
  /-- `CHG_PHASE_LSB`. -/
  chgPhaseLsb : Nat
  /-- `CHG_TO_MASK`. -/
  chgToMask : Byte
  /-- `NTC_VALID_POS`. -/
  ntcValidPos : Nat
  /-- `NTC_ZONE_LSB`. -/
  ntcZoneLsb : Nat
  /-- `BOOST_LSB`. -/
  boostLsb : Nat
  /-- `MOS_POS[p]`. -/
  mosPos : Port → Nat
  /-- `PORTV(p, en, f)`, mV (a 32-bit value: DEDUCED from R9, Log 8). -/
  portV : Port → Bool → BitVec 4 → Word
  /-- `SADDR_RESET`. -/
  saddrReset : SlaveAddr
  /-- `DELAY_RESET`. -/
  delayReset : BitVec 16
  /-- `NAME_SYS_MODE`: the names of the SYS.MODE codes other than 0b001 (R174). -/
  nameSysMode : BitVec 3 → String
  /-- `NAME_CHG_PHASE`: each code is one of the five phases (R174). -/
  nameChgPhase : BitVec 3 → ChargePhase
  /-- Which timeout each bit of the charge-status byte's TO field is (R174). -/
  nameChgTimeout : Fin 8 → String
  /-- `NAME_NTC_ZONE` (R174). -/
  nameNtcZone : BitVec 3 → String
  /-- `NAME_BOOST_FLAG`: the range within 6 to 12 V each flag stands for (R174). -/
  nameBoostFlag : Fin 4 → BoostRange
  /-- The polarity of NTC.NTCV: the flag value that means "the reading is valid" (R174). -/
  ntcvPolarity : Bool

/-- The constraints R7 puts on the record. -/
structure Config.WF (c : Config) : Prop where
  volt_den : ∀ v, 0 < (c.volt v).den
  curr_den : ∀ i, 0 < (c.curr i).den
  power_den : 0 < c.power.den
  chgPhaseLsb_le : c.chgPhaseLsb ≤ 5
  /-- The timeout mask is disjoint from the phase field. -/
  chgToMask_disjoint : c.chgToMask &&& (7#8 <<< c.chgPhaseLsb) = 0#8
  ntcValidPos_lt : c.ntcValidPos < 8
  ntcZoneLsb_le : c.ntcZoneLsb ≤ 5
  /-- The zone field does not contain the validity flag. -/
  ntc_disjoint : c.ntcValidPos < c.ntcZoneLsb ∨ c.ntcZoneLsb + 3 ≤ c.ntcValidPos
  boostLsb_le : c.boostLsb ≤ 4
  mosPos_lt : ∀ p, c.mosPos p < 8
  mosPos_distinct : ∀ p q, c.mosPos p = c.mosPos q → p = q
  /-- `PORTV(p, 0, f) = 0`. -/
  portV_disabled : ∀ p f, c.portV p false f = 0#32

/-! The OPEN parameters (R7, D40 to D45): no source gives a value, so each is a constant nothing can evaluate
(Log 6). Where R7 constrains a parameter, `Config.block` builds it from the constant so that every legal value and
no other is possible. -/

/-- DESIGN CHOICE (Log 6): `F_CLK` is a whole number of Hz. -/
opaque Config.openFClk : Nat
opaque Config.openNumP : Nat
/-- `DEN_P` less one: R7 asks `DEN_P > 0`. -/
opaque Config.openDenPPred : Nat
opaque Config.openRegLo : Quantity → Byte
opaque Config.openRegHi : Quantity → Byte
opaque Config.openRegStatus : StatusKind → Byte
opaque Config.openChgPhaseLsb : Fin 6
/-- The timeout mask before the phase field's bits are cleared. -/
opaque Config.openChgToMask : Byte
opaque Config.openNtcZoneLsb : Fin 6
/-- Which of the five bits outside the zone field, counted from bit 0, is the validity flag. -/
opaque Config.openNtcValid : Fin 5
opaque Config.openBoostLsb : Fin 5
/-- A permutation of the eight bits; `MOS_POS[p]` is the image of p, so the positions are distinct. -/
opaque Config.openMosPerm : Equiv.Perm (Fin 8)
/-- `PORTV(p, 1, f)`. -/
opaque Config.openPortV : Port → BitVec 4 → Word
opaque Config.openNameSysMode : BitVec 3 → String
opaque Config.openNameChgPhase : BitVec 3 → ChargePhase
opaque Config.openNameChgTimeout : Fin 8 → String
opaque Config.openNameNtcZone : BitVec 3 → String
/-- The two voltages each BOOST flag's range is made of. -/
opaque Config.openNameBoostFlag : Fin 4 → ℚ × ℚ
opaque Config.openNtcvPolarity : Bool

/-! The free values of the environment, applied to the counter `Bus.free` of State (Log 1, 2, 3). -/

/-- The level the slaves give at a sample (R61: "a fresh draw each call, under no law"). -/
opaque Config.slaveLevel : Nat → Bool
/-- The cycles a wait lasts beyond tD (R268: no upper bound). -/
opaque Config.waitExtra : Nat → Nat
/-- The cycles beyond the first between a command's last event and its commit (R267: no upper bound). -/
opaque Config.latency : Nat → Nat

/-- A charge phase's name, in the source's words (R174). -/
def ChargePhase.name : ChargePhase → String
  | .idle => "idle"
  | .trickle => "trickle"
  | .constantCurrent => "constant-current"
  | .constantVoltage => "constant-voltage"
  | .done => "done"

/-- The place of a port in R7's order. -/
def Port.idx : Port → Nat
  | .out1 => 0
  | .out2 => 1
  | .typec => 2
  | .vin => 3

/-- The voltage scale's defaults (R7): 26855/100000 mV per LSB plus 2600 mV, for both channels. -/
def Config.defaultVolt (_ : VChan) : Scale := { num := 26855, den := 100000, off := 2600 }

/-- The current scales' defaults (R7): 127883/100000 mA per LSB for the battery, 6394/10000 for the ports. -/
def Config.defaultCurr : IChan → Scale
  | .ibat => { num := 127883, den := 100000, off := 0 }
  | .port _ => { num := 6394, den := 10000, off := 0 }

/-- The record with R7's defaults, and the OPEN parameters symbolic (Log 6): the one `exec` and `step` are over. The
machine over any record is `execOf` and `stepOf` (Log 7). -/
def Config.block : Config where
  fClk := Config.openFClk
  volt := Config.defaultVolt
  curr := Config.defaultCurr
  power := { num := Config.openNumP, den := Config.openDenPPred + 1, off := 0 }
  regLo := Config.openRegLo
  regHi := Config.openRegHi
  regStatus := Config.openRegStatus
  chgPhaseLsb := Config.openChgPhaseLsb.val
  chgToMask := Config.openChgToMask &&& ~~~(7#8 <<< Config.openChgPhaseLsb.val)
  ntcValidPos :=
    if Config.openNtcValid.val < Config.openNtcZoneLsb.val then Config.openNtcValid.val
    else Config.openNtcValid.val + 3
  ntcZoneLsb := Config.openNtcZoneLsb.val
  boostLsb := Config.openBoostLsb.val
  mosPos := fun p => (Config.openMosPerm (Fin.ofNat 8 p.idx)).val
  portV := fun p en f => if en then Config.openPortV p f else 0#32
  saddrReset := 0x75#7
  delayReset := 0xFFFF#16
  nameSysMode := Config.openNameSysMode
  nameChgPhase := Config.openNameChgPhase
  nameChgTimeout := Config.openNameChgTimeout
  nameNtcZone := Config.openNameNtcZone
  nameBoostFlag := fun k => BoostRange.between (Config.openNameBoostFlag k).1 (Config.openNameBoostFlag k).2
  ntcvPolarity := Config.openNtcvPolarity

end Sys2Proof
end

