-- ==== Sys2Proof/Syntax.lean ====
section
/-! DEFINITION. The commands: one constructor per row of spec/opcode_table.json (30_encoding.md R95). -/

namespace Sys2Proof

inductive Instr where
  | nop
  | start
  | stop
  | send (b : Byte)
  | wack
  | recv
  | nack
  | wreg (a v : Byte)
  | rreg (a : Byte)
  | decvVbat (r : Raw16)
  | decvOcv (r : Raw16)
  | deciIbat (r : Raw16)
  | deciOut1 (r : Raw16)
  | deciOut2 (r : Raw16)
  | deciTypec (r : Raw16)
  | deciVin (r : Raw16)
  | decp (r : Raw16)
  | decsSys (b : Byte)
  | decsChg (b : Byte)
  | decsNtc (b : Byte)
  | decsBoost (b : Byte)
  | decsMos (b : Byte)
  | derv
  | impute
  | poll
  | setdly (d : BitVec 16)
  /-- The operand is the whole byte B0; B0[7] must be 0 (R92), which `Instr.wellFormed` asks. -/
  | setaddr (a : Byte)
  | setpoll (n : Byte)
deriving DecidableEq, Repr

/-- The pseudo-commands of 30_encoding.md R100. -/
inductive Pseudo where
  | wbyte (b : Byte)
  | rbyteLast
  | waddr
  | raddr
deriving DecidableEq, Repr

end Sys2Proof
end

