-- ==== Sys2Proof/WellFormed.lean ====
section
/-! DEFINITION. Which commands a command word can carry. Every operand but one has the width of its field
(30_encoding.md R91, R92), so its type is the check; SETADDR's B0[7] must be 0 (R92, 45_config.md R212). -/

namespace Sys2Proof

/-- SETADDR's operand is a 7-bit address in an 8-bit field (R92). -/
def saddrFits (a : Byte) : Bool := a.toNat < 128

def Instr.wellFormed : Instr → Bool
  | .setaddr a => saddrFits a
  | .nop | .start | .stop | .send _ | .wack | .recv | .nack | .wreg _ _ | .rreg _
  | .decvVbat _ | .decvOcv _ | .deciIbat _ | .deciOut1 _ | .deciOut2 _ | .deciTypec _ | .deciVin _
  | .decp _ | .decsSys _ | .decsChg _ | .decsNtc _ | .decsBoost _ | .decsMos _
  | .derv | .impute | .poll | .setdly _ | .setpoll _ => true

end Sys2Proof
end

