-- ==== Sys2Proof/Decode.lean ====
section
/-! DEFINITION. The command word (30_encoding.md R91): the decoder, total on every word and rejecting by name (R96),
then the encoder, then the rows of the opcode table (R95). -/

namespace Sys2Proof

/-- Why a word is illegal (R96). -/
inductive Illegal where
  /-- OPC is not in R95. -/
  | opcode
  /-- RSV ≠ 0. -/
  | reservedBits
  /-- SEL is outside the legal set of R93. -/
  | selector
  /-- A field the opcode does not use is not 0 (R94), or SETADDR's B0[7] is 1 (R92). -/
  | unusedField
deriving DecidableEq, Repr

/-- What a word decodes to. -/
inductive Decoded where
  | legal (i : Instr)
  | illegal (why : Illegal)
deriving DecidableEq, Repr

/-! The fields of R91. -/

def Word.opc (w : Word) : Byte := w.extractLsb' 24 8
def Word.rsv (w : Word) : BitVec 4 := w.extractLsb' 20 4
def Word.sel (w : Word) : BitVec 4 := w.extractLsb' 16 4
def Word.b1 (w : Word) : Byte := w.extractLsb' 8 8
def Word.b0 (w : Word) : Byte := w.extractLsb' 0 8

/-- `raw16 = delay16 = {B1, B0}` (R92). -/
def Word.raw16 (w : Word) : Raw16 := (w.b1.zeroExtend 16 <<< 8) ||| w.b0.zeroExtend 16

/-- A command that uses neither B1 nor B0 (R94). -/
def noBytes (w : Word) (i : Instr) : Decoded :=
  if w.b1 = 0#8 then (if w.b0 = 0#8 then .legal i else .illegal .unusedField) else .illegal .unusedField

/-- A command that uses B0 only (R94). -/
def onlyB0 (w : Word) (i : Instr) : Decoded := if w.b1 = 0#8 then .legal i else .illegal .unusedField

/-- A command that uses B0[6:0] only (R92, R94). -/
def onlyLow7 (w : Word) (i : Instr) : Decoded :=
  if saddrFits w.b0 then onlyB0 w i else .illegal .unusedField

/-- A command that uses B1 only (R94). -/
def onlyB1 (w : Word) (i : Instr) : Decoded := if w.b0 = 0#8 then .legal i else .illegal .unusedField

/-- A command whose SEL must be 0 (R93). -/
def noSel (w : Word) (d : Decoded) : Decoded := if w.sel = 0#4 then d else .illegal .selector

/-- The SEL values of DECV (R93). -/
def decodeDecv (w : Word) : Decoded :=
  match w.sel.toNat with
  | 0 => .legal (.decvVbat w.raw16)
  | 1 => .legal (.decvOcv w.raw16)
  | _ => .illegal .selector

/-- The SEL values of DECI (R93). -/
def decodeDeci (w : Word) : Decoded :=
  match w.sel.toNat with
  | 0 => .legal (.deciIbat w.raw16)
  | 1 => .legal (.deciOut1 w.raw16)
  | 2 => .legal (.deciOut2 w.raw16)
  | 3 => .legal (.deciTypec w.raw16)
  | 4 => .legal (.deciVin w.raw16)
  | _ => .illegal .selector

/-- The SEL values of DECS (R93); B1 must be 0 (R173). -/
def decodeDecs (w : Word) : Decoded :=
  match w.sel.toNat with
  | 0 => onlyB0 w (.decsSys w.b0)
  | 1 => onlyB0 w (.decsChg w.b0)
  | 2 => onlyB0 w (.decsNtc w.b0)
  | 3 => onlyB0 w (.decsBoost w.b0)
  | 4 => onlyB0 w (.decsMos w.b0)
  | _ => .illegal .selector

/-- The opcode map of R95, for a word whose RSV is 0. -/
def decodeOpc (w : Word) : Decoded :=
  match w.opc.toNat with
  | 0x00 => noSel w (noBytes w .nop)
  | 0x01 => noSel w (noBytes w .start)
  | 0x02 => noSel w (noBytes w .stop)
  | 0x03 => noSel w (onlyB0 w (.send w.b0))
  | 0x04 => noSel w (noBytes w .wack)
  | 0x05 => noSel w (noBytes w .recv)
  | 0x06 => noSel w (noBytes w .nack)
  | 0x10 => noSel w (.legal (.wreg w.b1 w.b0))
  | 0x11 => noSel w (onlyB1 w (.rreg w.b1))
  | 0x20 => decodeDecv w
  | 0x21 => decodeDeci w
  | 0x22 => noSel w (.legal (.decp w.raw16))
  | 0x23 => decodeDecs w
  | 0x30 => noSel w (noBytes w .derv)
  | 0x31 => noSel w (noBytes w .impute)
  | 0x32 => noSel w (noBytes w .poll)
  | 0x40 => noSel w (.legal (.setdly w.raw16))
  | 0x41 => noSel w (onlyLow7 w (.setaddr w.b0))
  | 0x42 => noSel w (onlyB0 w (.setpoll w.b0))
  | _ => .illegal .opcode

/-- The decoder: every word is one legal command or illegal for a named reason (R94, R96). -/
def decode (w : Word) : Decoded := if w.rsv = 0#4 then decodeOpc w else .illegal .reservedBits

/-- The word of the four operand fields, RSV = 0 (R91). -/
def packWord (opc : Byte) (sel : BitVec 4) (b1 b0 : Byte) : Word :=
  (opc.zeroExtend 32 <<< 24) ||| (sel.zeroExtend 32 <<< 16) ||| (b1.zeroExtend 32 <<< 8) ||| b0.zeroExtend 32

/-- A word that carries a 16-bit value in {B1, B0} (R92). -/
def packRaw (opc : Byte) (sel : BitVec 4) (r : Raw16) : Word :=
  packWord opc sel (r.extractLsb' 8 8) (r.extractLsb' 0 8)

/-- The encoder, from R95 and R99. -/
def encode : Instr → Word
  | .nop => packWord 0x00#8 0#4 0#8 0#8
  | .start => packWord 0x01#8 0#4 0#8 0#8
  | .stop => packWord 0x02#8 0#4 0#8 0#8
  | .send b => packWord 0x03#8 0#4 0#8 b
  | .wack => packWord 0x04#8 0#4 0#8 0#8
  | .recv => packWord 0x05#8 0#4 0#8 0#8
  | .nack => packWord 0x06#8 0#4 0#8 0#8
  | .wreg a v => packWord 0x10#8 0#4 a v
  | .rreg a => packWord 0x11#8 0#4 a 0#8
  | .decvVbat r => packRaw 0x20#8 0#4 r
  | .decvOcv r => packRaw 0x20#8 1#4 r
  | .deciIbat r => packRaw 0x21#8 0#4 r
  | .deciOut1 r => packRaw 0x21#8 1#4 r
  | .deciOut2 r => packRaw 0x21#8 2#4 r
  | .deciTypec r => packRaw 0x21#8 3#4 r
  | .deciVin r => packRaw 0x21#8 4#4 r
  | .decp r => packRaw 0x22#8 0#4 r
  | .decsSys b => packWord 0x23#8 0#4 0#8 b
  | .decsChg b => packWord 0x23#8 1#4 0#8 b
  | .decsNtc b => packWord 0x23#8 2#4 0#8 b
  | .decsBoost b => packWord 0x23#8 3#4 0#8 b
  | .decsMos b => packWord 0x23#8 4#4 0#8 b
  | .derv => packWord 0x30#8 0#4 0#8 0#8
  | .impute => packWord 0x31#8 0#4 0#8 0#8
  | .poll => packWord 0x32#8 0#4 0#8 0#8
  | .setdly d => packRaw 0x40#8 0#4 d
  | .setaddr a => packWord 0x41#8 0#4 0#8 a
  | .setpoll n => packWord 0x42#8 0#4 0#8 n

/-- A row of the opcode table: a word belongs to the row when it agrees with `pat` on `mask` (R95). -/
structure OpRow where
  mnemonic : String
  pat : Word
  mask : Word
deriving DecidableEq, Repr

/-- The word lies in the row. -/
def OpRow.covers (r : OpRow) (w : Word) : Bool := w &&& r.mask == r.pat

/-- The row a command belongs to (spec/opcode_table.json; R95's masks and matches). -/
def Instr.row : Instr → OpRow
  | .nop => ⟨"NOP", 0x00000000#32, 0xFFFFFFFF#32⟩
  | .start => ⟨"START", 0x01000000#32, 0xFFFFFFFF#32⟩
  | .stop => ⟨"STOP", 0x02000000#32, 0xFFFFFFFF#32⟩
  | .send _ => ⟨"SEND", 0x03000000#32, 0xFFFFFF00#32⟩
  | .wack => ⟨"WACK", 0x04000000#32, 0xFFFFFFFF#32⟩
  | .recv => ⟨"RECV", 0x05000000#32, 0xFFFFFFFF#32⟩
  | .nack => ⟨"NACK", 0x06000000#32, 0xFFFFFFFF#32⟩
  | .wreg _ _ => ⟨"WREG", 0x10000000#32, 0xFFFF0000#32⟩
  | .rreg _ => ⟨"RREG", 0x11000000#32, 0xFFFF00FF#32⟩
  | .decvVbat _ => ⟨"DECV.VBAT", 0x20000000#32, 0xFFFF0000#32⟩
  | .decvOcv _ => ⟨"DECV.OCV", 0x20010000#32, 0xFFFF0000#32⟩
  | .deciIbat _ => ⟨"DECI.IBAT", 0x21000000#32, 0xFFFF0000#32⟩
  | .deciOut1 _ => ⟨"DECI.OUT1", 0x21010000#32, 0xFFFF0000#32⟩
  | .deciOut2 _ => ⟨"DECI.OUT2", 0x21020000#32, 0xFFFF0000#32⟩
  | .deciTypec _ => ⟨"DECI.TYPEC", 0x21030000#32, 0xFFFF0000#32⟩
  | .deciVin _ => ⟨"DECI.VIN", 0x21040000#32, 0xFFFF0000#32⟩
  | .decp _ => ⟨"DECP", 0x22000000#32, 0xFFFF0000#32⟩
  | .decsSys _ => ⟨"DECS.SYS", 0x23000000#32, 0xFFFFFF00#32⟩
  | .decsChg _ => ⟨"DECS.CHG", 0x23010000#32, 0xFFFFFF00#32⟩
  | .decsNtc _ => ⟨"DECS.NTC", 0x23020000#32, 0xFFFFFF00#32⟩
  | .decsBoost _ => ⟨"DECS.BOOST", 0x23030000#32, 0xFFFFFF00#32⟩
  | .decsMos _ => ⟨"DECS.MOS", 0x23040000#32, 0xFFFFFF00#32⟩
  | .derv => ⟨"DERV", 0x30000000#32, 0xFFFFFFFF#32⟩
  | .impute => ⟨"IMPUTE", 0x31000000#32, 0xFFFFFFFF#32⟩
  | .poll => ⟨"POLL", 0x32000000#32, 0xFFFFFFFF#32⟩
  | .setdly _ => ⟨"SETDLY", 0x40000000#32, 0xFFFF0000#32⟩
  | .setaddr _ => ⟨"SETADDR", 0x41000000#32, 0xFFFFFF80#32⟩
  | .setpoll _ => ⟨"SETPOLL", 0x42000000#32, 0xFFFFFF00#32⟩

/-- One command of each row, in the order of spec/opcode_table.json. -/
def rowInstrs : List Instr :=
  [.nop, .start, .stop, .send 0#8, .wack, .recv, .nack, .wreg 0#8 0#8, .rreg 0#8] ++
  [.decvVbat 0#16, .decvOcv 0#16, .deciIbat 0#16, .deciOut1 0#16, .deciOut2 0#16, .deciTypec 0#16,
   .deciVin 0#16, .decp 0#16] ++
  [.decsSys 0#8, .decsChg 0#8, .decsNtc 0#8, .decsBoost 0#8, .decsMos 0#8] ++
  [.derv, .impute, .poll, .setdly 0#16, .setaddr 0#8, .setpoll 0#8]

/-- The 28 rows of spec/opcode_table.json, in its order. -/
def opRows : List OpRow :=
  rowInstrs.map Instr.row

/-- The command the decoder reads from a table word. A command is one 32-bit word (R98), so a longer one is none. -/
def decodeTableWord (nbits w : Nat) : Option Instr :=
  if nbits ≤ 32 ∧ w < 2 ^ nbits then
    match decode (BitVec.ofNat 32 w) with
    | .legal i => some i
    | .illegal _ => none
  else none

/-- The address byte `(CFG_SADDR << 1) | rw`; rw = 1 reads (20_memory.md R63). -/
def addrByte (sa : SlaveAddr) (rw : Bool) : Byte := (sa.zeroExtend 8 <<< 1) ||| (BitVec.ofBool rw).zeroExtend 8

/-- The expansions of 30_encoding.md R100; `sa` is the CFG_SADDR value the program states. -/
def Pseudo.expand (sa : SlaveAddr) : Pseudo → List Instr
  | .wbyte b => [.send b, .wack]
  | .rbyteLast => [.recv, .nack]
  | .waddr => [.send (addrByte sa false), .wack]
  | .raddr => [.send (addrByte sa true), .wack]

end Sys2Proof
end

