-- ==== Sys2Proof/Machine/State.lean ====
section
/-! DEFINITION. The state of the block (10_state.md), plain data, and the state after reset (R51). -/

namespace Sys2Proof.Machine

/-- STATUS.PHASE: the engine's position in a transaction (R31). Codes 6 and 7 are never held. -/
inductive Phase where
  | idle | started | sent | rcvd | acked | nacked
deriving DecidableEq, Repr

/-- STATUS.ERR: the completion codes of 60_exceptions.md R221. Codes 7 to 15 are never written. -/
inductive Err where
  | none | illegal | seq | nackWaddr | nackReg | nackData | nackRaddr
deriving DecidableEq, Repr

/-- The events of a pin trace (00_scope.md R11, R12). A wait carries the cycles it lasted (Log 2). -/
inductive Event where
  | scl (v : Bool)
  | sda (v : Bool)
  | w (cycles : Nat)
  | s (b : Bool)
deriving DecidableEq, Repr

/-- One 32-bit register per port, in the port order of R7. -/
structure Ports where
  out1 : Word
  out2 : Word
  typec : Word
  vin : Word
deriving DecidableEq, Repr

/-- The decoded results, host indices 0x05 to 0x17 (R36 to R47). -/
structure Results where
  valid : Word
  vbat : Word
  ocv : Word
  ibat : Word
  pwr : Word
  vport : Ports
  iport : Ports
  sys : Word
  chg : Word
  ntc : Word
  boost : Word
  mos : Word
  imp : Word
deriving DecidableEq, Repr

/-- The host registers a command writes at its commit: STATUS.ACKF, DIR, PHASE and ERR (R24), RXDATA (R32), the
configuration (R33 to R35) and the results. A flag's 1 is `true`. -/
structure Regs where
  ackf : Bool
  dir : Bool
  phase : Phase
  err : Err
  rxdata : Byte
  cfgDelay : BitVec 16
  cfgSaddr : SlaveAddr
  cfgAckpoll : Byte
  res : Results
deriving DecidableEq, Repr

/-- The pins and the environment's side of them. -/
structure Bus where
  /-- `scl_o` (R20, R21). -/
  scl : Bool
  /-- `sda_o` (R20, R22). -/
  sda : Bool
  /-- The pin trace of the last accepted command, newest event first (R12). -/
  past : List Event
  /-- The levels the slaves give at the coming draws, the next one first; when it runs out a draw is
  `Config.slaveLevel` (R61; the model's own field, Log 1). -/
  slave : List Bool
  /-- The counter the free values of Config are applied to (the model's own field, Log 1). -/
  free : Nat
deriving DecidableEq, Repr

/-- What the host does on one clock edge: the input ports `rst`, `cmd_wr`, `cmd`, `rd_idx` (R20). -/
inductive HostAct where
  /-- Nothing. -/
  | idle
  /-- `cmd_wr` for one edge with this word, and then the host acts again only once it has read BUSY = 0, the
  discipline of 60_exceptions.md R231 (Log 4). -/
  | issue (w : Word)
  /-- `cmd_wr` for one edge with this word, and the host goes on acting at the next edge (Log 4). -/
  | strobe (w : Word)
  /-- A host read of index `i`; `level` is what the slaves give SDA at that moment (Log 14). -/
  | read (i : BitVec 6) (level : Bool)
  /-- `rst` high; `also` is a word strobed on the same edge, which is ignored (70_reset_and_hazards.md R250). -/
  | reset (also : Option Word)
deriving DecidableEq, Repr

/-- A command in progress: the hidden state of R49. -/
structure InFlight where
  /-- The latched command word (30_encoding.md R90). -/
  word : Word
  /-- The remaining event list of the command, the next event first (R49). -/
  todo : List Event
  /-- The wait counter: cycles of the current wait that have passed. -/
  waited : Nat
  /-- Cycles left before the commit once the events are done (R267, Log 3). -/
  settle : Nat
  /-- The shadow copy: the registers as the commit will leave them (R49, R75). -/
  shadow : Regs
deriving DecidableEq, Repr

/-- The block between two steps. -/
structure State where
  /-- The committed host registers. -/
  regs : Regs
  /-- STATUS.OVR (R28). -/
  ovr : Bool
  bus : Bus
  /-- The command in progress; STATUS.BUSY is whether there is one (R25). -/
  inFlight : Option InFlight
  /-- What the host does on the coming edges, the next one first (the model's own field, Log 9). -/
  host : List HostAct
  /-- `rd_data`: the value of the last host read (R20). -/
  rdData : Word
deriving DecidableEq, Repr

/-- The reasons the machine stops with a fault: none. The block has no traps and no hang, and every word and every
phase has a defined result (60_exceptions.md R220, R233). -/
inductive Fault where
deriving DecidableEq, Repr

/-- The reasons a command has no meaning. -/
inductive Refusal where
  /-- Raised only by an arm of `exec` whose command has no meaning yet; safe, since the machine stops. No arm does. -/
  | notModelled (mnemonic : String)
deriving DecidableEq, Repr

/-- All four registers 0. -/
def Ports.zero : Ports := { out1 := 0#32, out2 := 0#32, typec := 0#32, vin := 0#32 }

/-- Every result 0 and not ready: the reset value (R51), and what a failed POLL leaves (R196). -/
def Results.zero : Results where
  valid := 0#32
  vbat := 0#32
  ocv := 0#32
  ibat := 0#32
  pwr := 0#32
  vport := Ports.zero
  iport := Ports.zero
  sys := 0#32
  chg := 0#32
  ntc := 0#32
  boost := 0#32
  mos := 0#32
  imp := 0#32

/-- The registers' reset values (R51), over the configuration record. -/
def Regs.resetOf (c : Config) : Regs where
  ackf := false
  dir := false
  phase := .idle
  err := .none
  rxdata := 0xFF#8
  cfgDelay := c.delayReset
  cfgSaddr := c.saddrReset
  cfgAckpoll := 1#8
  res := Results.zero

/-- The registers' reset values with the defaults of 00_scope.md R7 (Log 7, Log 25). -/
def Regs.reset : Regs := Regs.resetOf Config.block

/-- Both lines released (R51), no trace, and the model's own fields empty (Log 10). -/
def Bus.reset : Bus := { scl := true, sda := true, past := [], slave := [], free := 0 }

/-- The block right after reset (R51, 70_reset_and_hazards.md R251), over the configuration record: it waits for a
command. -/
def State.resetOf (c : Config) : State where
  regs := Regs.resetOf c
  ovr := false
  bus := Bus.reset
  inFlight := none
  host := []
  rdData := 0#32

/-- The block right after reset, with the defaults of 00_scope.md R7. -/
def State.reset : State := State.resetOf Config.block

end Sys2Proof.Machine
end

