-- ==== Sys2Proof/Machine/Operands.lean ====
section
/-! DEFINITION. Operand forms: the bytes of a composite, the wait floor, the sample limit, the
port registers, and the legal phases of the commands. -/

namespace Sys2Proof.Machine

/-- `combine16(lo, hi) = hi * 256 + lo` (42_decoder.md R161, 20_memory.md R70). -/
def combine16 (lo hi : Byte) : Raw16 := (hi.zeroExtend 16 <<< 8) ||| lo.zeroExtend 16

/-- The least cycles of a wait, `tD = max(1, CFG_DELAY)` (00_scope.md R11, 10_state.md R33). -/
def waitFloor (d : BitVec 16) : Nat := max 1 d.toNat

/-- How many samples WACK may take after its first, with CFG_ACKPOLL = n (40_i2c_engine.md R115). -/
def extraSamples (n : Byte) : Nat := n.toNat - 1

/-- The value SETPOLL stores (45_config.md R213). -/
def ackpollValue (n : Byte) : Byte := if n = 0#8 then 1#8 else n

/-- SETADDR's operand as an address: `saddr7 = B0[6:0]` (30_encoding.md R92). -/
def saddr7 (a : Byte) : SlaveAddr := a.extractLsb' 0 7

/-- A byte's bits in the order they go on the wire, most significant first (20_memory.md R69). -/
def wireBits (b : Byte) : List Bool :=
  [b.getLsbD 7, b.getLsbD 6, b.getLsbD 5, b.getLsbD 4, b.getLsbD 3, b.getLsbD 2, b.getLsbD 1, b.getLsbD 0]

/-- One more received bit, after those already in `r` (40_i2c_engine.md R116: most significant first). -/
def shiftIn (r : Byte) (b : Bool) : Byte := (r <<< 1) ||| (BitVec.ofBool b).zeroExtend 8

/-- The register of a port. -/
def Ports.get (r : Ports) : Port → Word
  | .out1 => r.out1
  | .out2 => r.out2
  | .typec => r.typec
  | .vin => r.vin

/-- The registers with one port's replaced. -/
def Ports.set (r : Ports) (p : Port) (x : Word) : Ports :=
  match p with
  | .out1 => { r with out1 := x }
  | .out2 => { r with out2 := x }
  | .typec => { r with typec := x }
  | .vin => { r with vin := x }

/-- The four registers from a function of the port. -/
def Ports.ofFn (f : Port → Word) : Ports :=
  { out1 := f .out1, out2 := f .out2, typec := f .typec, vin := f .vin }

/-- The code of a phase (10_state.md R31). -/
def Phase.code : Phase → BitVec 3
  | .idle => 0#3
  | .started => 1#3
  | .sent => 2#3
  | .rcvd => 3#3
  | .acked => 4#3
  | .nacked => 5#3

/-- The code of an error (60_exceptions.md R221). -/
def Err.code : Err → BitVec 4
  | .none => 0#4
  | .illegal => 1#4
  | .seq => 2#4
  | .nackWaddr => 3#4
  | .nackReg => 4#4
  | .nackData => 5#4
  | .nackRaddr => 6#4

/-! The phases each engine command may start from (10_state.md R31, 40_i2c_engine.md R112 to R118). -/

def Regs.mayStart (r : Regs) : Bool :=
  match r.phase with
  | .idle | .acked | .nacked => true
  | .started | .sent | .rcvd => false

def Regs.mayStop (r : Regs) : Bool :=
  match r.phase with
  | .acked | .nacked => true
  | .idle | .started | .sent | .rcvd => false

def Regs.maySend (r : Regs) : Bool :=
  match r.phase with
  | .started => true
  | .acked => !r.dir
  | .idle | .sent | .rcvd | .nacked => false

def Regs.mayWack (r : Regs) : Bool :=
  match r.phase with
  | .sent => true
  | .idle | .started | .rcvd | .acked | .nacked => false

def Regs.mayRecv (r : Regs) : Bool :=
  match r.phase with
  | .acked => r.dir
  | .idle | .started | .sent | .rcvd | .nacked => false

def Regs.mayNack (r : Regs) : Bool :=
  match r.phase with
  | .rcvd => true
  | .idle | .started | .sent | .acked | .nacked => false

/-- WREG, RREG and POLL start from IDLE only (41_register_access.md R145). -/
def Regs.mayTransact (r : Regs) : Bool :=
  match r.phase with
  | .idle => true
  | .started | .sent | .rcvd | .acked | .nacked => false

end Sys2Proof.Machine
end

