-- ==== Sys2Proof/Machine/Flags.lean ====
section
/-! DEFINITION. The flag words: STATUS (10_state.md R24), VALID (R36) and IMP (R47). -/

namespace Sys2Proof

/-! The VALID bit of each result (10_state.md R36). -/

def VChan.validBit : VChan → Nat
  | .vbat => 0
  | .ocv => 1

def IChan.validBit : IChan → Nat
  | .ibat => 2
  | .port p => 8 + p.idx

def StatusKind.validBit : StatusKind → Nat
  | .sys => 12
  | .chg => 13
  | .ntc => 14
  | .boost => 15
  | .mos => 16

/-- The VALID bit of PWR. -/
def pwrValidBit : Nat := 3

/-- The VALID bit of a port's voltage. -/
def vportValidBit (p : Port) : Nat := 4 + p.idx

/-- The VALID bit of a port's current. -/
def iportValidBit (p : Port) : Nat := 8 + p.idx

end Sys2Proof

namespace Sys2Proof.Machine

/-- A word whose bit n is b and whose other bits are 0. -/
def bitAt (n : Nat) (b : Bool) : Word := if b then 1#32 <<< n else 0#32

/-- The word with bit n made b. -/
def setBit (w : Word) (n : Nat) (b : Bool) : Word := (w &&& ~~~(1#32 <<< n)) ||| bitAt n b

/-- A result is ready: its VALID bit is 1. -/
def Results.ready (r : Results) (n : Nat) : Bool := r.valid.getLsbD n

/-! The result register of each channel and kind. -/

def Results.volt (r : Results) : VChan → Word
  | .vbat => r.vbat
  | .ocv => r.ocv

def Results.curr (r : Results) : IChan → Word
  | .ibat => r.ibat
  | .port p => r.iport.get p

def Results.status (r : Results) : StatusKind → Word
  | .sys => r.sys
  | .chg => r.chg
  | .ntc => r.ntc
  | .boost => r.boost
  | .mos => r.mos

/-- IMP = {DIV0[3:0], IMPUTED[3:0]} (R47, 43_port_and_poll.md R193). -/
def impWord (imputed div0 : Port → Bool) : Word :=
  bitAt 0 (imputed .out1) ||| bitAt 1 (imputed .out2) ||| bitAt 2 (imputed .typec) ||| bitAt 3 (imputed .vin) |||
  bitAt 4 (div0 .out1) ||| bitAt 5 (div0 .out2) ||| bitAt 6 (div0 .typec) ||| bitAt 7 (div0 .vin)

/-- STATUS.BUSY: a command is in progress (R25). -/
def State.busy (s : State) : Bool := s.inFlight.isSome

/-- The level of the SDA line, when the slaves give `level`: low while `sda_o` = 0 (R22, 20_memory.md R61). -/
def Bus.line (b : Bus) (level : Bool) : Bool := b.sda && level

/-- The STATUS word (R24), when the slaves give SDA the level `level` at the moment of the read (R30). -/
def State.status (s : State) (level : Bool) : Word :=
  bitAt 0 s.busy ||| bitAt 1 s.regs.ackf ||| bitAt 2 s.regs.dir ||| bitAt 3 s.ovr |||
  (s.regs.phase.code.zeroExtend 32 <<< 4) ||| (s.regs.err.code.zeroExtend 32 <<< 8) |||
  bitAt 16 s.bus.scl ||| bitAt 17 s.bus.sda ||| bitAt 18 (s.bus.line level)

end Sys2Proof.Machine
end

