-- ==== Sys2Proof/Machine/Ops.lean ====
section
/-! DEFINITION. The named operations: the pin primitives (00_scope.md R11), the register writes, acceptance
(30_encoding.md R90), completion and `raise Err(code)` (60_exceptions.md R220), reset (70_reset_and_hazards.md R250)
and the host read (20_memory.md R76). -/

namespace Sys2Proof.Machine

/-! ## The bus -/

/-- What one event does to the pins and the trace. A sample taken while SDA is released uses up one draw. -/
def Bus.play (b : Bus) : Event → Bus
  | .scl v => { b with scl := v, past := .scl v :: b.past }
  | .sda v => { b with sda := v, past := .sda v :: b.past }
  | .w n => { b with past := .w n :: b.past, free := b.free + 1 }
  | .s x =>
    if b.sda then { b with past := .s x :: b.past, slave := b.slave.tail, free := b.free + 1 }
    else { b with past := .s x :: b.past }

/-- The next level the slaves give: the environment's next one, or a free value (R61, Log 1). -/
def Bus.draw (b : Bus) : Bool :=
  match b.slave with
  | x :: _ => x
  | [] => Config.slaveLevel b.free

/-- The level `Sample()` returns (R61). -/
def Bus.sampled (b : Bus) : Bool := b.line b.draw

/-- The pin trace, oldest event first (R12). -/
def State.trace (s : State) : List Event := s.bus.past.reverse

/-- An event without the length of a wait: the `W` of R12. -/
def Event.untimed : Event → Event
  | .w _ => .w 0
  | .scl v => .scl v
  | .sda v => .sda v
  | .s b => .s b

/-- The pin trace with the lengths of the waits left out. -/
def State.shape (s : State) : List Event := s.trace.map Event.untimed

def State.play (s : State) (e : Event) : State := { s with bus := s.bus.play e }

/-- `SetSCL(v)`. -/
def setScl (v : Bool) (s : State) : State := s.play (.scl v)

/-- `SetSDA(v)`. -/
def setSda (v : Bool) (s : State) : State := s.play (.sda v)

/-- The cycles of the next wait: at least tD, and no upper bound (R268, Log 2). -/
def State.waitLength (s : State) : Nat := waitFloor s.regs.cfgDelay + Config.waitExtra s.bus.free

/-- `Wait()`. -/
def wait (s : State) : State := s.play (.w s.waitLength)

/-- `Sample()`: the state after it. The value it returns is `s.bus.sampled`. -/
def sample (s : State) : State := s.play (.s s.bus.sampled)

/-! ## The registers -/

def State.setAckf (s : State) (b : Bool) : State := { s with regs := { s.regs with ackf := b } }
def State.setDir (s : State) (b : Bool) : State := { s with regs := { s.regs with dir := b } }
def State.setPhase (s : State) (p : Phase) : State := { s with regs := { s.regs with phase := p } }
def State.setErr (s : State) (e : Err) : State := { s with regs := { s.regs with err := e } }
def State.setRx (s : State) (b : Byte) : State := { s with regs := { s.regs with rxdata := b } }
def State.setDelay (s : State) (d : BitVec 16) : State := { s with regs := { s.regs with cfgDelay := d } }
def State.setSaddr (s : State) (a : SlaveAddr) : State := { s with regs := { s.regs with cfgSaddr := a } }
def State.setAckpoll (s : State) (n : Byte) : State := { s with regs := { s.regs with cfgAckpoll := n } }
def State.setRes (s : State) (r : Results) : State := { s with regs := { s.regs with res := r } }

/-! ## Acceptance, completion, errors, reset -/

/-- A command is accepted (R90): OVR is cleared and a new pin trace begins (Log 13). -/
def State.accept (s : State) : State :=
  { s with ovr := false, bus := { s.bus with past := [], free := s.bus.free + 1 } }

/-- `ERR <- NONE; commit`. -/
def State.done (s : State) : State := s.setErr .none

/-- `raise Err(code)` after its cleanup (R220): the code, and nothing else. -/
def State.raise (s : State) (e : Err) : State := s.setErr e

/-- `rst` on a clock edge (R250): the registers at their reset values `r`, the pins and the hidden state too. What is the
environment's own (its schedule, its levels, the free counter) and the last value read go on (Log 11). -/
def State.applyReset (r : Regs) (s : State) : State :=
  { s with
    regs := r
    ovr := false
    bus := { Bus.reset with slave := s.bus.slave, free := s.bus.free }
    inFlight := none }

/-! ## The host read -/

/-- The value of host register `i` (R23, R24, R48), when the slaves give SDA the level `level`. It reads the
committed registers, so a command in progress shows its old values (R75, R76). -/
def State.hostRead (s : State) (level : Bool) (i : BitVec 6) : Word :=
  match i.toNat with
  | 0x00 => s.status level
  | 0x01 => s.regs.rxdata.zeroExtend 32
  | 0x02 => s.regs.cfgDelay.zeroExtend 32
  | 0x03 => s.regs.cfgSaddr.zeroExtend 32
  | 0x04 => s.regs.cfgAckpoll.zeroExtend 32
  | 0x05 => s.regs.res.valid
  | 0x06 => s.regs.res.vbat
  | 0x07 => s.regs.res.ocv
  | 0x08 => s.regs.res.ibat
  | 0x09 => s.regs.res.pwr
  | 0x0A => s.regs.res.vport.out1
  | 0x0B => s.regs.res.vport.out2
  | 0x0C => s.regs.res.vport.typec
  | 0x0D => s.regs.res.vport.vin
  | 0x0E => s.regs.res.iport.out1
  | 0x0F => s.regs.res.iport.out2
  | 0x10 => s.regs.res.iport.typec
  | 0x11 => s.regs.res.iport.vin
  | 0x12 => s.regs.res.sys
  | 0x13 => s.regs.res.chg
  | 0x14 => s.regs.res.ntc
  | 0x15 => s.regs.res.boost
  | 0x16 => s.regs.res.mos
  | 0x17 => s.regs.res.imp
  | _ => 0#32

/-- A host read on this edge: `rd_data` takes the register's value and nothing else changes (R76). -/
def State.readOut (s : State) (level : Bool) (i : BitVec 6) : State := { s with rdData := s.hostRead level i }

end Sys2Proof.Machine
end

