-- ==== Sys2Proof/Machine/ConfigCmds.lean ====
section
/-! DEFINITION. NOP and the configuration commands (45_config.md). -/

namespace Sys2Proof.Machine

/-- NOP (R210). -/
def execNop (s : State) : Host.Outcome State Fault Refusal := .next s.done

/-- SETDLY (R211). -/
def execSetdly (d : BitVec 16) (s : State) : Host.Outcome State Fault Refusal := .next (s.setDelay d).done

/-- SETADDR (R212); an operand with B0[7] = 1 is ILLEGAL (Log 16). -/
def execSetaddr (a : Byte) (s : State) : Host.Outcome State Fault Refusal :=
  .next (if saddrFits a then (s.setSaddr (saddr7 a)).done else s.raise .illegal)

/-- SETPOLL (R213). -/
def execSetpoll (n : Byte) (s : State) : Host.Outcome State Fault Refusal := .next (s.setAckpoll (ackpollValue n)).done

end Sys2Proof.Machine
end

