-- ==== Sys2Proof/Machine/Decoder.lean ====
section
/-! DEFINITION. The decode functions (42_decoder.md R160 to R169), over the configuration record, and the decode
commands (R170 to R173). -/

namespace Sys2Proof.Machine

/-- A decoded result: `valid = false` is "not ready" (R164). -/
structure Reading where
  value : Word
  valid : Bool
deriving DecidableEq, Repr

/-- The sentinel's result (R164 to R169). -/
def Reading.notReady : Reading := { value := 0#32, valid := false }

/-- `sat32(x) = min(x, 2^32 - 1)` (R160). -/
def sat32 (x : Nat) : Word := BitVec.ofNat 32 (min x (2 ^ 32 - 1))

/-- `lin(r, NUM, DEN, OFF) = sat32(floor(r * NUM / DEN) + OFF)` (R162). -/
def lin (r : Nat) (k : Scale) : Word := sat32 (r * k.num / k.den + k.off)

/-- The current fold (R163): the ones'-complement magnitude, not a signed decode (R175). -/
def fold (r : Raw16) : Nat := if 32767 < r.toNat then 65535 - r.toNat else r.toNat

/-- Voltage (R164). -/
def dv (c : Config) (ch : VChan) (r : Raw16) : Reading :=
  if r = 0xFFFF#16 then .notReady else { value := lin r.toNat (c.volt ch), valid := true }

/-- Current (R164). -/
def di (c : Config) (ch : IChan) (r : Raw16) : Reading :=
  if r = 0xFFFF#16 then .notReady else { value := lin (fold r) (c.curr ch), valid := true }

/-- Power (R164): no fold. -/
def dp (c : Config) (r : Raw16) : Reading :=
  if r = 0xFFFF#16 then .notReady else { value := lin r.toNat c.power, valid := true }

/-- A status byte's result: the sentinel 0xFF, or the packed fields (R165 to R169). -/
def statusReading (b : Byte) (out : Word) : Reading :=
  if b = 0xFF#8 then .notReady else { value := out, valid := true }

/-- SYS: MODE in bits 2:0, CHGF in bit 4, in place (R165). -/
def dsSys (b : Byte) : Reading := statusReading b ((b &&& 0x17#8).zeroExtend 32)

/-- CHG: PHASE in bits 2:0, TO in bits 15:8 (R166). -/
def dsChg (c : Config) (b : Byte) : Reading :=
  statusReading b (((b >>> c.chgPhaseLsb) &&& 7#8).zeroExtend 32 ||| ((b &&& c.chgToMask).zeroExtend 32 <<< 8))

/-- NTC: NTCV in bit 0, ZONE in bits 6:4 (R167). -/
def dsNtc (c : Config) (b : Byte) : Reading :=
  statusReading b
    (bitAt 0 (b.getLsbD c.ntcValidPos) ||| (((b >>> c.ntcZoneLsb) &&& 7#8).zeroExtend 32 <<< 4))

/-- BOOST: the flags in bits 3:0 (R168). -/
def dsBoost (c : Config) (b : Byte) : Reading :=
  statusReading b (((b >>> c.boostLsb) &&& 0xF#8).zeroExtend 32)

/-- MOS: bit p is the enable bit of port p (R169). -/
def dsMos (c : Config) (b : Byte) : Reading :=
  statusReading b
    (bitAt 0 (b.getLsbD (c.mosPos .out1)) ||| bitAt 1 (b.getLsbD (c.mosPos .out2)) |||
      bitAt 2 (b.getLsbD (c.mosPos .typec)) ||| bitAt 3 (b.getLsbD (c.mosPos .vin)))

/-- The decode of each status kind (R173). -/
def ds (c : Config) (k : StatusKind) (b : Byte) : Reading :=
  match k with
  | .sys => dsSys b
  | .chg => dsChg c b
  | .ntc => dsNtc c b
  | .boost => dsBoost c b
  | .mos => dsMos c b

/-! ## Writing a reading: the result register and its VALID bit -/

def Results.putVolt (r : Results) (ch : VChan) (x : Reading) : Results :=
  let v := setBit r.valid ch.validBit x.valid
  match ch with
  | .vbat => { r with vbat := x.value, valid := v }
  | .ocv => { r with ocv := x.value, valid := v }

def Results.putCurr (r : Results) (ch : IChan) (x : Reading) : Results :=
  let v := setBit r.valid ch.validBit x.valid
  match ch with
  | .ibat => { r with ibat := x.value, valid := v }
  | .port p => { r with iport := r.iport.set p x.value, valid := v }

def Results.putPower (r : Results) (x : Reading) : Results :=
  { r with pwr := x.value, valid := setBit r.valid pwrValidBit x.valid }

def Results.putVport (r : Results) (p : Port) (x : Reading) : Results :=
  { r with vport := r.vport.set p x.value, valid := setBit r.valid (vportValidBit p) x.valid }

def Results.putStatus (r : Results) (k : StatusKind) (x : Reading) : Results :=
  let v := setBit r.valid k.validBit x.valid
  match k with
  | .sys => { r with sys := x.value, valid := v }
  | .chg => { r with chg := x.value, valid := v }
  | .ntc => { r with ntc := x.value, valid := v }
  | .boost => { r with boost := x.value, valid := v }
  | .mos => { r with mos := x.value, valid := v }

/-! ## The commands, over the configuration record -/

def decv (c : Config) (ch : VChan) (r : Raw16) (s : State) : State :=
  (s.setRes (s.regs.res.putVolt ch (dv c ch r))).done

def deci (c : Config) (ch : IChan) (r : Raw16) (s : State) : State :=
  (s.setRes (s.regs.res.putCurr ch (di c ch r))).done

def decp (c : Config) (r : Raw16) (s : State) : State := (s.setRes (s.regs.res.putPower (dp c r))).done

def decs (c : Config) (k : StatusKind) (b : Byte) (s : State) : State :=
  (s.setRes (s.regs.res.putStatus k (ds c k b))).done

/-- DECV VBAT (R170). -/
def execDecvVbat (r : Raw16) (s : State) : Host.Outcome State Fault Refusal := .next (decv Config.block .vbat r s)

/-- DECV OCV (R170). -/
def execDecvOcv (r : Raw16) (s : State) : Host.Outcome State Fault Refusal := .next (decv Config.block .ocv r s)

/-- DECI IBAT (R171). -/
def execDeciIbat (r : Raw16) (s : State) : Host.Outcome State Fault Refusal := .next (deci Config.block .ibat r s)

/-- DECI OUT1 (R171). -/
def execDeciOut1 (r : Raw16) (s : State) : Host.Outcome State Fault Refusal :=
  .next (deci Config.block (.port .out1) r s)

/-- DECI OUT2 (R171). -/
def execDeciOut2 (r : Raw16) (s : State) : Host.Outcome State Fault Refusal :=
  .next (deci Config.block (.port .out2) r s)

/-- DECI TYPEC (R171). -/
def execDeciTypec (r : Raw16) (s : State) : Host.Outcome State Fault Refusal :=
  .next (deci Config.block (.port .typec) r s)

/-- DECI VIN (R171). -/
def execDeciVin (r : Raw16) (s : State) : Host.Outcome State Fault Refusal :=
  .next (deci Config.block (.port .vin) r s)

/-- DECP (R172). -/
def execDecp (r : Raw16) (s : State) : Host.Outcome State Fault Refusal := .next (decp Config.block r s)

/-- DECS SYS (R173). -/
def execDecsSys (b : Byte) (s : State) : Host.Outcome State Fault Refusal := .next (decs Config.block .sys b s)

/-- DECS CHG (R173). -/
def execDecsChg (b : Byte) (s : State) : Host.Outcome State Fault Refusal := .next (decs Config.block .chg b s)

/-- DECS NTC (R173). -/
def execDecsNtc (b : Byte) (s : State) : Host.Outcome State Fault Refusal := .next (decs Config.block .ntc b s)

/-- DECS BOOST (R173). -/
def execDecsBoost (b : Byte) (s : State) : Host.Outcome State Fault Refusal := .next (decs Config.block .boost b s)

/-- DECS MOS (R173). -/
def execDecsMos (b : Byte) (s : State) : Host.Outcome State Fault Refusal := .next (decs Config.block .mos b s)

/-! ## The meaning of the decoded fields (R174), for a reader of the registers: no command depends on it -/

/-- SYS.MODE's name: 0b001 is known, the others are OPEN. -/
def sysModeName (c : Config) (sys : Word) : String :=
  let m := sys.extractLsb' 0 3
  if m = 1#3 then "5V charging" else c.nameSysMode m

/-- SYS.CHGF's meaning. -/
def chgfName (sys : Word) : String := if sys.getLsbD 4 then "charging" else "discharging"

/-- CHG.PHASE's name. -/
def chgPhaseName (c : Config) (chg : Word) : String := (c.nameChgPhase (chg.extractLsb' 0 3)).name

/-- The timeouts whose flags are set in CHG.TO. -/
def chgTimeoutNames (c : Config) (chg : Word) : List String :=
  (List.finRange 8).filterMap fun k => if chg.getLsbD (8 + k.val) then some (c.nameChgTimeout k) else none

/-- NTC.ZONE's name. -/
def ntcZoneName (c : Config) (ntc : Word) : String := c.nameNtcZone (ntc.extractLsb' 4 3)

/-- The device says its NTC reading is valid. -/
def ntcTrusted (c : Config) (ntc : Word) : Bool := ntc.getLsbD 0 == c.ntcvPolarity

/-- The ranges the set BOOST flags name. -/
def boostNames (c : Config) (boost : Word) : List BoostRange :=
  ([0, 1, 2, 3] : List (Fin 4)).filterMap fun k => if boost.getLsbD k.val then some (c.nameBoostFlag k) else none

/-- Port p is enabled. -/
def portEnabled (r : Results) (p : Port) : Bool := r.mos.getLsbD p.idx

end Sys2Proof.Machine
end

