-- ==== Sys2Proof/Machine/Engine.lean ====
section
/-! DEFINITION. The I2C engine (40_i2c_engine.md): the bit cells, the bodies of the six commands without their
commit (41_register_access.md R142 runs them inside WREG, RREG and POLL), and the commands. -/

namespace Sys2Proof.Machine

/-- The write bit cell (R110). -/
def wcell (v : Bool) (s : State) : State :=
  setScl false (wait (setScl true (wait (setSda v s))))

/-- The read bit cell (R111) up to its sample: the value is the `bus.sampled` of this state. -/
def rcellHigh (s : State) : State := wait (setScl true (wait (setSda true s)))

/-- The read bit cell (R111): the state after it. -/
def rcell (s : State) : State := setScl false (sample (rcellHigh s))

/-- The write cells of some bits, in order (R114). -/
def wcells : List Bool → State → State
  | [], s => s
  | b :: bs, s => wcells bs (wcell b s)

/-- n read cells, shifting the bits into r: the state after them (R116). -/
def rcells : Nat → State → State
  | 0, s => s
  | n + 1, s => rcells n (rcell s)

/-- n read cells, shifting the bits into r: the byte assembled (R116). -/
def rcellsByte : Nat → Byte → State → Byte
  | 0, r, _ => r
  | n + 1, r, s => rcellsByte n (shiftIn r (rcellHigh s).bus.sampled) (rcell s)

/-- START's body (R112). -/
def startBody (s : State) : State :=
  (setScl false (wait (setSda false (wait (setScl true (wait (setSda true s))))))).setPhase .started

/-- STOP's body (R113). -/
def stopBody (s : State) : State :=
  (wait (setSda true (wait (setScl true (wait (setSda false s)))))).setPhase .idle

/-- SEND takes DIR from bit 0 of the first byte after a START (R114, 10_state.md R27). -/
def takeDir (b : Byte) (s : State) : State :=
  match s.regs.phase with
  | .started => s.setDir (b.getLsbD 0)
  | .idle | .sent | .rcvd | .acked | .nacked => s

/-- SEND's body (R114). -/
def sendBody (b : Byte) (s : State) : State := (wcells (wireBits b) (takeDir b s)).setPhase .sent

/-- The samples of an ACK slot (R115): at most `more` after the first, while the line reads 1. Each is preceded by a
wait. The state after the last one. -/
def ackSamples : Nat → State → State
  | 0, s => sample s
  | more + 1, s => if s.bus.sampled then ackSamples more (wait (sample s)) else sample s

/-- The value of the last sample of an ACK slot (R115). -/
def ackValue : Nat → State → Bool
  | 0, s => s.bus.sampled
  | more + 1, s => if s.bus.sampled then ackValue more (wait (sample s)) else false

/-- An ACK slot up to its first sample: SDA released, the ninth clock high (R115). -/
def ackHigh (s : State) : State := wait (setScl true (wait (setSda true s)))

/-- WACK's body (R115). -/
def wackBody (s : State) : State :=
  let n := extraSamples s.regs.cfgAckpoll
  ((setScl false (ackSamples n (ackHigh s))).setAckf (ackValue n (ackHigh s))).setPhase .acked

/-- RECV's body (R116). -/
def recvBody (s : State) : State := ((rcells 8 s).setRx (rcellsByte 8 0#8 s)).setPhase .rcvd

/-- NACK's body (R117). -/
def nackBody (s : State) : State := (wcell true s).setPhase .nacked

/-- The phase check (R118): SEQ before any pin event, or the body. -/
def checked (ok : Bool) (body : State → State) (s : State) : State :=
  if ok then (body s).done else s.raise .seq

/-- START (R112). -/
def execStart (s : State) : Host.Outcome State Fault Refusal := .next (checked s.regs.mayStart startBody s)

/-- STOP (R113). -/
def execStop (s : State) : Host.Outcome State Fault Refusal := .next (checked s.regs.mayStop stopBody s)

/-- SEND (R114). -/
def execSend (b : Byte) (s : State) : Host.Outcome State Fault Refusal :=
  .next (checked s.regs.maySend (sendBody b) s)

/-- WACK (R115). -/
def execWack (s : State) : Host.Outcome State Fault Refusal := .next (checked s.regs.mayWack wackBody s)

/-- RECV (R116). -/
def execRecv (s : State) : Host.Outcome State Fault Refusal := .next (checked s.regs.mayRecv recvBody s)

/-- NACK (R117). -/
def execNack (s : State) : Host.Outcome State Fault Refusal := .next (checked s.regs.mayNack nackBody s)

end Sys2Proof.Machine
end

