-- ==== Sys2Proof/Machine/RegAccess.lean ====
section
/-! DEFINITION. The register transactions (41_register_access.md). -/

namespace Sys2Proof.Machine

/-- A byte and its ACK slot: the `SEND(b); WACK` of R140, R141. ACKF holds the answer. -/
def sendAck (b : Byte) (s : State) : State := wackBody (sendBody b s)

/-- WREG's abort (R143): STOP, then the code. RXDATA keeps its value. -/
def abortWrite (e : Err) (s : State) : State := (stopBody s).raise e

/-- RREG's abort (R143): STOP, RXDATA <- 0xFF, then the code. -/
def abortRead (e : Err) (s : State) : State := ((stopBody s).setRx 0xFF#8).raise e

/-- WREG's sequence from IDLE (R140). -/
def wregBody (a v : Byte) (s : State) : State :=
  let s1 := sendAck (addrByte s.regs.cfgSaddr false) (startBody s)
  if s1.regs.ackf then abortWrite .nackWaddr s1
  else
    let s2 := sendAck a s1
    if s2.regs.ackf then abortWrite .nackReg s2
    else
      let s3 := sendAck v s2
      if s3.regs.ackf then abortWrite .nackData s3 else (stopBody s3).done

/-- How a device read ends: after its STOP with the byte in RXDATA, or at the ACK slot that read NACK, before the
abort's STOP. -/
inductive ReadEnd where
  | ok (s : State)
  | nack (e : Err) (s : State)
deriving DecidableEq, Repr

/-- `DevRead(a)`: the body of RREG from IDLE without its commit (R141, R142). -/
def devRead (a : Byte) (s : State) : ReadEnd :=
  let sa := s.regs.cfgSaddr
  let s1 := sendAck (addrByte sa false) (startBody s)
  if s1.regs.ackf then .nack .nackWaddr s1
  else
    let s2 := sendAck a s1
    if s2.regs.ackf then .nack .nackReg s2
    else
      let s3 := sendAck (addrByte sa true) (startBody s2)
      if s3.regs.ackf then .nack .nackRaddr s3 else .ok (stopBody (nackBody (recvBody s3)))

/-- RREG's sequence from IDLE (R141). -/
def rregBody (a : Byte) (s : State) : State :=
  match devRead a s with
  | .ok t => t.done
  | .nack e t => abortRead e t

/-- The phase check of WREG, RREG and POLL (R145): SEQ before any pin event. -/
def transact (body : State → State) (s : State) : State :=
  if s.regs.mayTransact then body s else s.raise .seq

/-- WREG (R140). -/
def execWreg (a v : Byte) (s : State) : Host.Outcome State Fault Refusal := .next (transact (wregBody a v) s)

/-- RREG (R141). -/
def execRreg (a : Byte) (s : State) : Host.Outcome State Fault Refusal := .next (transact (rregBody a) s)

end Sys2Proof.Machine
end

