-- ==== Sys2Proof/Machine/PortPoll.lean ====
section
/-! DEFINITION. Port voltages, the imputation and the polling cycle (43_port_and_poll.md). -/

namespace Sys2Proof.Machine

/-- The ports in their order. -/
def allPorts : List Port := [.out1, .out2, .typec, .vin]

/-- The derived port voltage (R190). -/
def vport (c : Config) (r : Results) (p : Port) : Reading :=
  if r.ready StatusKind.mos.validBit && r.ready StatusKind.boost.validBit then
    { value := c.portV p (portEnabled r p) (r.boost.extractLsb' 0 4), valid := true }
  else .notReady

/-- All four port voltages (R191). A port's voltage depends on MOS, BOOST and their VALID bits only. -/
def deriveAll (c : Config) (r : Results) : Results :=
  allPorts.foldl (fun acc p => acc.putVport p (vport c r p)) r

/-- The condition of the imputation for one port (R192). -/
def imputable (r : Results) (p : Port) : Bool :=
  r.ready StatusKind.mos.validBit && portEnabled r p &&
  r.ready (iportValidBit p) && r.iport.get p == 0#32 &&
  r.ready pwrValidBit && r.pwr != 0#32 &&
  r.ready (vportValidBit p)

/-- IMPUTED[p] (R192). -/
def imputed (r : Results) (p : Port) : Bool := imputable r p && r.vport.get p != 0#32

/-- DIV0[p]: the guarded division (R192, 60_exceptions.md R226). -/
def div0 (r : Results) (p : Port) : Bool := imputable r p && r.vport.get p == 0#32

/-- The port's current after the imputation: all of PWR over the port's own voltage, mW * 1000 / mV (R192). -/
def imputedCurrent (r : Results) (p : Port) : Word :=
  if imputed r p then sat32 (r.pwr.toNat * 1000 / (r.vport.get p).toNat) else r.iport.get p

/-- `impute()` and `H[IMP] <- {DIV0, IMPUTED}` (R192, R193). -/
def imputeAll (r : Results) : Results :=
  { r with iport := Ports.ofFn (imputedCurrent r), imp := impWord (imputed r) (div0 r) }

/-- DERV over the configuration record (R191). -/
def derv (c : Config) (s : State) : State := (s.setRes (deriveAll c s.regs.res)).done

/-- DERV (R191). -/
def execDerv (s : State) : Host.Outcome State Fault Refusal := .next (derv Config.block s)

/-- IMPUTE (R193). -/
def execImpute (s : State) : Host.Outcome State Fault Refusal := .next (s.setRes (imputeAll s.regs.res)).done

/-! ## POLL -/

/-- The composites in the order POLL reads them (R194). -/
def pollQuantities : List Quantity :=
  [.vbat, .ocv, .ibat, .pwr, .iport .out1, .iport .out2, .iport .typec, .iport .vin]

/-- The status bytes in the order POLL reads them (R194). -/
def pollKinds : List StatusKind := [.sys, .chg, .ntc, .boost, .mos]

/-- The 21 device addresses of a POLL, in order: each composite's low byte before its high byte (R194, R71). -/
def pollAddrs (c : Config) : List Byte :=
  pollQuantities.flatMap (fun q => [c.regLo q, c.regHi q]) ++ pollKinds.map c.regStatus

/-- How a sequence of device reads ends: with every byte, or at the first NACK. -/
inductive PollEnd where
  | ok (bytes : List Byte) (s : State)
  | nack (e : Err) (s : State)
deriving DecidableEq, Repr

/-- The device reads of the addresses, in order; no read after the first failing one is issued (R195, R196). -/
def readAll : List Byte → State → PollEnd
  | [], s => .ok [] s
  | a :: as, s =>
    match devRead a s with
    | .nack e t => .nack e t
    | .ok t =>
      match readAll as t with
      | .nack e u => .nack e u
      | .ok bs u => .ok (t.regs.rxdata :: bs) u

/-- The raw composite k of the bytes read. -/
def rawAt (bytes : List Byte) (k : Nat) : Raw16 := combine16 (bytes.getD (2 * k) 0#8) (bytes.getD (2 * k + 1) 0#8)

/-- The status byte k of the bytes read. -/
def statusAt (bytes : List Byte) (k : Nat) : Byte := bytes.getD (16 + k) 0#8

/-- The decodes of a POLL, before the port voltages (R194). -/
def pollDecode (c : Config) (bytes : List Byte) (r : Results) : Results :=
  (((((((((((((r.putVolt .vbat (dv c .vbat (rawAt bytes 0))).putVolt .ocv (dv c .ocv (rawAt bytes 1))).putCurr
    .ibat (di c .ibat (rawAt bytes 2))).putPower (dp c (rawAt bytes 3))).putCurr
    (.port .out1) (di c (.port .out1) (rawAt bytes 4))).putCurr
    (.port .out2) (di c (.port .out2) (rawAt bytes 5))).putCurr
    (.port .typec) (di c (.port .typec) (rawAt bytes 6))).putCurr
    (.port .vin) (di c (.port .vin) (rawAt bytes 7))).putStatus
    .sys (ds c .sys (statusAt bytes 0))).putStatus
    .chg (ds c .chg (statusAt bytes 1))).putStatus
    .ntc (ds c .ntc (statusAt bytes 2))).putStatus
    .boost (ds c .boost (statusAt bytes 3))).putStatus
    .mos (ds c .mos (statusAt bytes 4)))

/-- The results of a POLL: the decodes, then the port voltages, then the imputation (R194, R195). -/
def pollResults (c : Config) (bytes : List Byte) (r : Results) : Results :=
  imputeAll (deriveAll c (pollDecode c bytes r))

/-- POLL's abort (R196): RREG's abort, and every result becomes 0 and not ready. -/
def pollAbort (e : Err) (s : State) : State :=
  (((stopBody s).setRx 0xFF#8).setRes Results.zero).raise e

/-- POLL's sequence from IDLE (R194). -/
def pollBody (c : Config) (s : State) : State :=
  match readAll (pollAddrs c) s with
  | .ok bytes t => (t.setRes (pollResults c bytes t.regs.res)).done
  | .nack e t => pollAbort e t

/-- POLL (R194). -/
def execPoll (s : State) : Host.Outcome State Fault Refusal := .next (transact (pollBody Config.block) s)

end Sys2Proof.Machine
end

