-- ==== Sys2Proof/Machine/Dispatch.lean ====
section
/-! DEFINITION. One arm per command: what an accepted command does, from its acceptance to its commit. -/

namespace Sys2Proof.Machine

def exec (i : Instr) (s : State) : Host.Outcome State Fault Refusal :=
  match i with
  | .nop => Sys2Proof.Machine.execNop s
  | .start => Sys2Proof.Machine.execStart s
  | .stop => Sys2Proof.Machine.execStop s
  | .send b => Sys2Proof.Machine.execSend b s
  | .wack => Sys2Proof.Machine.execWack s
  | .recv => Sys2Proof.Machine.execRecv s
  | .nack => Sys2Proof.Machine.execNack s
  | .wreg a v => Sys2Proof.Machine.execWreg a v s
  | .rreg a => Sys2Proof.Machine.execRreg a s
  | .decvVbat r => Sys2Proof.Machine.execDecvVbat r s
  | .decvOcv r => Sys2Proof.Machine.execDecvOcv r s
  | .deciIbat r => Sys2Proof.Machine.execDeciIbat r s
  | .deciOut1 r => Sys2Proof.Machine.execDeciOut1 r s
  | .deciOut2 r => Sys2Proof.Machine.execDeciOut2 r s
  | .deciTypec r => Sys2Proof.Machine.execDeciTypec r s
  | .deciVin r => Sys2Proof.Machine.execDeciVin r s
  | .decp r => Sys2Proof.Machine.execDecp r s
  | .decsSys b => Sys2Proof.Machine.execDecsSys b s
  | .decsChg b => Sys2Proof.Machine.execDecsChg b s
  | .decsNtc b => Sys2Proof.Machine.execDecsNtc b s
  | .decsBoost b => Sys2Proof.Machine.execDecsBoost b s
  | .decsMos b => Sys2Proof.Machine.execDecsMos b s
  | .derv => Sys2Proof.Machine.execDerv s
  | .impute => Sys2Proof.Machine.execImpute s
  | .poll => Sys2Proof.Machine.execPoll s
  | .setdly d => Sys2Proof.Machine.execSetdly d s
  | .setaddr a => Sys2Proof.Machine.execSetaddr a s
  | .setpoll n => Sys2Proof.Machine.execSetpoll n s

end Sys2Proof.Machine
end

