-- ==== Sys2Proof/Machine/Configured.lean ====
section
/-! DEFINITION. The block over its configuration record (00_scope.md R7: a model takes it as an argument). `exec` is
`execOf Config.block`. -/

namespace Sys2Proof.Machine

/-- What an accepted command does on the block with the record c. Only the decode commands, DERV and POLL read the
record. -/
def execOf (c : Config) (i : Instr) (s : State) : Host.Outcome State Fault Refusal :=
  match i with
  | .nop => execNop s
  | .start => execStart s
  | .stop => execStop s
  | .send b => execSend b s
  | .wack => execWack s
  | .recv => execRecv s
  | .nack => execNack s
  | .wreg a v => execWreg a v s
  | .rreg a => execRreg a s
  | .decvVbat r => .next (decv c .vbat r s)
  | .decvOcv r => .next (decv c .ocv r s)
  | .deciIbat r => .next (deci c .ibat r s)
  | .deciOut1 r => .next (deci c (.port .out1) r s)
  | .deciOut2 r => .next (deci c (.port .out2) r s)
  | .deciTypec r => .next (deci c (.port .typec) r s)
  | .deciVin r => .next (deci c (.port .vin) r s)
  | .decp r => .next (decp c r s)
  | .decsSys b => .next (decs c .sys b s)
  | .decsChg b => .next (decs c .chg b s)
  | .decsNtc b => .next (decs c .ntc b s)
  | .decsBoost b => .next (decs c .boost b s)
  | .decsMos b => .next (decs c .mos b s)
  | .derv => .next (derv c s)
  | .impute => execImpute s
  | .poll => .next (transact (pollBody c) s)
  | .setdly d => execSetdly d s
  | .setaddr a => execSetaddr a s
  | .setpoll n => execSetpoll n s

/-- What a configuration record decides of a block: the meanings of the commands and the registers' reset values. -/
structure Block where
  meaning : Instr → State → Host.Outcome State Fault Refusal
  resetRegs : Regs

/-- The block with the record c. -/
def Block.of (c : Config) : Block := { meaning := execOf c, resetRegs := Regs.resetOf c }

/-- The block with the defaults of R7. -/
def Block.default : Block := { meaning := exec, resetRegs := Regs.reset }

end Sys2Proof.Machine
end

