-- ==== Sys2Proof/Machine/Sequencer.lean ====
section
/-! DEFINITION. The command sequencer: acceptance and decoding (30_encoding.md R90, R96), the command in progress one
clock edge at a time (10_state.md R49, 20_memory.md R75), words written while busy (60_exceptions.md R222), host reads
and reset. All of it is over a `Block`: the meanings and the reset values that one configuration record gives. -/

namespace Sys2Proof.Machine

/-- A word is accepted and runs to its commit: the command's meaning, or ILLEGAL and nothing else (R90, R96, R223). -/
def runWord (k : Block) (w : Word) (s : State) : Host.Outcome State Fault Refusal :=
  match decode w with
  | .legal i => k.meaning i s.accept
  | .illegal _ => .next (s.accept.raise .illegal)

/-- The command in progress right after a word is accepted from `s`, when its run ends in `t`: the events it will
produce and the registers it will commit. -/
def inFlightOf (w : Word) (s t : State) : InFlight :=
  { word := w, todo := t.trace, waited := 0, settle := Config.latency s.bus.free, shadow := t.regs }

/-- A word is accepted and its command begins: BUSY rises, and nothing else shows yet (R25, R75). -/
def beginWord (k : Block) (w : Word) (s : State) : Host.Outcome State Fault Refusal :=
  match runWord k w s with
  | .next t => .next { s.accept with inFlight := some (inFlightOf w s t) }
  | .fault r => .fault r
  | .refused r => .refused r

/-- The commit: the registers take their new values and BUSY falls, in one step (R75). OVR is not the command's. -/
def State.commit (s : State) (f : InFlight) : State := { s with regs := f.shadow, inFlight := none }

/-- One clock edge of the command in progress: a wait counts, any other event happens, and after the last event the
command settles and commits (Log 12). -/
def advance (f : InFlight) (s : State) : State :=
  match f.todo with
  | [] => if f.settle = 0 then s.commit f else { s with inFlight := some { f with settle := f.settle - 1 } }
  | .w n :: es =>
    if f.waited + 1 < n then { s with inFlight := some { f with waited := f.waited + 1 } }
    else { s.play (.w n) with inFlight := some { f with todo := es, waited := 0 } }
  | .scl v :: es => { s.play (.scl v) with inFlight := some { f with todo := es } }
  | .sda v :: es => { s.play (.sda v) with inFlight := some { f with todo := es } }
  | .s b :: es => { s.play (.s b) with inFlight := some { f with todo := es } }

/-- A clock edge with a command in progress, and what the host does on it: a word written now is lost and sets OVR
(R222), a read sees the registers as they were (R75), `rst` abandons the command (R250). -/
def busyEdge (k : Block) (f : InFlight) (a : HostAct) (s : State) : State :=
  match a with
  | .idle => advance f s
  | .issue _ => advance f { s with ovr := true }
  | .strobe _ => advance f { s with ovr := true }
  | .read i level => advance f (s.readOut level i)
  | .reset _ => s.applyReset k.resetRegs

/-- A clock edge with no command in progress, and what the host does on it. -/
def freeEdge (k : Block) (a : HostAct) (s : State) : Host.Outcome State Fault Refusal :=
  match a with
  | .idle => .next s
  | .issue w => runWord k w s
  | .strobe w => beginWord k w s
  | .read i level => .next (s.readOut level i)
  | .reset _ => .next (s.applyReset k.resetRegs)

/-- What the host does on this edge (nothing, when its schedule has ended). -/
def State.hostNow (s : State) : HostAct := s.host.headD .idle

/-- The state with this edge's entry of the host's schedule taken. -/
def State.hostTaken (s : State) : State := { s with host := s.host.tail }

/-- One step of the machine: one clock edge, or one whole command when the host waits for it (Log 4). -/
def edge (k : Block) (s : State) : Host.Outcome State Fault Refusal :=
  match s.inFlight with
  | some f => .next (busyEdge k f s.hostNow s.hostTaken)
  | none => freeEdge k s.hostNow s.hostTaken

/-- The state in which the host issues this word at the very next edge, the command port being free (Log 9). -/
def State.issuing (s : State) (w : Word) : State := { s with host := .issue w :: s.host, inFlight := none }

end Sys2Proof.Machine
end

