-- ==== Sys2Proof/Machine/Step.lean ====
section
/-! DEFINITION. The step, with the defaults of 00_scope.md R7 and over any configuration record. -/

namespace Sys2Proof.Machine

def step (s : State) : Host.Outcome State Fault Refusal := edge Block.default s

/-- The step of the block with the configuration record c (R7). -/
def stepOf (c : Config) (s : State) : Host.Outcome State Fault Refusal := edge (Block.of c) s

/-- The state with the command word put where the next step takes it from: the host's schedule. -/
def State.withFetchWord (s : State) (nbits w : Nat) : State := s.issuing (BitVec.ofNat 32 (w % 2 ^ nbits))

end Sys2Proof.Machine
end

