-- ==== Sys2Proof/Machine/Assembler.lean ====
section
/-! DEFINITION. The assembly syntax of 30_encoding.md R99 and the pseudo-commands of R100. The block does not see it:
it is the notation of the test programs. The points R99 and R100 leave open (blanks, case, how CFG_SADDR is stated) are
Log 17. -/

namespace Sys2Proof.Machine

/-- What a mnemonic takes and what it assembles. -/
inductive AsmForm where
  | plain (code : List Instr)
  | byte (code : Byte → List Instr)
  | twoBytes (code : Byte → Byte → List Instr)
  | word (code : Raw16 → List Instr)
  | addr7 (code : Byte → List Instr)
  | namedWord (names : List (String × (Raw16 → Instr)))
  | namedByte (names : List (String × (Byte → Instr)))

/-- The mnemonics of R99 and R100; `sa` is the CFG_SADDR value the program states (R100). -/
def asmTable (sa : SlaveAddr) : List (String × AsmForm) :=
  [("NOP", .plain [.nop]), ("START", .plain [.start]), ("STOP", .plain [.stop]), ("WACK", .plain [.wack]),
   ("RECV", .plain [.recv]), ("NACK", .plain [.nack]), ("DERV", .plain [.derv]), ("IMPUTE", .plain [.impute]),
   ("POLL", .plain [.poll])] ++
  [("SEND", .byte fun b => [.send b]), ("WREG", .twoBytes fun a v => [.wreg a v]), ("RREG", .byte fun a => [.rreg a]),
   ("DECV", .namedWord [("VBAT", .decvVbat), ("OCV", .decvOcv)]),
   ("DECI", .namedWord [("IBAT", .deciIbat), ("OUT1", .deciOut1), ("OUT2", .deciOut2), ("TYPEC", .deciTypec),
     ("VIN", .deciVin)]),
   ("DECP", .word fun r => [.decp r]),
   ("DECS", .namedByte [("SYS", .decsSys), ("CHG", .decsChg), ("NTC", .decsNtc), ("BOOST", .decsBoost),
     ("MOS", .decsMos)])] ++
  [("SETDLY", .word fun d => [.setdly d]), ("SETADDR", .addr7 fun a => [.setaddr a]),
   ("SETPOLL", .byte fun n => [.setpoll n])] ++
  [("WBYTE", .byte fun b => Pseudo.expand sa (.wbyte b)), ("RBYTE_LAST", .plain (Pseudo.expand sa .rbyteLast)),
   ("WADDR", .plain (Pseudo.expand sa .waddr)), ("RADDR", .plain (Pseudo.expand sa .raddr))]

def isBlank (c : Char) : Bool := c == ' ' || c == '\t'

/-- The characters without the blanks at either end. -/
def trimmed (l : List Char) : List Char := ((l.dropWhile isBlank).reverse.dropWhile isBlank).reverse

/-- The pieces between a separator. -/
def pieces (sep : Char) : List Char → List (List Char)
  | [] => [[]]
  | c :: cs =>
    if c == sep then [] :: pieces sep cs
    else
      match pieces sep cs with
      | [] => [[c]]
      | p :: ps => (c :: p) :: ps

/-- A digit's value in a base up to 16. -/
def digit (base : Nat) (c : Char) : Option Nat :=
  let n := c.toNat
  let v := if 48 ≤ n ∧ n ≤ 57 then n - 48
    else if 97 ≤ n ∧ n ≤ 102 then n - 87
    else if 65 ≤ n ∧ n ≤ 70 then n - 55
    else 16
  if v < base then some v else none

/-- The value of some digits, after those already read. -/
def digits (base : Nat) (acc : Nat) : List Char → Option Nat
  | [] => some acc
  | c :: cs => (digit base c).bind fun v => digits base (acc * base + v) cs

/-- A number: decimal, or hexadecimal with `0x` (R99). -/
def number : List Char → Option Nat
  | [] => none
  | '0' :: 'x' :: [] => none
  | '0' :: 'x' :: c :: cs => digits 16 0 (c :: cs)
  | c :: cs => digits 10 0 (c :: cs)

/-- A number that fits a field of n bits; one that does not is an assembly error (R99). -/
def field (n : Nat) (l : List Char) : Option (BitVec n) :=
  (number l).bind fun v => if v < 2 ^ n then some (BitVec.ofNat n v) else none

/-- The entry of a table under a name. -/
def named {α : Type} (l : List Char) : List (String × α) → Option α
  | [] => none
  | (s, x) :: rest => if l = s.toList then some x else named l rest

/-- The commands of a mnemonic's form and operands. -/
def assembleForm (f : AsmForm) (ops : List (List Char)) : Option (List Instr) :=
  match f, ops with
  | .plain code, [] => some code
  | .byte code, [a] => (field 8 a).map code
  | .twoBytes code, [a, b] => (field 8 a).bind fun x => (field 8 b).map (code x)
  | .word code, [a] => (field 16 a).map code
  | .addr7 code, [a] => (field 7 a).map fun x => code (x.zeroExtend 8)
  | .namedWord names, [n, a] => (named n names).bind fun g => (field 16 a).map fun x => [g x]
  | .namedByte names, [n, a] => (named n names).bind fun g => (field 8 a).map fun x => [g x]
  | _, _ => none

/-- One line (R99): a mnemonic, then operands separated by commas; `;` starts a comment; an empty line assembles
nothing. None is an assembly error. -/
def assembleLine (sa : SlaveAddr) (line : List Char) : Option (List Instr) :=
  let l := trimmed (line.takeWhile fun c => c != ';')
  if l = [] then some []
  else
    let rest := trimmed (l.dropWhile fun c => !isBlank c)
    (named (l.takeWhile fun c => !isBlank c) (asmTable sa)).bind fun f =>
      assembleForm f (if rest = [] then [] else (pieces ',' rest).map trimmed)

/-- The commands of several lines. -/
def assembleLines (sa : SlaveAddr) : List (List Char) → Option (List Instr)
  | [] => some []
  | l :: ls => (assembleLine sa l).bind fun is => (assembleLines sa ls).map fun js => is ++ js

/-- The command words of a program text. DESIGN CHOICE (Log 17): R100 does not say how a program states the CFG_SADDR
value that WADDR and RADDR use; it is `sa`, one argument for the whole text, and a SETADDR line does not change it. -/
def assemble (sa : SlaveAddr) (text : String) : Option (List Word) :=
  (assembleLines sa (pieces '\n' text.toList)).map fun is => is.map encode

end Sys2Proof.Machine
end

