-- ==== Sys2Proof/Machine/IdealDevice.lean ====
section
/-! DEFINITION. The ideal device of 20_memory.md R68, a reference environment: it watches the block's pins and says
which level it gives at each sample. It is no part of the block (R52); a claim about it speaks of the pin traces it
agrees with. -/

namespace Sys2Proof.Machine

/-- What the byte the device is taking in is. -/
inductive DevByte where
  | address | pointer | data
deriving DecidableEq, Repr

/-- The device's protocol state. -/
inductive DevMode where
  /-- Outside a transaction, or in one that is not for this device. -/
  | off
  /-- n bits of a byte taken in, as the low bits of `acc`. -/
  | taking (what : DevByte) (n : Nat) (acc : Byte)
  /-- In the ACK slot it answers; then a further byte is taken in. -/
  | ackThenTake (what : DevByte)
  /-- In the ACK slot it answers; then it sends the byte at `ptr`. -/
  | ackThenGive
  /-- In the ACK slot of an address that is not its own. -/
  | foreignSlot
  /-- It has given n bits of the byte at `ptr`. -/
  | giving (n : Nat)
  /-- In the ninth clock of the byte it gave: the master's slot. -/
  | masterSlot
deriving DecidableEq, Repr

/-- The device, and the pin levels it last saw. -/
structure Dev where
  /-- The slave address A7. -/
  addr : SlaveAddr
  /-- The register array M. -/
  mem : Vector Byte 256
  /-- The register pointer. -/
  ptr : Byte
  mode : DevMode
  scl : Bool
  sda : Bool
deriving DecidableEq, Repr

/-- M[a]. -/
def Dev.reg (d : Dev) (a : Byte) : Byte := d.mem[a.toNat]

/-- `M[ptr] <- v; ptr <- ptr + 1 mod 256`. -/
def Dev.store (d : Dev) (v : Byte) : Dev := { d with mem := d.mem.set d.ptr.toNat v, ptr := d.ptr + 1#8 }

/-- The level the device gives SDA: low in an ACK slot it answers, its data bit while it gives a byte, released
otherwise. -/
def Dev.level (d : Dev) : Bool :=
  match d.mode with
  | .ackThenTake _ => false
  | .ackThenGive => false
  | .giving n => (d.reg d.ptr).getLsbD (7 - n)
  | .off => true
  | .taking _ _ _ => true
  | .foreignSlot => true
  | .masterSlot => true

/-- The clock rises: a bit of a byte being taken in is read. -/
def Dev.rise (d : Dev) : Dev :=
  match d.mode with
  | .taking what n acc => { d with scl := true, mode := .taking what (n + 1) ((acc <<< 1) ||| (BitVec.ofBool d.sda).zeroExtend 8) }
  | .off | .ackThenTake _ | .ackThenGive | .foreignSlot | .giving _ | .masterSlot => { d with scl := true }

/-- A whole byte has been taken in. -/
def Dev.taken (d : Dev) (what : DevByte) (acc : Byte) : Dev :=
  match what with
  | .address =>
    if acc.extractLsb' 1 7 = d.addr then
      { d with mode := if acc.getLsbD 0 then .ackThenGive else .ackThenTake .pointer }
    else { d with mode := .foreignSlot }
  | .pointer => { d with ptr := acc, mode := .ackThenTake .data }
  | .data => { d.store acc with mode := .ackThenTake .data }

/-- The clock falls: a bit cell or an ACK slot ends. -/
def Dev.fall (d : Dev) : Dev :=
  match d.mode with
  | .taking what n acc => if n = 8 then ({ d with scl := false }).taken what acc else { d with scl := false }
  | .ackThenTake what => { d with scl := false, mode := .taking what 0 0#8 }
  | .ackThenGive => { d with scl := false, mode := .giving 0 }
  | .giving n => { d with scl := false, mode := if n = 7 then .masterSlot else .giving (n + 1) }
  | .off => { d with scl := false }
  | .foreignSlot => { d with scl := false, mode := .off }
  | .masterSlot => { d with scl := false, mode := .off }

/-- The data line changes: with the clock high it is a START or a STOP. -/
def Dev.dataTo (d : Dev) (v : Bool) : Dev :=
  if d.scl && d.sda && !v then { d with sda := v, mode := .taking .address 0 0#8 }
  else if d.scl && !d.sda && v then { d with sda := v, mode := .off }
  else { d with sda := v }

/-- The clock line is set. -/
def Dev.clockTo (d : Dev) (v : Bool) : Dev :=
  if !d.scl && v then d.rise else if d.scl && !v then d.fall else d

/-- One event of the block's trace: the device after it, or none when the sample is not the level this device
gives (the line is low while the block drives it low). -/
def Dev.watch (d : Dev) : Event → Option Dev
  | .scl v => some (d.clockTo v)
  | .sda v => some (d.dataTo v)
  | .w _ => some d
  | .s b => if b = (d.sda && d.level) then some d else none

/-- The device after a whole trace, or none when the trace is not one this device gives. -/
def Dev.watchAll : List Event → Dev → Option Dev
  | [], d => some d
  | e :: es, d => (d.watch e).bind (Dev.watchAll es)

/-- The device on an idle bus. -/
def Dev.idle (a : SlaveAddr) (m : Vector Byte 256) (p : Byte) : Dev :=
  { addr := a, mem := m, ptr := p, mode := .off, scl := true, sda := true }

end Sys2Proof.Machine
end

