-- ==== Sys2Proof/Safety.lean ====
section
/-! DEFINITION. What the claims call a good state: the pin invariants (40_i2c_engine.md R119), the result registers
(10_state.md R36, R42 to R47), the sample limit (R35), the wait bound (00_scope.md R11); and the host's timing duties
(70_reset_and_hazards.md R266, R269). -/

namespace Sys2Proof.Machine

/-- The bus after some events. -/
def Bus.playAll (b : Bus) : List Event → Bus
  | [] => b
  | e :: es => (b.play e).playAll es

/-- The pins a phase leaves at a command boundary: both released in IDLE, the clock low otherwise (R119, R31). -/
def pinsFit (p : Phase) (b : Bus) : Prop :=
  match p with
  | .idle => b.scl = true ∧ b.sda = true
  | .started | .sent | .rcvd | .acked | .nacked => b.scl = false

/-- The pins fit the phase: at a command boundary now (R119), and in the middle of a command once its remaining events
have happened. -/
def State.PinsFit (s : State) : Prop :=
  match s.inFlight with
  | none => pinsFit s.regs.phase s.bus
  | some f => pinsFit f.shadow.phase (s.bus.playAll f.todo)

/-- A result whose VALID bit is 0 holds 0 (R36). -/
structure Results.NotReadyZero (r : Results) : Prop where
  volt : ∀ ch : VChan, r.ready ch.validBit = false → r.volt ch = 0#32
  curr : ∀ ch : IChan, r.ready ch.validBit = false → r.curr ch = 0#32
  power : r.ready pwrValidBit = false → r.pwr = 0#32
  vport : ∀ p : Port, r.ready (vportValidBit p) = false → r.vport.get p = 0#32
  status : ∀ k : StatusKind, r.ready k.validBit = false → r.status k = 0#32

/-- The bits no field names read 0 (R23, R36, R42 to R47). -/
structure Results.ReservedZero (r : Results) : Prop where
  valid : r.valid &&& 0xFFFE0000#32 = 0#32
  sys : r.sys &&& 0xFFFFFFE8#32 = 0#32
  chg : r.chg &&& 0xFFFF00F8#32 = 0#32
  ntc : r.ntc &&& 0xFFFFFF8E#32 = 0#32
  boost : r.boost &&& 0xFFFFFFF0#32 = 0#32
  mos : r.mos &&& 0xFFFFFFF0#32 = 0#32
  imp : r.imp &&& 0xFFFFFF00#32 = 0#32

/-- A register file the commands can leave: the sample limit is legal (R35) and the results are as R36 and R42 to R47
say. -/
structure Regs.Legal (r : Regs) : Prop where
  ackpoll : r.cfgAckpoll ≠ 0#8
  notReady : r.res.NotReadyZero
  reserved : r.res.ReservedZero

/-- The committed registers are legal, and so is the shadow copy of a command in progress. -/
def State.RegsLegal (s : State) : Prop :=
  s.regs.Legal ∧
    match s.inFlight with
    | none => True
    | some f => f.shadow.Legal

/-- Every wait of some events lasts at least n cycles (R11, R268). -/
def waitsAtLeast (n : Nat) (es : List Event) : Prop :=
  ∀ e ∈ es, match e with
    | .w k => n ≤ k
    | .scl _ | .sda _ | .s _ => True

/-- The waits of the last accepted command last at least tD, those past and those still to come (R11, R33, R268). -/
def State.WaitsLongEnough (s : State) : Prop :=
  match s.inFlight with
  | none => waitsAtLeast (waitFloor s.regs.cfgDelay) s.bus.past
  | some f =>
    waitsAtLeast (waitFloor s.regs.cfgDelay) s.bus.past ∧ waitsAtLeast (waitFloor s.regs.cfgDelay) f.todo ∧
      waitsAtLeast (waitFloor f.shadow.cfgDelay) s.bus.past ∧ waitsAtLeast (waitFloor f.shadow.cfgDelay) f.todo

/-- How many waits some events hold (70_reset_and_hazards.md R264). -/
def countWaits (es : List Event) : Nat :=
  es.countP fun e => match e with
    | .w _ => true
    | .scl _ | .sda _ | .s _ => false

/-- How many samples some events hold (R264). -/
def countSamples (es : List Event) : Nat :=
  es.countP fun e => match e with
    | .s _ => true
    | .scl _ | .sda _ | .w _ => false

/-- How many `SetSCL` and `SetSDA` events some events hold (R264). -/
def countPins (es : List Event) : Nat :=
  es.countP fun e => match e with
    | .scl _ | .sda _ => true
    | .w _ | .s _ => false

/-- The cycles the waits of some events last. -/
def waitCycles : List Event → Nat
  | [] => 0
  | .w n :: es => n + waitCycles es
  | .scl _ :: es => waitCycles es
  | .sda _ :: es => waitCycles es
  | .s _ :: es => waitCycles es

/-! The traces of 95_test_vectors.md section 0, without the lengths of the waits. -/

/-- `ST`. -/
def traceStart : List Event := [.sda true, .w 0, .scl true, .w 0, .sda false, .w 0, .scl false]
/-- `SP`. -/
def traceStop : List Event := [.sda false, .w 0, .scl true, .w 0, .sda true, .w 0]
/-- `C(v)`. -/
def traceCell (v : Bool) : List Event := [.sda v, .w 0, .scl true, .w 0, .scl false]
/-- `A(b)`, and `Rd(b)`: the same events. -/
def traceSlot (b : Bool) : List Event := [.sda true, .w 0, .scl true, .w 0, .s b, .scl false]
/-- `B(x)`. -/
def traceByte (x : Byte) : List Event := (wireBits x).flatMap traceCell
/-- The eight read cells of a byte. -/
def traceRead (x : Byte) : List Event := (wireBits x).flatMap traceSlot

/-- The events of an ACK slot that took k samples of 1 and then a last one (R115). -/
def traceAck (k : Nat) (last : Bool) : List Event :=
  [.sda true, .w 0, .scl true, .w 0] ++ (List.replicate k [Event.s true, .w 0]).flatten ++ [.s last, .scl false]

/-- These are the events of an ACK slot with CFG_ACKPOLL = n that ends with the sample `last`: at most n samples (one
at least), and a 1 only when all of them are taken (R115). -/
def SlotOf (n : Byte) (last : Bool) (es : List Event) : Prop :=
  ∃ k, k + 1 ≤ max 1 n.toNat ∧ (last = true → k + 1 = max 1 n.toNat) ∧ es = traceAck k last

/-- These are the events of a device read of address a in which every slot ACKs and the byte b comes in (R141). -/
def ReadOf (r : Regs) (a b : Byte) (es : List Event) : Prop :=
  ∃ e1 e2 e3, SlotOf r.cfgAckpoll false e1 ∧ SlotOf r.cfgAckpoll false e2 ∧ SlotOf r.cfgAckpoll false e3 ∧
    es = traceStart ++ traceByte (addrByte r.cfgSaddr false) ++ e1 ++ traceByte a ++ e2 ++
      traceStart ++ traceByte (addrByte r.cfgSaddr true) ++ e3 ++ traceRead b ++ traceCell true ++ traceStop

/-- These are the events of a device read of address a that ends, its STOP included, at the slot whose NACK has the
code e (R141, R143). -/
def FailedReadOf (r : Regs) (a : Byte) (e : Err) (es : List Event) : Prop :=
  (e = .nackWaddr ∧ ∃ e1, SlotOf r.cfgAckpoll true e1 ∧
    es = traceStart ++ traceByte (addrByte r.cfgSaddr false) ++ e1 ++ traceStop) ∨
  (e = .nackReg ∧ ∃ e1 e2, SlotOf r.cfgAckpoll false e1 ∧ SlotOf r.cfgAckpoll true e2 ∧
    es = traceStart ++ traceByte (addrByte r.cfgSaddr false) ++ e1 ++ traceByte a ++ e2 ++ traceStop) ∨
  (e = .nackRaddr ∧ ∃ e1 e2 e3, SlotOf r.cfgAckpoll false e1 ∧ SlotOf r.cfgAckpoll false e2 ∧
    SlotOf r.cfgAckpoll true e3 ∧
    es = traceStart ++ traceByte (addrByte r.cfgSaddr false) ++ e1 ++ traceByte a ++ e2 ++
      traceStart ++ traceByte (addrByte r.cfgSaddr true) ++ e3 ++ traceStop)

/-- DIR after a device read that failed with this code: 1 once the read-form address has been sent. -/
def failedDir : Err → Bool
  | .nackRaddr => true
  | .none | .illegal | .seq | .nackWaddr | .nackReg | .nackData => false

/-- A command writes nothing outside the registers and the bus: OVR, the hidden state, the host's schedule and
`rd_data` stay. -/
def State.OutsideSame (s t : State) : Prop :=
  t.ovr = s.ovr ∧ t.inFlight = s.inFlight ∧ t.host = s.host ∧ t.rdData = s.rdData

/-- Both lines are released. -/
def Bus.Released (b : Bus) : Prop := b.scl = true ∧ b.sda = true

/-- The data line moves while the clock is high nowhere in some events, from these pin levels: no START or STOP
condition (R119). -/
def dataStill (scl sda : Bool) : List Event → Bool
  | [] => true
  | .scl v :: es => dataStill v sda es
  | .sda v :: es => (!scl || v == sda) && dataStill scl v es
  | .w _ :: es => dataStill scl sda es
  | .s _ :: es => dataStill scl sda es

/-- Between any two clock events there is a wait (R119): `seen` says whether a wait has passed since the last. -/
def clockPhasesWaited (seen : Bool) : List Event → Bool
  | [] => true
  | .scl _ :: es => seen && clockPhasesWaited false es
  | .w _ :: es => clockPhasesWaited true es
  | .sda _ :: es => clockPhasesWaited seen es
  | .s _ :: es => clockPhasesWaited seen es

/-! The host's timing duties. -/

/-- The SCL frequency in Hz when every wait lasts exactly tD: `F_CLK / (2 × tD)` (R266). -/
def sclHz (c : Config) (d : BitVec 16) : ℚ := (c.fClk : ℚ) / (2 * (waitFloor d : ℚ))

/-- tD ≥ 4.7 µs × F_CLK: standard-mode I2C minimums (R269). -/
def meetsStandardMode (c : Config) (d : BitVec 16) : Prop := 47 * c.fClk ≤ 10000000 * waitFloor d

/-- tD ≥ 1.3 µs × F_CLK: fast-mode minimums (R269). -/
def meetsFastMode (c : Config) (d : BitVec 16) : Prop := 13 * c.fClk ≤ 10000000 * waitFloor d

/-- n steps of the machine. -/
def stepN : Nat → State → Host.Outcome State Fault Refusal
  | 0, s => .next s
  | n + 1, s =>
    match step s with
    | .next t => stepN n t
    | .fault r => .fault r
    | .refused r => .refused r

end Sys2Proof.Machine
end

