-- ==== Sys2Proof/Certificates/Slice0/Obligations.lean ====
section
/-! DEFINITION. The statements for the provers. Each says in its docstring which rule of spec/ it formalises. "The
shape" of a state is its pin trace without the lengths of the waits (00_scope.md R12). -/

open Sys2Proof Sys2Proof.Machine

/-! ## Encoding -/

/-- R94, R95: every legal word lies in exactly one row of the opcode table, the row of its command, and no other word
lies in any; no two rows of the table share a word. -/
def Obligations.LegalWordsLieInExactlyOneRow : Prop :=
  (∀ w i, decode w = .legal i → i.row ∈ opRows ∧ ∀ r ∈ opRows, (r.covers w = true ↔ r = i.row)) ∧
  (∀ w why, decode w = .illegal why → ∀ r ∈ opRows, r.covers w = false)

/-- Every well-formed command's word decodes to the command (from R91, R92, R95). -/
def Obligations.DecodeOfEncodeIsTheCommand : Prop :=
  ∀ i : Instr, i.wellFormed = true → decode (encode i) = .legal i

/-- A word that decodes to a command is that command's word, and the command is well formed: no bit of a legal word is
ignored (R94). -/
def Obligations.EncodeOfDecodeIsTheWord : Prop :=
  ∀ w i, decode w = .legal i → encode i = w ∧ i.wellFormed = true

/-- R96: a word is illegal exactly when OPC is not in R95, RSV ≠ 0, SEL is outside R93, or an unused field is not 0. -/
def Obligations.WordIsIllegalExactlyAsListed : Prop :=
  ∀ w : Word, (∃ why, decode w = .illegal why) ↔
    (w.opc.toNat ∉ [0x00, 0x01, 0x02, 0x03, 0x04, 0x05, 0x06, 0x10, 0x11, 0x20, 0x21, 0x22, 0x23,
      0x30, 0x31, 0x32, 0x40, 0x41, 0x42]) ∨
    w.rsv ≠ 0#4 ∨
    (if w.opc = 0x20#8 then 1 < w.sel.toNat
      else if w.opc = 0x21#8 ∨ w.opc = 0x23#8 then 4 < w.sel.toNat else w.sel ≠ 0#4) ∨
    (w.opc.toNat ∈ [0x00, 0x01, 0x02, 0x03, 0x04, 0x05, 0x06, 0x23, 0x30, 0x31, 0x32, 0x41, 0x42] ∧ w.b1 ≠ 0#8) ∨
    (w.opc.toNat ∈ [0x00, 0x01, 0x02, 0x04, 0x05, 0x06, 0x11, 0x30, 0x31, 0x32] ∧ w.b0 ≠ 0#8) ∨
    (w.opc = 0x41#8 ∧ w.b0.getLsbD 7 = true)

/-- R97: the reserved opcodes are illegal. -/
def Obligations.ReservedOpcodesAreIllegal : Prop :=
  ∀ w : Word, ((0x07 ≤ w.opc.toNat ∧ w.opc.toNat ≤ 0x0F) ∨ (0x12 ≤ w.opc.toNat ∧ w.opc.toNat ≤ 0x1F) ∨
    (0x24 ≤ w.opc.toNat ∧ w.opc.toNat ≤ 0x2F) ∨ (0x33 ≤ w.opc.toNat ∧ w.opc.toNat ≤ 0x3F) ∨
    (0x43 ≤ w.opc.toNat ∧ w.opc.toNat ≤ 0xFF)) → ∃ why, decode w = .illegal why

/-- The words of R101 decode to the commands it gives, and assemble from the lines it gives. -/
def Obligations.ExampleWordsDecodeAsGiven : Prop :=
  decode 0x030000A5#32 = .legal (.send 0xA5#8) ∧ decode 0x1000213C#32 = .legal (.wreg 0x21#8 0x3C#8) ∧
  decode 0x11001000#32 = .legal (.rreg 0x10#8) ∧ decode 0x20001000#32 = .legal (.decvVbat 0x1000#16) ∧
  decode 0x21038000#32 = .legal (.deciTypec 0x8000#16) ∧ decode 0x23000011#32 = .legal (.decsSys 0x11#8) ∧
  decode 0x400001F4#32 = .legal (.setdly 500#16) ∧ decode 0x41000075#32 = .legal (.setaddr 0x75#8) ∧
  assembleLine 0x75#7 "SEND 0xA5".toList = some [.send 0xA5#8] ∧
  assembleLine 0x75#7 "WREG 0x21, 0x3C".toList = some [.wreg 0x21#8 0x3C#8] ∧
  assembleLine 0x75#7 "RREG 0x10".toList = some [.rreg 0x10#8] ∧
  assembleLine 0x75#7 "DECV VBAT, 0x1000".toList = some [.decvVbat 0x1000#16] ∧
  assembleLine 0x75#7 "DECI TYPEC, 0x8000".toList = some [.deciTypec 0x8000#16] ∧
  assembleLine 0x75#7 "DECS SYS, 0x11".toList = some [.decsSys 0x11#8] ∧
  assembleLine 0x75#7 "SETDLY 500".toList = some [.setdly 500#16] ∧
  assembleLine 0x75#7 "SETADDR 0x75".toList = some [.setaddr 0x75#8]

/-! ## The command port and the step -/

/-- The step runs the decoded command: when no command is in progress and the host issues a word that decodes to i,
the step is i's meaning on the accepted state (R90): OVR cleared, a new trace begun, the schedule's entry taken. -/
def Obligations.StepRunsTheDecodedCommand : Prop :=
  ∀ (s : State) w rest i, s.inFlight = none → s.host = .issue w :: rest → decode w = .legal i →
    step s = exec i (State.accept { s with host := rest })

/-- R96, R223: an illegal word that the host writes while BUSY = 0, in any phase, completes with ERR = ILLEGAL and
writes no other register and causes no pin event. -/
def Obligations.IllegalWordOnlySetsErr : Prop :=
  ∀ (s : State) w rest why, s.inFlight = none → s.host = .issue w :: rest → decode w = .illegal why →
    ∃ t, step s = .next t ∧ t.regs = { s.regs with err := .illegal } ∧ t.ovr = false ∧ t.inFlight = none ∧
      t.trace = [] ∧ t.bus.scl = s.bus.scl ∧ t.bus.sda = s.bus.sda ∧ t.bus.slave = s.bus.slave ∧
      t.host = rest ∧ t.rdData = s.rdData

/-- R90, R25, R75: a word written on one edge while BUSY = 0 is accepted: it is latched, BUSY rises, OVR falls, and no
register and no pin has changed yet. -/
def Obligations.AcceptanceRaisesBusyAndClearsOvr : Prop :=
  ∀ (s : State) w rest, s.inFlight = none → s.host = .strobe w :: rest →
    ∃ t f, step s = .next t ∧ t.inFlight = some f ∧ f.word = w ∧ t.busy = true ∧ t.ovr = false ∧
      t.regs = s.regs ∧ t.trace = [] ∧ t.bus.scl = s.bus.scl ∧ t.bus.sda = s.bus.sda ∧ t.host = rest ∧
      t.rdData = s.rdData

/-- A word written while BUSY = 1 has no effect except OVR <- 1: the edge is otherwise the edge of a host that does
nothing (from R222). That OVR is set on the edge of the write itself, with BUSY still 1, is the model's reading (log
entry 5, DEDUCED: R222 and R28 against R30), and that the edge of the commit is such an edge is log entry 12. -/
def Obligations.BusyWordIsDiscardedWithOvr : Prop :=
  ∀ (s : State) f w rest, s.inFlight = some f → (s.host = .strobe w :: rest ∨ s.host = .issue w :: rest) →
    ∃ t, step { s with host := .idle :: rest } = .next t ∧ step s = .next { t with ovr := true }

/-- While a command is in progress the registers keep their values, and its results all appear in the step in which
BUSY falls, whatever words are written and registers read meanwhile (from R75). That a step is one edge is the model's
(log entry 12), and so is what a read on such an edge returns: the registers and pins from before the edge's event, the
old registers on the edge of the commit (log entry 22). An empty schedule is a host that does nothing. -/
def Obligations.ResultsAppearWhenBusyFalls : Prop :=
  ∀ (s : State) f, s.inFlight = some f → (∀ also, s.hostNow ≠ .reset also) →
    ∃ t, step s = .next t ∧
      ((t.inFlight = none ∧ t.busy = false ∧ t.regs = f.shadow) ∨
        (∃ g, t.inFlight = some g ∧ t.busy = true ∧ g.shadow = f.shadow ∧ g.word = f.word ∧ t.regs = s.regs)) ∧
      (∀ i level, s.hostNow = .read i level → t.rdData = s.hostRead level i)

/-- `rst` on any edge, in the middle of a command or not, with or without a word written on that edge, leaves every
register at its reset value, both lines released and no command in progress, and sets no OVR; a word on the next edge is
accepted (from R250, R251, R51). The values of CFG_DELAY and CFG_SADDR are the defaults of R7, which the model chose for
this machine (log entry 7), and that the host's schedule goes on is log entry 11. -/
def Obligations.ResetLeavesResetValues : Prop :=
  ∀ (s : State) also rest, s.host = .reset also :: rest →
    ∃ t, step s = .next t ∧ t.regs = Regs.reset ∧ t.ovr = false ∧ t.inFlight = none ∧ t.bus.Released ∧ t.host = rest ∧
      t.regs.phase = .idle ∧ t.regs.err = .none ∧ t.regs.rxdata = 0xFF#8 ∧ t.regs.cfgDelay = 0xFFFF#16 ∧
      t.regs.cfgSaddr = 0x75#7 ∧ t.regs.cfgAckpoll = 1#8 ∧ t.regs.ackf = false ∧ t.regs.dir = false ∧
      t.regs.res = Results.zero ∧ (∀ i : BitVec 6, 5 ≤ i.toNat → ∀ l, t.hostRead l i = 0#32) ∧
      (∀ w later, rest = .strobe w :: later → ∃ u f, step t = .next u ∧ u.inFlight = some f ∧ f.word = w)

/-- The event-by-event machine and the meanings agree: a command that runs edge by edge, with a host that does nothing
meanwhile, ends in exactly the state its meaning gives (R49, R75, R78). -/
def Obligations.EdgeByEdgeRunEndsInTheMeaning : Prop :=
  ∀ (s : State) (w : Word), s.inFlight = none →
    ∃ n t, step { s with host := [.issue w] } = .next t ∧ stepN n { s with host := [.strobe w] } = .next t

/-- A host read of an index returns that register (R23's map, in every state) and has no side effect: the edge is
otherwise the edge of a host that does nothing; reserved indices return 0 (from R76, R23). What a read on an edge of a
command in progress returns, the registers and pins from before the edge's event, is the model's (log entry 22), as is
that a read carries the level the slaves give SDA (log entry 14). STATUS, index 0, is StatusHoldsItsFields. -/
def Obligations.HostReadHasNoSideEffect : Prop :=
  (∀ (s : State) (i : BitVec 6) level rest, s.host = .read i level :: rest →
    (s.inFlight = none → step s = .next { s with host := rest, rdData := s.hostRead level i }) ∧
    (∀ f, s.inFlight = some f →
      ∃ t, step { s with host := .idle :: rest } = .next t ∧
        step s = .next { t with rdData := s.hostRead level i })) ∧
  ∀ (s : State) (level : Bool),
    let r := s.regs
    (∀ i : BitVec 6, 0x18 ≤ i.toNat → s.hostRead level i = 0#32) ∧
    (s.hostRead level 0x01#6).toNat = r.rxdata.toNat ∧ (s.hostRead level 0x02#6).toNat = r.cfgDelay.toNat ∧
    (s.hostRead level 0x03#6).toNat = r.cfgSaddr.toNat ∧ (s.hostRead level 0x04#6).toNat = r.cfgAckpoll.toNat ∧
    s.hostRead level 0x05#6 = r.res.valid ∧ s.hostRead level 0x06#6 = r.res.vbat ∧
    s.hostRead level 0x07#6 = r.res.ocv ∧ s.hostRead level 0x08#6 = r.res.ibat ∧ s.hostRead level 0x09#6 = r.res.pwr ∧
    (∀ (p : Port) (i : BitVec 6), i.toNat = 0x0A + p.idx → s.hostRead level i = r.res.vport.get p) ∧
    (∀ (p : Port) (i : BitVec 6), i.toNat = 0x0E + p.idx → s.hostRead level i = r.res.iport.get p) ∧
    s.hostRead level 0x12#6 = r.res.sys ∧ s.hostRead level 0x13#6 = r.res.chg ∧ s.hostRead level 0x14#6 = r.res.ntc ∧
    s.hostRead level 0x15#6 = r.res.boost ∧ s.hostRead level 0x16#6 = r.res.mos ∧ s.hostRead level 0x17#6 = r.res.imp

/-- R48: the reserved indices read 0 in every state, so no command writes them. -/
def Obligations.ReservedIndicesReadZero : Prop :=
  ∀ (s : State) (level : Bool) (i : BitVec 6), 0x18 ≤ i.toNat → s.hostRead level i = 0#32

/-- R24: STATUS holds its fields at their bits; every reserved bit reads 0, PHASE reads 0 to 5 and ERR 0 to 6. -/
def Obligations.StatusHoldsItsFields : Prop :=
  ∀ (s : State) (level : Bool),
    let w := s.hostRead level 0#6
    w.getLsbD 0 = s.inFlight.isSome ∧ w.getLsbD 1 = s.regs.ackf ∧ w.getLsbD 2 = s.regs.dir ∧ w.getLsbD 3 = s.ovr ∧
    w.extractLsb' 4 3 = s.regs.phase.code ∧ w.getLsbD 7 = false ∧ w.extractLsb' 8 4 = s.regs.err.code ∧
    w.extractLsb' 12 4 = 0#4 ∧ w.getLsbD 16 = s.bus.scl ∧ w.getLsbD 17 = s.bus.sda ∧
    w.getLsbD 18 = (s.bus.sda && level) ∧ w.extractLsb' 19 13 = 0#13 ∧
    (w.extractLsb' 4 3).toNat ≤ 5 ∧ (w.extractLsb' 8 4).toNat ≤ 6

/-! ## The engine -/

/-- R112: START from IDLE, ACKED or NACKED sends the START condition and goes to STARTED; from any other phase it is
SEQ and nothing else. -/
def Obligations.StartSendsTheCondition : Prop :=
  decode 0x01000000#32 = .legal .start ∧
   (∀ s : State,
      ((s.regs.phase = .idle ∨ s.regs.phase = .acked ∨ s.regs.phase = .nacked) →
        ∃ t, exec .start s = .next t ∧ t.regs = { s.regs with phase := .started, err := .none } ∧
          t.shape = s.shape ++ [.sda true, .w 0, .scl true, .w 0, .sda false, .w 0, .scl false] ∧
          t.bus.scl = false ∧ t.bus.sda = false ∧ t.bus.slave = s.bus.slave ∧ s.OutsideSame t) ∧
      ((s.regs.phase = .started ∨ s.regs.phase = .sent ∨ s.regs.phase = .rcvd) →
        exec .start s = .next (s.setErr .seq)))

/-- R113: STOP from ACKED or NACKED sends the STOP condition, releases both lines and goes to IDLE, DIR kept; from any
other phase it is SEQ and nothing else. -/
def Obligations.StopReleasesTheBus : Prop :=
  decode 0x02000000#32 = .legal .stop ∧
   (∀ s : State,
      ((s.regs.phase = .acked ∨ s.regs.phase = .nacked) →
        ∃ t, exec .stop s = .next t ∧ t.regs = { s.regs with phase := .idle, err := .none } ∧
          t.shape = s.shape ++ [.sda false, .w 0, .scl true, .w 0, .sda true, .w 0] ∧
          t.bus.Released ∧ t.bus.slave = s.bus.slave ∧ s.OutsideSame t) ∧
      ((s.regs.phase = .idle ∨ s.regs.phase = .started ∨ s.regs.phase = .sent ∨ s.regs.phase = .rcvd) →
        exec .stop s = .next (s.setErr .seq)))

/-- R114: SEND from STARTED, or from ACKED in a write, puts the byte's eight bits on the line, most significant first,
takes DIR from bit 0 when sent from STARTED, and goes to SENT; otherwise it is SEQ and nothing else. -/
def Obligations.SendPutsTheByteOnTheLine : Prop :=
  (∀ b : Byte, decode (0x03000000#32 ||| b.zeroExtend 32) = .legal (.send b)) ∧
   (∀ (b : Byte) (s : State),
      ((s.regs.phase = .started ∨ (s.regs.phase = .acked ∧ s.regs.dir = false)) →
        ∃ t, exec (.send b) s = .next t ∧
          t.regs = { s.regs with
            dir := if s.regs.phase = .started then b.getLsbD 0 else s.regs.dir
            phase := .sent
            err := .none } ∧
          t.shape = s.shape ++ traceCell (b.getLsbD 7) ++ traceCell (b.getLsbD 6) ++ traceCell (b.getLsbD 5) ++
            traceCell (b.getLsbD 4) ++ traceCell (b.getLsbD 3) ++ traceCell (b.getLsbD 2) ++ traceCell (b.getLsbD 1) ++
            traceCell (b.getLsbD 0) ∧
          t.bus.scl = false ∧ t.bus.sda = b.getLsbD 0 ∧ t.bus.slave = s.bus.slave ∧ s.OutsideSame t) ∧
      (¬ (s.regs.phase = .started ∨ (s.regs.phase = .acked ∧ s.regs.dir = false)) →
        exec (.send b) s = .next (s.setErr .seq)))

/-- R115: WACK from SENT takes one ACK slot: at most CFG_ACKPOLL samples (one at least), a further one only while the
line reads 1, the last sample to ACKF, and no error whatever it reads; from any other phase it is SEQ and nothing else. -/
def Obligations.WackTakesOneBoundedSlot : Prop :=
  decode 0x04000000#32 = .legal .wack ∧
   (∀ s : State,
      (s.regs.phase = .sent →
        ∃ t k last, exec .wack s = .next t ∧ k + 1 ≤ max 1 s.regs.cfgAckpoll.toNat ∧
          (last = true → k + 1 = max 1 s.regs.cfgAckpoll.toNat) ∧
          t.regs = { s.regs with ackf := last, phase := .acked, err := .none } ∧
          t.shape = s.shape ++ [.sda true, .w 0, .scl true, .w 0] ++
            (List.replicate k [Event.s true, .w 0]).flatten ++ [.s last, .scl false] ∧
          t.bus.scl = false ∧ t.bus.sda = true ∧ s.OutsideSame t) ∧
      (s.regs.phase ≠ .sent → exec .wack s = .next (s.setErr .seq)))

/-- R61, R115: the samples of WACK are the levels the slaves give: with k levels of 1 (fewer than CFG_ACKPOLL) before a
0 the slot reads ACK after k + 1 samples, and with CFG_ACKPOLL levels of 1 it reads NACK. -/
def Obligations.WackReportsWhatTheSlaveGives : Prop :=
  ∀ s : State, s.regs.phase = .sent →
    (∀ k rest, k < max 1 s.regs.cfgAckpoll.toNat → s.bus.slave = List.replicate k true ++ false :: rest →
      ∃ t, exec .wack s = .next t ∧ t.regs.ackf = false ∧ t.regs.err = .none ∧ t.bus.slave = rest) ∧
    (∀ rest, s.bus.slave = List.replicate (max 1 s.regs.cfgAckpoll.toNat) true ++ rest →
      ∃ t, exec .wack s = .next t ∧ t.regs.ackf = true ∧ t.regs.err = .none ∧ t.bus.slave = rest)

/-- R116: RECV from ACKED in a read clocks in eight bits, most significant first, and RXDATA is the byte they make;
every byte is possible, since the bits are the levels the slaves give; from any other phase, or in a write, it is SEQ
and nothing else. -/
def Obligations.RecvAssemblesTheByte : Prop :=
  decode 0x05000000#32 = .legal .recv ∧
   (∀ s : State,
      ((s.regs.phase = .acked ∧ s.regs.dir = true) →
        ∃ t b, exec .recv s = .next t ∧ t.regs = { s.regs with rxdata := b, phase := .rcvd, err := .none } ∧
          t.shape = s.shape ++ traceSlot (b.getLsbD 7) ++ traceSlot (b.getLsbD 6) ++ traceSlot (b.getLsbD 5) ++
            traceSlot (b.getLsbD 4) ++ traceSlot (b.getLsbD 3) ++ traceSlot (b.getLsbD 2) ++ traceSlot (b.getLsbD 1) ++
            traceSlot (b.getLsbD 0) ∧
          t.bus.scl = false ∧ t.bus.sda = true ∧ s.OutsideSame t ∧
          (∀ c rest, s.bus.slave = wireBits c ++ rest → b = c ∧ t.bus.slave = rest)) ∧
      (¬ (s.regs.phase = .acked ∧ s.regs.dir = true) → exec .recv s = .next (s.setErr .seq)))

/-- R117: NACK from RCVD releases the data line for one clock and goes to NACKED; from any other phase it is SEQ and
nothing else. -/
def Obligations.NackReleasesOneClock : Prop :=
  decode 0x06000000#32 = .legal .nack ∧
   (∀ s : State,
      (s.regs.phase = .rcvd →
        ∃ t, exec .nack s = .next t ∧ t.regs = { s.regs with phase := .nacked, err := .none } ∧
          t.shape = s.shape ++ [.sda true, .w 0, .scl true, .w 0, .scl false] ∧
          t.bus.scl = false ∧ t.bus.sda = true ∧ t.bus.slave = s.bus.slave ∧ s.OutsideSame t) ∧
      (s.regs.phase ≠ .rcvd → exec .nack s = .next (s.setErr .seq)))

/-- R119, third point: inside SEND, WACK, RECV and NACK the data line changes only while the clock is low, so they make
no START or STOP condition; last point: every clock phase they hold has a wait. -/
def Obligations.DataMovesOnlyWhileTheClockIsLow : Prop :=
  ∀ (i : Instr) (s t : State), (∃ b, i = .send b) ∨ i = .wack ∨ i = .recv ∨ i = .nack → s.bus.scl = false →
    exec i s.accept = .next t →
    dataStill false s.bus.sda t.trace = true ∧ clockPhasesWaited false t.trace = true

/-- R264: the waits, samples and pin events of START, STOP, SEND, RECV and NACK, and of WACK with k further samples. -/
def Obligations.EngineEventCounts : Prop :=
  ∀ s t : State,
    (s.regs.mayStart = true → exec .start s.accept = .next t →
      countWaits t.trace = 3 ∧ countSamples t.trace = 0 ∧ countPins t.trace = 4) ∧
    (s.regs.mayStop = true → exec .stop s.accept = .next t →
      countWaits t.trace = 3 ∧ countSamples t.trace = 0 ∧ countPins t.trace = 3) ∧
    (∀ b, s.regs.maySend = true → exec (.send b) s.accept = .next t →
      countWaits t.trace = 16 ∧ countSamples t.trace = 0 ∧ countPins t.trace = 24) ∧
    (s.regs.mayWack = true → exec .wack s.accept = .next t →
      1 ≤ countSamples t.trace ∧ countSamples t.trace ≤ max 1 s.regs.cfgAckpoll.toNat ∧
      countWaits t.trace = countSamples t.trace + 1 ∧ countPins t.trace = 3) ∧
    (s.regs.mayRecv = true → exec .recv s.accept = .next t →
      countWaits t.trace = 16 ∧ countSamples t.trace = 8 ∧ countPins t.trace = 24) ∧
    (s.regs.mayNack = true → exec .nack s.accept = .next t →
      countWaits t.trace = 2 ∧ countSamples t.trace = 0 ∧ countPins t.trace = 3)

/-! ## Register access -/

/-- R145: WREG, RREG and POLL outside IDLE are SEQ and nothing else; from IDLE they always end in IDLE. -/
def Obligations.TransactionsStartAndEndIdle : Prop :=
  ∀ (i : Instr) (s : State), (∃ a v, i = .wreg a v) ∨ (∃ a, i = .rreg a) ∨ i = .poll →
    (s.regs.phase ≠ .idle → exec i s = .next (s.setErr .seq)) ∧
    (s.regs.phase = .idle → ∃ t, exec i s = .next t ∧ t.regs.phase = .idle ∧ t.bus.Released)

/-- R140, R143: WREG from IDLE: START, the write-form address, the register address and the value, each with an ACK
slot, then STOP; the first slot that reads NACK ends it with STOP and that slot's code. RXDATA keeps its value. -/
def Obligations.WregWritesOrStopsAtTheFirstNack : Prop :=
  (∀ a v : Byte, decode (0x10000000#32 ||| (a.zeroExtend 32 <<< 8) ||| v.zeroExtend 32) = .legal (.wreg a v)) ∧
   (∀ (a v : Byte) (s : State), s.regs.phase = .idle →
      ∃ t, exec (.wreg a v) s = .next t ∧ t.bus.Released ∧ s.OutsideSame t ∧
        ((∃ e1, SlotOf s.regs.cfgAckpoll true e1 ∧
            t.regs = { s.regs with ackf := true, dir := false, err := .nackWaddr } ∧
            t.shape = s.shape ++ traceStart ++ traceByte (addrByte s.regs.cfgSaddr false) ++ e1 ++ traceStop) ∨
          (∃ e1 e2, SlotOf s.regs.cfgAckpoll false e1 ∧ SlotOf s.regs.cfgAckpoll true e2 ∧
            t.regs = { s.regs with ackf := true, dir := false, err := .nackReg } ∧
            t.shape = s.shape ++ traceStart ++ traceByte (addrByte s.regs.cfgSaddr false) ++ e1 ++
              traceByte a ++ e2 ++ traceStop) ∨
          (∃ e1 e2 e3, SlotOf s.regs.cfgAckpoll false e1 ∧ SlotOf s.regs.cfgAckpoll false e2 ∧
            SlotOf s.regs.cfgAckpoll true e3 ∧
            t.regs = { s.regs with ackf := true, dir := false, err := .nackData } ∧
            t.shape = s.shape ++ traceStart ++ traceByte (addrByte s.regs.cfgSaddr false) ++ e1 ++
              traceByte a ++ e2 ++ traceByte v ++ e3 ++ traceStop) ∨
          (∃ e1 e2 e3, SlotOf s.regs.cfgAckpoll false e1 ∧ SlotOf s.regs.cfgAckpoll false e2 ∧
            SlotOf s.regs.cfgAckpoll false e3 ∧
            t.regs = { s.regs with ackf := false, dir := false, err := .none } ∧
            t.shape = s.shape ++ traceStart ++ traceByte (addrByte s.regs.cfgSaddr false) ++ e1 ++
              traceByte a ++ e2 ++ traceByte v ++ e3 ++ traceStop)))

/-- R141, R143: RREG from IDLE: the register address is written, a repeated START, the read-form address, the byte to
RXDATA, NACK, STOP; the first slot that reads NACK ends it with STOP, RXDATA = 0xFF and that slot's code. -/
def Obligations.RregReadsOrStopsAtTheFirstNack : Prop :=
  (∀ a : Byte, decode (0x11000000#32 ||| (a.zeroExtend 32 <<< 8)) = .legal (.rreg a)) ∧
   (∀ (a : Byte) (s : State), s.regs.phase = .idle →
      ∃ t, exec (.rreg a) s = .next t ∧ t.bus.Released ∧ s.OutsideSame t ∧
        ((∃ b es, ReadOf s.regs a b es ∧ t.shape = s.shape ++ es ∧
            t.regs = { s.regs with ackf := false, dir := true, rxdata := b, err := .none }) ∨
          (∃ e es, FailedReadOf s.regs a e es ∧ t.shape = s.shape ++ es ∧
            t.regs = { s.regs with ackf := true, dir := failedDir e, rxdata := 0xFF#8, err := e })))

/-- The outcome of WREG and RREG follows the slave's answers (from R61, R140, R141, R143): with an ACK in the first j
slots and a NACK in the next the code is that slot's, and with three ACKs there is no error and RREG's byte is what the
slave gives. -/
def Obligations.TransactionOutcomeFollowsTheAnswers : Prop :=
  ∀ (a v : Byte) (s : State), s.regs.phase = .idle →
    (∀ j rest, j < 3 → s.bus.slave = List.replicate j false ++ List.replicate (max 1 s.regs.cfgAckpoll.toNat) true ++ rest →
      ∃ t u, exec (.wreg a v) s = .next t ∧ exec (.rreg a) s = .next u ∧
        t.regs.err = (if j = 0 then .nackWaddr else if j = 1 then .nackReg else .nackData) ∧
        t.regs.rxdata = s.regs.rxdata ∧ t.bus.slave = rest ∧
        u.regs.err = (if j = 0 then .nackWaddr else if j = 1 then .nackReg else .nackRaddr) ∧
        u.regs.rxdata = 0xFF#8 ∧ u.bus.slave = rest) ∧
    (∀ rest, s.bus.slave = [false, false, false] ++ rest →
      ∃ t, exec (.wreg a v) s = .next t ∧ t.regs.err = .none ∧ t.bus.slave = rest) ∧
    (∀ b rest, s.bus.slave = [false, false, false] ++ wireBits b ++ rest →
      ∃ t, exec (.rreg a) s = .next t ∧ t.regs.err = .none ∧ t.regs.rxdata = b ∧ t.bus.slave = rest)

/-- R142 for WREG (95_test_vectors.md P1): when every slot ACKs, WREG ends in exactly the state of the engine commands
START, SEND, WACK, SEND, WACK, SEND, WACK, STOP run one after the other. -/
def Obligations.WregIsItsEngineCommands : Prop :=
  ∀ (a v : Byte) (s : State) (rest : List Bool), s.regs.phase = .idle → s.bus.slave = [false, false, false] ++ rest →
    ∃ s1 s2 s3 s4 s5 s6 s7 t, exec .start s = .next s1 ∧
      exec (.send (addrByte s.regs.cfgSaddr false)) s1 = .next s2 ∧ exec .wack s2 = .next s3 ∧
      exec (.send a) s3 = .next s4 ∧ exec .wack s4 = .next s5 ∧ exec (.send v) s5 = .next s6 ∧
      exec .wack s6 = .next s7 ∧ exec .stop s7 = .next t ∧ exec (.wreg a v) s = .next t

/-- R63: the address byte is `(CFG_SADDR << 1) | rw`. -/
def Obligations.AddressByteForms : Prop :=
  ∀ sa : SlaveAddr, (addrByte sa false).toNat = 2 * sa.toNat ∧ (addrByte sa true).toNat = 2 * sa.toNat + 1

/-- R146: with the ideal device whose address is CFG_SADDR, on an idle bus, WREG a, v and then RREG a end with no error
and RXDATA = v, for every a and v; and there is such a run from every idle state, with the levels this device gives. -/
def Obligations.IdealDeviceRoundTrip : Prop :=
  ∀ (a v : Byte) (s : State) (m : Vector Byte 256) (p : Byte), s.regs.phase = .idle → s.bus.Released →
    (∀ t u d1 d2, exec (.wreg a v) s.accept = .next t → exec (.rreg a) t.accept = .next u →
      (Dev.idle s.regs.cfgSaddr m p).watchAll t.trace = some d1 → d1.watchAll u.trace = some d2 →
      t.regs.err = .none ∧ d1.reg a = v ∧ u.regs.err = .none ∧ u.regs.rxdata = v) ∧
    (∀ rest, s.bus.slave = [false, false, false] ++ [false, false, false] ++ wireBits v ++ rest →
      ∃ t u d1 d2, exec (.wreg a v) s.accept = .next t ∧ exec (.rreg a) t.accept = .next u ∧
        (Dev.idle s.regs.cfgSaddr m p).watchAll t.trace = some d1 ∧ d1.watchAll u.trace = some d2)

/-- R147, R198: with every ACK at its first sample WREG is 60 waits and 3 samples, RREG 81 and 11, POLL 1701 and
231. -/
def Obligations.TransactionLengths : Prop :=
  ∀ s : State, s.regs.phase = .idle →
    (∀ a v rest, s.bus.slave = [false, false, false] ++ rest →
      ∃ t, exec (.wreg a v) s.accept = .next t ∧ countWaits t.trace = 60 ∧ countSamples t.trace = 3) ∧
    (∀ a b rest, s.bus.slave = [false, false, false] ++ wireBits b ++ rest →
      ∃ t, exec (.rreg a) s.accept = .next t ∧ countWaits t.trace = 81 ∧ countSamples t.trace = 11) ∧
    (∀ (bytes : List Byte) rest, bytes.length = 21 →
      s.bus.slave = bytes.flatMap (fun b => [false, false, false] ++ wireBits b) ++ rest →
      ∃ t, exec .poll s.accept = .next t ∧ countWaits t.trace = 1701 ∧ countSamples t.trace = 231)

/-! ## The decoder -/

/-- DECV writes its channel's millivolts and VALID bit, 0 and not ready for 0xFFFF, and nothing else but ERR (from R170).
The scale 26855/100000 and the offset 2600 are the defaults of R7, which the model chose for this machine (log entry 7);
DecodeCommandsFollowTheConfiguration has every other scale. -/
def Obligations.DecvDecodesTheVoltage : Prop :=
  (∀ r : Raw16, decode (0x20000000#32 ||| r.zeroExtend 32) = .legal (.decvVbat r) ∧
    decode (0x20010000#32 ||| r.zeroExtend 32) = .legal (.decvOcv r)) ∧
  (∀ w : Word, w.opc = 0x20#8 → 1 < w.sel.toNat → ∃ why, decode w = .illegal why) ∧
   (∀ (r : Raw16) (s : State),
      (∃ t x v, exec (.decvVbat r) s = .next t ∧ t.bus = s.bus ∧ s.OutsideSame t ∧
        t.regs = { s.regs with err := .none, res := { s.regs.res with vbat := x, valid := v } } ∧
        x.toNat = (if r = 0xFFFF#16 then 0 else r.toNat * 26855 / 100000 + 2600) ∧
        ∀ n, v.getLsbD n = if n = 0 then decide (r ≠ 0xFFFF#16) else s.regs.res.valid.getLsbD n) ∧
      (∃ t x v, exec (.decvOcv r) s = .next t ∧ t.bus = s.bus ∧ s.OutsideSame t ∧
        t.regs = { s.regs with err := .none, res := { s.regs.res with ocv := x, valid := v } } ∧
        x.toNat = (if r = 0xFFFF#16 then 0 else r.toNat * 26855 / 100000 + 2600) ∧
        ∀ n, v.getLsbD n = if n = 1 then decide (r ≠ 0xFFFF#16) else s.regs.res.valid.getLsbD n))

/-- DECI writes its channel's milliamps and VALID bit, with R163's fold, 0 and not ready for 0xFFFF, and nothing else but
ERR; IMP and the other channels stay (from R171). The scales 127883/100000 and 6394/10000 with no offset are the defaults
of R7, which the model chose for this machine (log entry 7); DecodeCommandsFollowTheConfiguration has every other
scale. -/
def Obligations.DeciDecodesTheCurrent : Prop :=
  (∀ w : Word, w.opc = 0x21#8 → 4 < w.sel.toNat → ∃ why, decode w = .illegal why) ∧
  (∀ (r : Raw16) (s : State), decode (0x21000000#32 ||| r.zeroExtend 32) = .legal (.deciIbat r) ∧
    ∃ t x v, exec (.deciIbat r) s = .next t ∧ t.bus = s.bus ∧ s.OutsideSame t ∧
      t.regs = { s.regs with err := .none, res := { s.regs.res with ibat := x, valid := v } } ∧
      x.toNat = (if r = 0xFFFF#16 then 0
        else (if 32767 < r.toNat then 65535 - r.toNat else r.toNat) * 127883 / 100000) ∧
      ∀ n, v.getLsbD n = if n = 2 then decide (r ≠ 0xFFFF#16) else s.regs.res.valid.getLsbD n) ∧
  (∀ (p : Port) (r : Raw16) (s : State),
    let i : Instr := match p with
      | .out1 => .deciOut1 r
      | .out2 => .deciOut2 r
      | .typec => .deciTypec r
      | .vin => .deciVin r
    let w : Word := r.zeroExtend 32 ||| match p with
      | .out1 => 0x21010000#32
      | .out2 => 0x21020000#32
      | .typec => 0x21030000#32
      | .vin => 0x21040000#32
    decode w = .legal i ∧
    ∃ t x c v, exec i s = .next t ∧ t.bus = s.bus ∧ s.OutsideSame t ∧
      t.regs = { s.regs with err := .none, res := { s.regs.res with iport := c, valid := v } } ∧
      (∀ q, c.get q = if q = p then x else s.regs.res.iport.get q) ∧
      x.toNat = (if r = 0xFFFF#16 then 0
        else (if 32767 < r.toNat then 65535 - r.toNat else r.toNat) * 6394 / 10000) ∧
      ∀ n, v.getLsbD n = if n = 8 + p.idx then decide (r ≠ 0xFFFF#16) else s.regs.res.valid.getLsbD n)

/-- DECP writes the power, saturated to 32 bits, and its VALID bit, for every value of the OPEN NUM_P and DEN_P (from
R172). The offset OFF_P is the default 0 of R7, which the model chose for this machine (log entry 7;
92_eei_decisions.md D41); DecodeCommandsFollowTheConfiguration has every other offset. -/
def Obligations.DecpDecodesThePower : Prop :=
  (∀ r : Raw16, decode (0x22000000#32 ||| r.zeroExtend 32) = .legal (.decp r)) ∧
   (∀ (r : Raw16) (s : State),
      ∃ t x v, exec (.decp r) s = .next t ∧ t.bus = s.bus ∧ s.OutsideSame t ∧
        t.regs = { s.regs with err := .none, res := { s.regs.res with pwr := x, valid := v } } ∧
        x.toNat = (if r = 0xFFFF#16 then 0
          else min (r.toNat * Config.block.power.num / Config.block.power.den) (2 ^ 32 - 1)) ∧
        ∀ n, v.getLsbD n = if n = 3 then decide (r ≠ 0xFFFF#16) else s.regs.res.valid.getLsbD n)

/-- R173: DECS writes its kind's result register with the decoded fields (R165 to R169) and its VALID bit, 0 and not
ready for 0xFF, and nothing else but ERR. -/
def Obligations.DecsDecodesTheStatusByte : Prop :=
  (∀ w : Word, w.opc = 0x23#8 → (4 < w.sel.toNat ∨ w.b1 ≠ 0#8) → ∃ why, decode w = .illegal why) ∧
  ∀ (k : StatusKind) (b : Byte) (s : State),
    let i : Instr := match k with
      | .sys => .decsSys b
      | .chg => .decsChg b
      | .ntc => .decsNtc b
      | .boost => .decsBoost b
      | .mos => .decsMos b
    let w : Word := b.zeroExtend 32 ||| match k with
      | .sys => 0x23000000#32
      | .chg => 0x23010000#32
      | .ntc => 0x23020000#32
      | .boost => 0x23030000#32
      | .mos => 0x23040000#32
    ∃ t x v, exec i s = .next t ∧ t.bus = s.bus ∧ s.OutsideSame t ∧
      t.regs = { s.regs with
        err := .none
        res := match k with
          | .sys => { s.regs.res with sys := x, valid := v }
          | .chg => { s.regs.res with chg := x, valid := v }
          | .ntc => { s.regs.res with ntc := x, valid := v }
          | .boost => { s.regs.res with boost := x, valid := v }
          | .mos => { s.regs.res with mos := x, valid := v } } ∧
      x = (ds Config.block k b).value ∧ decode w = .legal i ∧
      (∀ n, v.getLsbD n = if n = k.validBit then decide (b ≠ 0xFF#8) else s.regs.res.valid.getLsbD n)

/-- R166 to R169, for every configuration: 0xFF is 0 and not ready; any other byte is valid and has its fields at R43 to
R46's positions and no other bit set. -/
def Obligations.StatusFieldsSitWhereTheySay : Prop :=
  ∀ (c : Config) (b : Byte),
    (∀ k, ds c k 0xFF#8 = { value := 0#32, valid := false }) ∧
    (b ≠ 0xFF#8 → ∀ k, (ds c k b).valid = true) ∧
    (b ≠ 0xFF#8 → ∀ n,
      ((ds c .chg b).value.getLsbD n =
        if n ≤ 2 then b.getLsbD (c.chgPhaseLsb + n)
        else if 8 ≤ n ∧ n ≤ 15 then (b &&& c.chgToMask).getLsbD (n - 8) else false) ∧
      ((ds c .ntc b).value.getLsbD n =
        if n = 0 then b.getLsbD c.ntcValidPos
        else if 4 ≤ n ∧ n ≤ 6 then b.getLsbD (c.ntcZoneLsb + (n - 4)) else false) ∧
      ((ds c .boost b).value.getLsbD n = if n ≤ 3 then b.getLsbD (c.boostLsb + n) else false) ∧
      ((ds c .mos b).value.getLsbD n =
        if n = 0 then b.getLsbD (c.mosPos .out1) else if n = 1 then b.getLsbD (c.mosPos .out2)
        else if n = 2 then b.getLsbD (c.mosPos .typec) else if n = 3 then b.getLsbD (c.mosPos .vin) else false))

/-- The system status byte, whose field positions the spec infers from the source's example (R165): MODE is bits 2:0 and
CHGF bit 4, in place, and every other bit is 0; 0xFF is 0 and not ready. -/
def Obligations.SystemStatusFieldsAreInPlace : Prop :=
  ∀ b : Byte,
    (b = 0xFF#8 → dsSys b = { value := 0#32, valid := false }) ∧
    (b ≠ 0xFF#8 → (dsSys b).valid = true ∧
      ∀ n, (dsSys b).value.getLsbD n = if n ≤ 2 ∨ n = 4 then b.getLsbD n else false)

/-- R176, for every configuration and channel with no offset, and for every raw value above 32767 but the sentinel
with any offset: the decoded current is the transform of 65535 - r. -/
def Obligations.CurrentFoldProperty : Prop :=
  ∀ (c : Config) (ch : IChan) (r : Raw16), 32767 < r.toNat → ((c.curr ch).off = 0 ∨ r ≠ 0xFFFF#16) →
    (di c ch r).value = lin (65535 - r.toNat) (c.curr ch)

/-- R160: with the defaults of R7 no voltage exceeds 20199 mV and no current 41903 mA. -/
def Obligations.DefaultResultsAreBounded : Prop :=
  (∀ ch r, (dv Config.block ch r).value.toNat ≤ 20199) ∧ (∀ ch r, (di Config.block ch r).value.toNat ≤ 41903)

/-! ## Ports, imputation, POLL -/

/-- R191, R190: DERV writes each port's voltage, `PORTV` of its enable bit and the boost flags when MOS and BOOST are
ready, else 0 and not ready; a disabled port is 0; and nothing else but ERR. -/
def Obligations.DervDerivesThePortVoltages : Prop :=
  decode 0x30000000#32 = .legal .derv ∧
   (∀ s : State, ∃ t vp v, exec .derv s = .next t ∧ t.bus = s.bus ∧ s.OutsideSame t ∧
      t.regs = { s.regs with err := .none, res := { s.regs.res with vport := vp, valid := v } } ∧
      (∀ p, vp.get p =
        if s.regs.res.valid.getLsbD 16 = true ∧ s.regs.res.valid.getLsbD 15 = true ∧ s.regs.res.mos.getLsbD p.idx = true
        then Config.block.portV p true (s.regs.res.boost.extractLsb' 0 4) else 0#32) ∧
      (∀ n, v.getLsbD n =
        if 4 ≤ n ∧ n ≤ 7 then s.regs.res.valid.getLsbD 16 && s.regs.res.valid.getLsbD 15
        else s.regs.res.valid.getLsbD n))

/-- R193, R192: IMPUTE gives each port that meets the condition the whole power over its voltage, leaves every other
port's current as it was, and writes IMP = (DIV0, IMPUTED); nothing else but ERR. -/
def Obligations.ImputeCorrectsThePortCurrents : Prop :=
  ∀ s : State,
    let r := s.regs.res
    let cond : Port → Prop := fun p =>
      r.valid.getLsbD 16 = true ∧ r.mos.getLsbD p.idx = true ∧ r.valid.getLsbD (8 + p.idx) = true ∧
      r.iport.get p = 0#32 ∧ r.valid.getLsbD 3 = true ∧ r.pwr ≠ 0#32 ∧ r.valid.getLsbD (4 + p.idx) = true
    ∃ t c m, exec .impute s = .next t ∧ t.bus = s.bus ∧ s.OutsideSame t ∧
      t.regs = { s.regs with err := .none, res := { r with iport := c, imp := m } } ∧
      (∀ p, cond p → r.vport.get p ≠ 0#32 →
        (c.get p).toNat = min (r.pwr.toNat * 1000 / (r.vport.get p).toNat) (2 ^ 32 - 1) ∧
        m.getLsbD p.idx = true ∧ m.getLsbD (4 + p.idx) = false) ∧
      (∀ p, cond p → r.vport.get p = 0#32 →
        c.get p = 0#32 ∧ m.getLsbD p.idx = false ∧ m.getLsbD (4 + p.idx) = true) ∧
      (∀ p, ¬ cond p → c.get p = r.iport.get p ∧ m.getLsbD p.idx = false ∧ m.getLsbD (4 + p.idx) = false) ∧
      (∀ n, 8 ≤ n → m.getLsbD n = false)

/-- R193's corner case: a second IMPUTE right after a first that imputed no zero current changes no current and clears
IMPUTED. -/
def Obligations.SecondImputeImputesNothing : Prop :=
  ∀ s t u : State, exec .impute s = .next t → exec .impute t = .next u →
    (∀ p : Port, t.regs.res.imp.getLsbD p.idx = true → t.regs.res.iport.get p ≠ 0#32) →
    u.regs.res.iport = t.regs.res.iport ∧ ∀ p : Port, u.regs.res.imp.getLsbD p.idx = false

/-- R194, R196: POLL from IDLE reads the 21 registers in order, one transaction each, and commits the results of the
bytes read; at the first NACK it stops, RXDATA is 0xFF and every result is 0 and not ready. -/
def Obligations.PollReadsAllOrClearsAll : Prop :=
  decode 0x32000000#32 = .legal .poll ∧
   (∀ s : State, s.regs.phase = .idle →
      ∃ t, exec .poll s = .next t ∧ t.bus.Released ∧ s.OutsideSame t ∧
        ((∃ bytes traces, bytes.length = 21 ∧
            List.Forall₂ (fun (ab : Byte × Byte) es => ReadOf s.regs ab.1 ab.2 es)
              ((pollAddrs Config.block).zip bytes) traces ∧
            t.shape = s.shape ++ traces.flatten ∧
            t.regs = { s.regs with
              ackf := false
              dir := true
              rxdata := bytes.getD 20 0#8
              err := .none
              res := pollResults Config.block bytes s.regs.res }) ∨
          (∃ k bytes traces e es, k < 21 ∧ bytes.length = k ∧
            List.Forall₂ (fun (ab : Byte × Byte) es => ReadOf s.regs ab.1 ab.2 es)
              (((pollAddrs Config.block).take k).zip bytes) traces ∧
            FailedReadOf s.regs ((pollAddrs Config.block).getD k 0#8) e es ∧
            t.shape = s.shape ++ traces.flatten ++ es ∧
            t.regs = { s.regs with ackf := true, dir := failedDir e, rxdata := 0xFF#8, err := e, res := Results.zero })))

/-- The order of POLL's 21 addresses (R194, R71): each composite's low byte before its high byte, then the status
bytes. -/
def Obligations.PollAddressOrder : Prop :=
  ∀ c : Config, pollAddrs c =
    [c.regLo .vbat, c.regHi .vbat, c.regLo .ocv, c.regHi .ocv, c.regLo .ibat, c.regHi .ibat, c.regLo .pwr, c.regHi .pwr,
     c.regLo (.iport .out1), c.regHi (.iport .out1), c.regLo (.iport .out2), c.regHi (.iport .out2),
     c.regLo (.iport .typec), c.regHi (.iport .typec), c.regLo (.iport .vin), c.regHi (.iport .vin),
     c.regStatus .sys, c.regStatus .chg, c.regStatus .ntc, c.regStatus .boost, c.regStatus .mos]

/-- POLL's outcome follows the slave's answers (from R61, R194, R196): 21 reads all ACKed give the results of the bytes
given; a NACK in slot j of read k clears everything with that slot's code. -/
def Obligations.PollOutcomeFollowsTheAnswers : Prop :=
  ∀ (bytes : List Byte) (rest : List Bool) (s : State), s.regs.phase = .idle →
    (bytes.length = 21 → s.bus.slave = bytes.flatMap (fun b => [false, false, false] ++ wireBits b) ++ rest →
      ∃ t, exec .poll s = .next t ∧ t.regs.err = .none ∧ t.bus.slave = rest ∧ t.regs.rxdata = bytes.getD 20 0#8 ∧
        t.regs.res = pollResults Config.block bytes s.regs.res) ∧
    (∀ j, bytes.length < 21 → j < 3 →
      s.bus.slave = bytes.flatMap (fun b => [false, false, false] ++ wireBits b) ++
        List.replicate j false ++ List.replicate (max 1 s.regs.cfgAckpoll.toNat) true ++ rest →
      ∃ t, exec .poll s = .next t ∧ t.bus.slave = rest ∧ t.regs.rxdata = 0xFF#8 ∧ t.regs.res = Results.zero ∧
        t.regs.err = (if j = 0 then .nackWaddr else if j = 1 then .nackReg else .nackRaddr))

/-- The results of a POLL (R194, R195, R190, R192), for every configuration and every 21 bytes: every quantity decoded
from its own two bytes, every status from its own byte, the voltages from MOS and BOOST, the currents imputed last, and IMP the flags of that
imputation: bit p where it took place, bit 4 + p where the voltage was 0, no other bit (R47, R193). -/
def Obligations.PollResultsComeFromTheBytes : Prop :=
  ∀ (c : Config) (b : List Byte) (r : Results),
    let raw : Nat → Raw16 := fun k => combine16 (b.getD (2 * k) 0#8) (b.getD (2 * k + 1) 0#8)
    let u := pollResults c b r
    let mos := ds c .mos (b.getD 20 0#8)
    let boost := ds c .boost (b.getD 19 0#8)
    let pwr := dp c (raw 3)
    u.vbat = (dv c .vbat (raw 0)).value ∧ u.ready 0 = (dv c .vbat (raw 0)).valid ∧
    u.ocv = (dv c .ocv (raw 1)).value ∧ u.ready 1 = (dv c .ocv (raw 1)).valid ∧
    u.ibat = (di c .ibat (raw 2)).value ∧ u.ready 2 = (di c .ibat (raw 2)).valid ∧
    u.pwr = pwr.value ∧ u.ready 3 = pwr.valid ∧
    u.sys = (ds c .sys (b.getD 16 0#8)).value ∧ u.ready 12 = (ds c .sys (b.getD 16 0#8)).valid ∧
    u.chg = (ds c .chg (b.getD 17 0#8)).value ∧ u.ready 13 = (ds c .chg (b.getD 17 0#8)).valid ∧
    u.ntc = (ds c .ntc (b.getD 18 0#8)).value ∧ u.ready 14 = (ds c .ntc (b.getD 18 0#8)).valid ∧
    u.boost = boost.value ∧ u.ready 15 = boost.valid ∧ u.mos = mos.value ∧ u.ready 16 = mos.valid ∧
    (∀ n, 8 ≤ n → u.imp.getLsbD n = false) ∧
    ∀ p : Port,
      let i := di c (.port p) (raw (4 + p.idx))
      let v : Word := if mos.valid && boost.valid then c.portV p (mos.value.getLsbD p.idx) (boost.value.extractLsb' 0 4)
        else 0#32
      let cond : Prop := mos.valid = true ∧ mos.value.getLsbD p.idx = true ∧ i.valid = true ∧ i.value = 0#32 ∧
        pwr.valid = true ∧ pwr.value ≠ 0#32 ∧ boost.valid = true
      u.vport.get p = v ∧ u.ready (4 + p.idx) = (mos.valid && boost.valid) ∧ u.ready (8 + p.idx) = i.valid ∧
      (cond ∧ v ≠ 0#32 → u.iport.get p = sat32 (pwr.value.toNat * 1000 / v.toNat)) ∧
      (¬ (cond ∧ v ≠ 0#32) → u.iport.get p = i.value) ∧
      (u.imp.getLsbD p.idx = true ↔ cond ∧ v ≠ 0#32) ∧
      (u.imp.getLsbD (4 + p.idx) = true ↔ cond ∧ v = 0#32)

/-- POLL recomputes everything from scratch (R50, R194): what the result registers held before, in any two states whose
reserved VALID bits are 0 (R36), makes no difference. -/
def Obligations.PollForgetsTheOldResults : Prop :=
  ∀ (c : Config) (b : List Byte) (r q : Results),
    r.valid &&& 0xFFFE0000#32 = 0#32 → q.valid &&& 0xFFFE0000#32 = 0#32 → pollResults c b r = pollResults c b q

/-- R194's corner case, 95_test_vectors.md V60: a device that returns 0xFF everywhere leaves every result 0 and not
ready. -/
def Obligations.UninitialisedDeviceIsNotReady : Prop :=
  ∀ (c : Config) (r : Results), r.valid &&& 0xFFFE0000#32 = 0#32 →
    pollResults c (List.replicate 21 0xFF#8) r = Results.zero

/-! ## The configuration record -/

/-- The machine takes the record as an argument (R7): `exec`, `step` and `State.reset` are the machine of the record with
the defaults (log entry 7); a step of any block runs the decoded command; only the decode commands, DERV and POLL read
the record; and `rst` leaves CFG_DELAY and CFG_SADDR at the record's DELAY_RESET and SADDR_RESET (R51). -/
def Obligations.MachineTakesItsConfiguration : Prop :=
  (∀ i s, execOf Config.block i s = exec i s) ∧ (∀ s, stepOf Config.block s = step s) ∧
  State.resetOf Config.block = State.reset ∧
  (∀ (c : Config) (s : State) w rest i, s.inFlight = none → s.host = .issue w :: rest → decode w = .legal i →
    stepOf c s = execOf c i (State.accept { s with host := rest })) ∧
  (∀ (c d : Config) (s : State), ∀ i ∈ [Instr.nop, .start, .stop, .wack, .recv, .nack, .impute],
    execOf c i s = execOf d i s) ∧
  (∀ (c d : Config) (s : State) (a b : Byte) (x : BitVec 16),
    ∀ i ∈ [Instr.send b, .wreg a b, .rreg a, .setdly x, .setaddr b, .setpoll b], execOf c i s = execOf d i s) ∧
  ∀ (c : Config) (s : State) also rest, s.host = .reset also :: rest →
    ∃ t, stepOf c s = .next t ∧ t.regs = { Regs.reset with cfgDelay := c.delayReset, cfgSaddr := c.saddrReset } ∧
      t.ovr = false ∧ t.inFlight = none ∧ t.bus.Released

/-- The decode commands, DERV and POLL on a block with any configuration record (from R7, R170 to R173, R191, R194): a
voltage or power is the record's transform of the raw value, a current that of the folded value, each saturated to 32
bits, 0 and not ready for 0xFFFF; a status byte is decoded at the record's positions; DERV uses the record's PORTV; a POLL
whose slots all ACK gives the results of its bytes under the record. -/
def Obligations.DecodeCommandsFollowTheConfiguration : Prop :=
  ∀ (c : Config) (s : State),
    let wrote : Host.Outcome State Fault Refusal → Results → Prop := fun o u =>
      ∃ t, o = .next t ∧ t.bus = s.bus ∧ s.OutsideSame t ∧ t.regs = { s.regs with err := .none, res := u }
    let is : Reading → Raw16 → Nat → Scale → Prop := fun x r m k =>
      x.valid = decide (r ≠ 0xFFFF#16) ∧
      x.value.toNat = if r = 0xFFFF#16 then 0 else min (m * k.num / k.den + k.off) (2 ^ 32 - 1)
    (∀ r, ∃ x, is x r r.toNat (c.volt .vbat) ∧ wrote (execOf c (.decvVbat r) s) (s.regs.res.putVolt .vbat x)) ∧
    (∀ r, ∃ x, is x r r.toNat (c.volt .ocv) ∧ wrote (execOf c (.decvOcv r) s) (s.regs.res.putVolt .ocv x)) ∧
    (∀ r, ∃ x, is x r (fold r) (c.curr .ibat) ∧ wrote (execOf c (.deciIbat r) s) (s.regs.res.putCurr .ibat x)) ∧
    (∀ (p : Port) r,
      let i : Instr := match p with
        | .out1 => .deciOut1 r
        | .out2 => .deciOut2 r
        | .typec => .deciTypec r
        | .vin => .deciVin r
      ∃ x, is x r (fold r) (c.curr (.port p)) ∧ wrote (execOf c i s) (s.regs.res.putCurr (.port p) x)) ∧
    (∀ r, ∃ x, is x r r.toNat c.power ∧ wrote (execOf c (.decp r) s) (s.regs.res.putPower x)) ∧
    (∀ (k : StatusKind) b,
      let i : Instr := match k with
        | .sys => .decsSys b
        | .chg => .decsChg b
        | .ntc => .decsNtc b
        | .boost => .decsBoost b
        | .mos => .decsMos b
      wrote (execOf c i s) (s.regs.res.putStatus k (ds c k b))) ∧
    (∃ u, wrote (execOf c .derv s) u ∧
      ∀ p, u.vport.get p =
        if s.regs.res.valid.getLsbD 16 = true ∧ s.regs.res.valid.getLsbD 15 = true then
          c.portV p (s.regs.res.mos.getLsbD p.idx) (s.regs.res.boost.extractLsb' 0 4)
        else 0#32) ∧
    (∀ (bytes : List Byte) rest, s.regs.phase = .idle → bytes.length = 21 →
      s.bus.slave = bytes.flatMap (fun b => [false, false, false] ++ wireBits b) ++ rest →
      ∃ t, execOf c .poll s = .next t ∧ t.bus.Released ∧ t.bus.slave = rest ∧ t.regs.err = .none ∧
        t.regs.res = pollResults c bytes s.regs.res)

/-! ## The configuration commands -/

/-- R210: NOP writes ERR only; OVR is cleared on acceptance, and there is no pin event. -/
def Obligations.NopClearsErr : Prop :=
  (∀ s : State, exec .nop s = .next (s.setErr .none)) ∧
  (∀ (s : State) rest, s.inFlight = none → s.host = .issue 0x00000000#32 :: rest →
    ∃ t, step s = .next t ∧ t.regs = { s.regs with err := .none } ∧ t.ovr = false ∧ t.trace = [] ∧
      t.bus.scl = s.bus.scl ∧ t.bus.sda = s.bus.sda)

/-- R211, R212, R213: each configuration command writes its register and ERR and nothing else; SETADDR with B0[7] = 1
is ILLEGAL and SETPOLL 0 stores 1. -/
def Obligations.ConfigurationCommandsSetTheirRegister : Prop :=
  (∀ d : BitVec 16, decode (0x40000000#32 ||| d.zeroExtend 32) = .legal (.setdly d)) ∧
  (∀ a : SlaveAddr, decode (0x41000000#32 ||| a.zeroExtend 32) = .legal (.setaddr (a.zeroExtend 8))) ∧
  (∀ n : Byte, decode (0x42000000#32 ||| n.zeroExtend 32) = .legal (.setpoll n)) ∧
  ∀ s : State,
    (∀ d, ∃ t, exec (.setdly d) s = .next t ∧ t.bus = s.bus ∧ s.OutsideSame t ∧
      t.regs = { s.regs with cfgDelay := d, err := .none }) ∧
    (∀ (a : Byte) (x : SlaveAddr), a.toNat = x.toNat → ∃ t, exec (.setaddr a) s = .next t ∧ t.bus = s.bus ∧
      s.OutsideSame t ∧ t.regs = { s.regs with cfgSaddr := x, err := .none }) ∧
    (∀ a : Byte, 128 ≤ a.toNat → exec (.setaddr a) s = .next (s.setErr .illegal)) ∧
    (∀ n : Byte, n ≠ 0#8 → ∃ t, exec (.setpoll n) s = .next t ∧ t.bus = s.bus ∧ s.OutsideSame t ∧
      t.regs = { s.regs with cfgAckpoll := n, err := .none }) ∧
    (∃ t, exec (.setpoll 0#8) s = .next t ∧ t.bus = s.bus ∧ s.OutsideSame t ∧
      t.regs = { s.regs with cfgAckpoll := 1#8, err := .none })

/-- Only START, STOP, SEND, WACK, RECV, NACK, WREG, RREG and POLL touch the pins, PHASE, DIR, ACKF or RXDATA (R214,
R118, R264), and only the configuration commands write the configuration (R33 to R35). -/
def Obligations.OnlyBusCommandsTouchTheBus : Prop :=
  ∀ (i : Instr) (s t : State), exec i s = .next t →
    ((∀ b, i ≠ .send b) → (∀ a v, i ≠ .wreg a v) → (∀ a, i ≠ .rreg a) → i ≠ .start → i ≠ .stop → i ≠ .wack →
      i ≠ .recv → i ≠ .nack → i ≠ .poll →
      t.bus = s.bus ∧ t.regs.phase = s.regs.phase ∧ t.regs.dir = s.regs.dir ∧ t.regs.ackf = s.regs.ackf ∧
        t.regs.rxdata = s.regs.rxdata) ∧
    ((∀ d, i ≠ .setdly d) → t.regs.cfgDelay = s.regs.cfgDelay) ∧
    ((∀ a, i ≠ .setaddr a) → t.regs.cfgSaddr = s.regs.cfgSaddr) ∧
    ((∀ n, i ≠ .setpoll n) → t.regs.cfgAckpoll = s.regs.cfgAckpoll)

/-! ## Whole-machine rules -/

/-- R233: every accepted command ends, and after a bounded number of events: no command adds more than 36435 events to
the trace, and none leaves OVR, the hidden state, the host's schedule or `rd_data` changed. -/
def Obligations.EveryCommandEnds : Prop :=
  ∀ (i : Instr) (s : State), ∃ t, exec i s = .next t ∧ s.OutsideSame t ∧
    s.trace.length ≤ t.trace.length ∧ t.trace.length ≤ s.trace.length + 36435

/-- R119, R31: the pins fit the phase at every command boundary (both released in IDLE, the clock low otherwise), and a
command in progress is on its way to such a boundary; every step keeps this. -/
def Obligations.StepKeepsPinsFittingThePhase : Prop :=
  ∀ s t : State, s.PinsFit → step s = .next t → t.PinsFit

/-- R36, R35, R23, R42 to R47: a result that is not ready holds 0, reserved bits read 0 and CFG_ACKPOLL is not 0; every
step keeps this, of the committed registers and of the shadow copy. -/
def Obligations.StepKeepsTheRegistersLegal : Prop :=
  ∀ s t : State, s.RegsLegal → step s = .next t → t.RegsLegal

/-- R11, R33, R268: every wait of the last accepted command lasts at least max(1, CFG_DELAY) cycles; every step keeps
this. -/
def Obligations.StepKeepsWaitsLongEnough : Prop :=
  ∀ s t : State, s.WaitsLongEnough → step s = .next t → t.WaitsLongEnough

/-- The reset state meets the three invariants. -/
def Obligations.ResetMeetsTheInvariants : Prop :=
  State.reset.PinsFit ∧ State.reset.RegsLegal ∧ State.reset.WaitsLongEnough
end

