-- ==== Sys2Proof/Laws/State.lean ====
section
/-! SUPPORT. One lemma per field per update of State: each update changes its own field and leaves the others. -/

namespace Sys2Proof.Machine

variable (s : State)

/-! setAckf -/

@[simp] theorem State.setAckf_ackf (b : Bool) : (s.setAckf b).regs.ackf = b := rfl
@[simp] theorem State.setAckf_dir (b : Bool) : (s.setAckf b).regs.dir = s.regs.dir := rfl
@[simp] theorem State.setAckf_phase (b : Bool) : (s.setAckf b).regs.phase = s.regs.phase := rfl
@[simp] theorem State.setAckf_err (b : Bool) : (s.setAckf b).regs.err = s.regs.err := rfl
@[simp] theorem State.setAckf_rxdata (b : Bool) : (s.setAckf b).regs.rxdata = s.regs.rxdata := rfl
@[simp] theorem State.setAckf_cfgDelay (b : Bool) : (s.setAckf b).regs.cfgDelay = s.regs.cfgDelay := rfl
@[simp] theorem State.setAckf_cfgSaddr (b : Bool) : (s.setAckf b).regs.cfgSaddr = s.regs.cfgSaddr := rfl
@[simp] theorem State.setAckf_cfgAckpoll (b : Bool) : (s.setAckf b).regs.cfgAckpoll = s.regs.cfgAckpoll := rfl
@[simp] theorem State.setAckf_res (b : Bool) : (s.setAckf b).regs.res = s.regs.res := rfl
@[simp] theorem State.setAckf_ovr (b : Bool) : (s.setAckf b).ovr = s.ovr := rfl
@[simp] theorem State.setAckf_bus (b : Bool) : (s.setAckf b).bus = s.bus := rfl
@[simp] theorem State.setAckf_inFlight (b : Bool) : (s.setAckf b).inFlight = s.inFlight := rfl
@[simp] theorem State.setAckf_host (b : Bool) : (s.setAckf b).host = s.host := rfl
@[simp] theorem State.setAckf_rdData (b : Bool) : (s.setAckf b).rdData = s.rdData := rfl

/-! setDir -/

@[simp] theorem State.setDir_ackf (b : Bool) : (s.setDir b).regs.ackf = s.regs.ackf := rfl
@[simp] theorem State.setDir_dir (b : Bool) : (s.setDir b).regs.dir = b := rfl
@[simp] theorem State.setDir_phase (b : Bool) : (s.setDir b).regs.phase = s.regs.phase := rfl
@[simp] theorem State.setDir_err (b : Bool) : (s.setDir b).regs.err = s.regs.err := rfl
@[simp] theorem State.setDir_rxdata (b : Bool) : (s.setDir b).regs.rxdata = s.regs.rxdata := rfl
@[simp] theorem State.setDir_cfgDelay (b : Bool) : (s.setDir b).regs.cfgDelay = s.regs.cfgDelay := rfl
@[simp] theorem State.setDir_cfgSaddr (b : Bool) : (s.setDir b).regs.cfgSaddr = s.regs.cfgSaddr := rfl
@[simp] theorem State.setDir_cfgAckpoll (b : Bool) : (s.setDir b).regs.cfgAckpoll = s.regs.cfgAckpoll := rfl
@[simp] theorem State.setDir_res (b : Bool) : (s.setDir b).regs.res = s.regs.res := rfl
@[simp] theorem State.setDir_ovr (b : Bool) : (s.setDir b).ovr = s.ovr := rfl
@[simp] theorem State.setDir_bus (b : Bool) : (s.setDir b).bus = s.bus := rfl
@[simp] theorem State.setDir_inFlight (b : Bool) : (s.setDir b).inFlight = s.inFlight := rfl
@[simp] theorem State.setDir_host (b : Bool) : (s.setDir b).host = s.host := rfl
@[simp] theorem State.setDir_rdData (b : Bool) : (s.setDir b).rdData = s.rdData := rfl

/-! setPhase -/

@[simp] theorem State.setPhase_ackf (p : Phase) : (s.setPhase p).regs.ackf = s.regs.ackf := rfl
@[simp] theorem State.setPhase_dir (p : Phase) : (s.setPhase p).regs.dir = s.regs.dir := rfl
@[simp] theorem State.setPhase_phase (p : Phase) : (s.setPhase p).regs.phase = p := rfl
@[simp] theorem State.setPhase_err (p : Phase) : (s.setPhase p).regs.err = s.regs.err := rfl
@[simp] theorem State.setPhase_rxdata (p : Phase) : (s.setPhase p).regs.rxdata = s.regs.rxdata := rfl
@[simp] theorem State.setPhase_cfgDelay (p : Phase) : (s.setPhase p).regs.cfgDelay = s.regs.cfgDelay := rfl
@[simp] theorem State.setPhase_cfgSaddr (p : Phase) : (s.setPhase p).regs.cfgSaddr = s.regs.cfgSaddr := rfl
@[simp] theorem State.setPhase_cfgAckpoll (p : Phase) : (s.setPhase p).regs.cfgAckpoll = s.regs.cfgAckpoll := rfl
@[simp] theorem State.setPhase_res (p : Phase) : (s.setPhase p).regs.res = s.regs.res := rfl
@[simp] theorem State.setPhase_ovr (p : Phase) : (s.setPhase p).ovr = s.ovr := rfl
@[simp] theorem State.setPhase_bus (p : Phase) : (s.setPhase p).bus = s.bus := rfl
@[simp] theorem State.setPhase_inFlight (p : Phase) : (s.setPhase p).inFlight = s.inFlight := rfl
@[simp] theorem State.setPhase_host (p : Phase) : (s.setPhase p).host = s.host := rfl
@[simp] theorem State.setPhase_rdData (p : Phase) : (s.setPhase p).rdData = s.rdData := rfl

/-! setErr -/

@[simp] theorem State.setErr_ackf (e : Err) : (s.setErr e).regs.ackf = s.regs.ackf := rfl
@[simp] theorem State.setErr_dir (e : Err) : (s.setErr e).regs.dir = s.regs.dir := rfl
@[simp] theorem State.setErr_phase (e : Err) : (s.setErr e).regs.phase = s.regs.phase := rfl
@[simp] theorem State.setErr_err (e : Err) : (s.setErr e).regs.err = e := rfl
@[simp] theorem State.setErr_rxdata (e : Err) : (s.setErr e).regs.rxdata = s.regs.rxdata := rfl
@[simp] theorem State.setErr_cfgDelay (e : Err) : (s.setErr e).regs.cfgDelay = s.regs.cfgDelay := rfl
@[simp] theorem State.setErr_cfgSaddr (e : Err) : (s.setErr e).regs.cfgSaddr = s.regs.cfgSaddr := rfl
@[simp] theorem State.setErr_cfgAckpoll (e : Err) : (s.setErr e).regs.cfgAckpoll = s.regs.cfgAckpoll := rfl
@[simp] theorem State.setErr_res (e : Err) : (s.setErr e).regs.res = s.regs.res := rfl
@[simp] theorem State.setErr_ovr (e : Err) : (s.setErr e).ovr = s.ovr := rfl
@[simp] theorem State.setErr_bus (e : Err) : (s.setErr e).bus = s.bus := rfl
@[simp] theorem State.setErr_inFlight (e : Err) : (s.setErr e).inFlight = s.inFlight := rfl
@[simp] theorem State.setErr_host (e : Err) : (s.setErr e).host = s.host := rfl
@[simp] theorem State.setErr_rdData (e : Err) : (s.setErr e).rdData = s.rdData := rfl

/-! setRx -/

@[simp] theorem State.setRx_ackf (b : Byte) : (s.setRx b).regs.ackf = s.regs.ackf := rfl
@[simp] theorem State.setRx_dir (b : Byte) : (s.setRx b).regs.dir = s.regs.dir := rfl
@[simp] theorem State.setRx_phase (b : Byte) : (s.setRx b).regs.phase = s.regs.phase := rfl
@[simp] theorem State.setRx_err (b : Byte) : (s.setRx b).regs.err = s.regs.err := rfl
@[simp] theorem State.setRx_rxdata (b : Byte) : (s.setRx b).regs.rxdata = b := rfl
@[simp] theorem State.setRx_cfgDelay (b : Byte) : (s.setRx b).regs.cfgDelay = s.regs.cfgDelay := rfl
@[simp] theorem State.setRx_cfgSaddr (b : Byte) : (s.setRx b).regs.cfgSaddr = s.regs.cfgSaddr := rfl
@[simp] theorem State.setRx_cfgAckpoll (b : Byte) : (s.setRx b).regs.cfgAckpoll = s.regs.cfgAckpoll := rfl
@[simp] theorem State.setRx_res (b : Byte) : (s.setRx b).regs.res = s.regs.res := rfl
@[simp] theorem State.setRx_ovr (b : Byte) : (s.setRx b).ovr = s.ovr := rfl
@[simp] theorem State.setRx_bus (b : Byte) : (s.setRx b).bus = s.bus := rfl
@[simp] theorem State.setRx_inFlight (b : Byte) : (s.setRx b).inFlight = s.inFlight := rfl
@[simp] theorem State.setRx_host (b : Byte) : (s.setRx b).host = s.host := rfl
@[simp] theorem State.setRx_rdData (b : Byte) : (s.setRx b).rdData = s.rdData := rfl

/-! setDelay -/

@[simp] theorem State.setDelay_ackf (d : BitVec 16) : (s.setDelay d).regs.ackf = s.regs.ackf := rfl
@[simp] theorem State.setDelay_dir (d : BitVec 16) : (s.setDelay d).regs.dir = s.regs.dir := rfl
@[simp] theorem State.setDelay_phase (d : BitVec 16) : (s.setDelay d).regs.phase = s.regs.phase := rfl
@[simp] theorem State.setDelay_err (d : BitVec 16) : (s.setDelay d).regs.err = s.regs.err := rfl
@[simp] theorem State.setDelay_rxdata (d : BitVec 16) : (s.setDelay d).regs.rxdata = s.regs.rxdata := rfl
@[simp] theorem State.setDelay_cfgDelay (d : BitVec 16) : (s.setDelay d).regs.cfgDelay = d := rfl
@[simp] theorem State.setDelay_cfgSaddr (d : BitVec 16) : (s.setDelay d).regs.cfgSaddr = s.regs.cfgSaddr := rfl
@[simp] theorem State.setDelay_cfgAckpoll (d : BitVec 16) : (s.setDelay d).regs.cfgAckpoll = s.regs.cfgAckpoll := rfl
@[simp] theorem State.setDelay_res (d : BitVec 16) : (s.setDelay d).regs.res = s.regs.res := rfl
@[simp] theorem State.setDelay_ovr (d : BitVec 16) : (s.setDelay d).ovr = s.ovr := rfl
@[simp] theorem State.setDelay_bus (d : BitVec 16) : (s.setDelay d).bus = s.bus := rfl
@[simp] theorem State.setDelay_inFlight (d : BitVec 16) : (s.setDelay d).inFlight = s.inFlight := rfl
@[simp] theorem State.setDelay_host (d : BitVec 16) : (s.setDelay d).host = s.host := rfl
@[simp] theorem State.setDelay_rdData (d : BitVec 16) : (s.setDelay d).rdData = s.rdData := rfl

/-! setSaddr -/

@[simp] theorem State.setSaddr_ackf (a : SlaveAddr) : (s.setSaddr a).regs.ackf = s.regs.ackf := rfl
@[simp] theorem State.setSaddr_dir (a : SlaveAddr) : (s.setSaddr a).regs.dir = s.regs.dir := rfl
@[simp] theorem State.setSaddr_phase (a : SlaveAddr) : (s.setSaddr a).regs.phase = s.regs.phase := rfl
@[simp] theorem State.setSaddr_err (a : SlaveAddr) : (s.setSaddr a).regs.err = s.regs.err := rfl
@[simp] theorem State.setSaddr_rxdata (a : SlaveAddr) : (s.setSaddr a).regs.rxdata = s.regs.rxdata := rfl
@[simp] theorem State.setSaddr_cfgDelay (a : SlaveAddr) : (s.setSaddr a).regs.cfgDelay = s.regs.cfgDelay := rfl
@[simp] theorem State.setSaddr_cfgSaddr (a : SlaveAddr) : (s.setSaddr a).regs.cfgSaddr = a := rfl
@[simp] theorem State.setSaddr_cfgAckpoll (a : SlaveAddr) : (s.setSaddr a).regs.cfgAckpoll = s.regs.cfgAckpoll := rfl
@[simp] theorem State.setSaddr_res (a : SlaveAddr) : (s.setSaddr a).regs.res = s.regs.res := rfl
@[simp] theorem State.setSaddr_ovr (a : SlaveAddr) : (s.setSaddr a).ovr = s.ovr := rfl
@[simp] theorem State.setSaddr_bus (a : SlaveAddr) : (s.setSaddr a).bus = s.bus := rfl
@[simp] theorem State.setSaddr_inFlight (a : SlaveAddr) : (s.setSaddr a).inFlight = s.inFlight := rfl
@[simp] theorem State.setSaddr_host (a : SlaveAddr) : (s.setSaddr a).host = s.host := rfl
@[simp] theorem State.setSaddr_rdData (a : SlaveAddr) : (s.setSaddr a).rdData = s.rdData := rfl

/-! setAckpoll -/

@[simp] theorem State.setAckpoll_ackf (n : Byte) : (s.setAckpoll n).regs.ackf = s.regs.ackf := rfl
@[simp] theorem State.setAckpoll_dir (n : Byte) : (s.setAckpoll n).regs.dir = s.regs.dir := rfl
@[simp] theorem State.setAckpoll_phase (n : Byte) : (s.setAckpoll n).regs.phase = s.regs.phase := rfl
@[simp] theorem State.setAckpoll_err (n : Byte) : (s.setAckpoll n).regs.err = s.regs.err := rfl
@[simp] theorem State.setAckpoll_rxdata (n : Byte) : (s.setAckpoll n).regs.rxdata = s.regs.rxdata := rfl
@[simp] theorem State.setAckpoll_cfgDelay (n : Byte) : (s.setAckpoll n).regs.cfgDelay = s.regs.cfgDelay := rfl
@[simp] theorem State.setAckpoll_cfgSaddr (n : Byte) : (s.setAckpoll n).regs.cfgSaddr = s.regs.cfgSaddr := rfl
@[simp] theorem State.setAckpoll_cfgAckpoll (n : Byte) : (s.setAckpoll n).regs.cfgAckpoll = n := rfl
@[simp] theorem State.setAckpoll_res (n : Byte) : (s.setAckpoll n).regs.res = s.regs.res := rfl
@[simp] theorem State.setAckpoll_ovr (n : Byte) : (s.setAckpoll n).ovr = s.ovr := rfl
@[simp] theorem State.setAckpoll_bus (n : Byte) : (s.setAckpoll n).bus = s.bus := rfl
@[simp] theorem State.setAckpoll_inFlight (n : Byte) : (s.setAckpoll n).inFlight = s.inFlight := rfl
@[simp] theorem State.setAckpoll_host (n : Byte) : (s.setAckpoll n).host = s.host := rfl
@[simp] theorem State.setAckpoll_rdData (n : Byte) : (s.setAckpoll n).rdData = s.rdData := rfl

/-! setRes -/

@[simp] theorem State.setRes_ackf (r : Results) : (s.setRes r).regs.ackf = s.regs.ackf := rfl
@[simp] theorem State.setRes_dir (r : Results) : (s.setRes r).regs.dir = s.regs.dir := rfl
@[simp] theorem State.setRes_phase (r : Results) : (s.setRes r).regs.phase = s.regs.phase := rfl
@[simp] theorem State.setRes_err (r : Results) : (s.setRes r).regs.err = s.regs.err := rfl
@[simp] theorem State.setRes_rxdata (r : Results) : (s.setRes r).regs.rxdata = s.regs.rxdata := rfl
@[simp] theorem State.setRes_cfgDelay (r : Results) : (s.setRes r).regs.cfgDelay = s.regs.cfgDelay := rfl
@[simp] theorem State.setRes_cfgSaddr (r : Results) : (s.setRes r).regs.cfgSaddr = s.regs.cfgSaddr := rfl
@[simp] theorem State.setRes_cfgAckpoll (r : Results) : (s.setRes r).regs.cfgAckpoll = s.regs.cfgAckpoll := rfl
@[simp] theorem State.setRes_res (r : Results) : (s.setRes r).regs.res = r := rfl
@[simp] theorem State.setRes_ovr (r : Results) : (s.setRes r).ovr = s.ovr := rfl
@[simp] theorem State.setRes_bus (r : Results) : (s.setRes r).bus = s.bus := rfl
@[simp] theorem State.setRes_inFlight (r : Results) : (s.setRes r).inFlight = s.inFlight := rfl
@[simp] theorem State.setRes_host (r : Results) : (s.setRes r).host = s.host := rfl
@[simp] theorem State.setRes_rdData (r : Results) : (s.setRes r).rdData = s.rdData := rfl

/-! play -/

@[simp] theorem State.play_regs (e : Event) : (s.play e).regs = s.regs := rfl
@[simp] theorem State.play_ovr (e : Event) : (s.play e).ovr = s.ovr := rfl
@[simp] theorem State.play_inFlight (e : Event) : (s.play e).inFlight = s.inFlight := rfl
@[simp] theorem State.play_host (e : Event) : (s.play e).host = s.host := rfl
@[simp] theorem State.play_rdData (e : Event) : (s.play e).rdData = s.rdData := rfl
@[simp] theorem State.play_bus (e : Event) : (s.play e).bus = s.bus.play e := rfl

/-! accept, done, raise -/

@[simp] theorem State.accept_regs : s.accept.regs = s.regs := rfl
@[simp] theorem State.accept_inFlight : s.accept.inFlight = s.inFlight := rfl
@[simp] theorem State.accept_host : s.accept.host = s.host := rfl
@[simp] theorem State.accept_rdData : s.accept.rdData = s.rdData := rfl
@[simp] theorem State.accept_ovr : s.accept.ovr = false := rfl
@[simp] theorem State.accept_scl : s.accept.bus.scl = s.bus.scl := rfl
@[simp] theorem State.accept_sda : s.accept.bus.sda = s.bus.sda := rfl
@[simp] theorem State.accept_slave : s.accept.bus.slave = s.bus.slave := rfl
@[simp] theorem State.accept_past : s.accept.bus.past = [] := rfl
theorem State.done_eq : s.done = s.setErr .none := rfl
theorem State.raise_eq (e : Err) : s.raise e = s.setErr e := rfl

@[simp] theorem State.done_ackf : s.done.regs.ackf = s.regs.ackf := rfl
@[simp] theorem State.done_dir : s.done.regs.dir = s.regs.dir := rfl
@[simp] theorem State.done_phase : s.done.regs.phase = s.regs.phase := rfl
@[simp] theorem State.done_err : s.done.regs.err = .none := rfl
@[simp] theorem State.done_rxdata : s.done.regs.rxdata = s.regs.rxdata := rfl
@[simp] theorem State.done_cfgDelay : s.done.regs.cfgDelay = s.regs.cfgDelay := rfl
@[simp] theorem State.done_cfgSaddr : s.done.regs.cfgSaddr = s.regs.cfgSaddr := rfl
@[simp] theorem State.done_cfgAckpoll : s.done.regs.cfgAckpoll = s.regs.cfgAckpoll := rfl
@[simp] theorem State.done_res : s.done.regs.res = s.regs.res := rfl
@[simp] theorem State.done_ovr : s.done.ovr = s.ovr := rfl
@[simp] theorem State.done_bus : s.done.bus = s.bus := rfl
@[simp] theorem State.done_inFlight : s.done.inFlight = s.inFlight := rfl
@[simp] theorem State.done_host : s.done.host = s.host := rfl
@[simp] theorem State.done_rdData : s.done.rdData = s.rdData := rfl

@[simp] theorem State.raise_ackf (e : Err) : (s.raise e).regs.ackf = s.regs.ackf := rfl
@[simp] theorem State.raise_dir (e : Err) : (s.raise e).regs.dir = s.regs.dir := rfl
@[simp] theorem State.raise_phase (e : Err) : (s.raise e).regs.phase = s.regs.phase := rfl
@[simp] theorem State.raise_err (e : Err) : (s.raise e).regs.err = e := rfl
@[simp] theorem State.raise_rxdata (e : Err) : (s.raise e).regs.rxdata = s.regs.rxdata := rfl
@[simp] theorem State.raise_cfgDelay (e : Err) : (s.raise e).regs.cfgDelay = s.regs.cfgDelay := rfl
@[simp] theorem State.raise_cfgSaddr (e : Err) : (s.raise e).regs.cfgSaddr = s.regs.cfgSaddr := rfl
@[simp] theorem State.raise_cfgAckpoll (e : Err) : (s.raise e).regs.cfgAckpoll = s.regs.cfgAckpoll := rfl
@[simp] theorem State.raise_res (e : Err) : (s.raise e).regs.res = s.regs.res := rfl
@[simp] theorem State.raise_ovr (e : Err) : (s.raise e).ovr = s.ovr := rfl
@[simp] theorem State.raise_bus (e : Err) : (s.raise e).bus = s.bus := rfl
@[simp] theorem State.raise_inFlight (e : Err) : (s.raise e).inFlight = s.inFlight := rfl
@[simp] theorem State.raise_host (e : Err) : (s.raise e).host = s.host := rfl
@[simp] theorem State.raise_rdData (e : Err) : (s.raise e).rdData = s.rdData := rfl

/-! readOut, applyReset -/

@[simp] theorem State.readOut_regs (l : Bool) (i : BitVec 6) : (s.readOut l i).regs = s.regs := rfl
@[simp] theorem State.readOut_ovr (l : Bool) (i : BitVec 6) : (s.readOut l i).ovr = s.ovr := rfl
@[simp] theorem State.readOut_bus (l : Bool) (i : BitVec 6) : (s.readOut l i).bus = s.bus := rfl
@[simp] theorem State.readOut_inFlight (l : Bool) (i : BitVec 6) : (s.readOut l i).inFlight = s.inFlight := rfl
@[simp] theorem State.readOut_host (l : Bool) (i : BitVec 6) : (s.readOut l i).host = s.host := rfl
@[simp] theorem State.readOut_rdData (l : Bool) (i : BitVec 6) : (s.readOut l i).rdData = s.hostRead l i := rfl
@[simp] theorem State.applyReset_regs (r : Regs) : (s.applyReset r).regs = r := rfl
@[simp] theorem State.applyReset_ovr (r : Regs) : (s.applyReset r).ovr = false := rfl
@[simp] theorem State.applyReset_inFlight (r : Regs) : (s.applyReset r).inFlight = none := rfl
@[simp] theorem State.applyReset_host (r : Regs) : (s.applyReset r).host = s.host := rfl
@[simp] theorem State.applyReset_rdData (r : Regs) : (s.applyReset r).rdData = s.rdData := rfl
@[simp] theorem State.applyReset_scl (r : Regs) : (s.applyReset r).bus.scl = true := rfl
@[simp] theorem State.applyReset_sda (r : Regs) : (s.applyReset r).bus.sda = true := rfl
@[simp] theorem State.applyReset_past (r : Regs) : (s.applyReset r).bus.past = [] := rfl

/-- Two states with the same parts are the same. -/
theorem State.ext_parts {s t : State} (hr : s.regs = t.regs) (ho : s.ovr = t.ovr) (hb : s.bus = t.bus)
    (hi : s.inFlight = t.inFlight) (hh : s.host = t.host) (hd : s.rdData = t.rdData) : s = t := by
  cases s; cases t; simp_all

/-! The reset state -/

@[simp] theorem State.resetOf_regs (c : Config) : (State.resetOf c).regs = Regs.resetOf c := rfl
@[simp] theorem State.resetOf_ovr (c : Config) : (State.resetOf c).ovr = false := rfl
@[simp] theorem State.resetOf_bus (c : Config) : (State.resetOf c).bus = Bus.reset := rfl
@[simp] theorem State.resetOf_inFlight (c : Config) : (State.resetOf c).inFlight = none := rfl
@[simp] theorem State.resetOf_host (c : Config) : (State.resetOf c).host = [] := rfl
@[simp] theorem State.resetOf_rdData (c : Config) : (State.resetOf c).rdData = 0#32 := rfl
@[simp] theorem State.reset_regs : State.reset.regs = Regs.reset := rfl
@[simp] theorem State.reset_ovr : State.reset.ovr = false := rfl
@[simp] theorem State.reset_bus : State.reset.bus = Bus.reset := rfl
@[simp] theorem State.reset_inFlight : State.reset.inFlight = none := rfl
@[simp] theorem State.reset_host : State.reset.host = [] := rfl
@[simp] theorem State.reset_rdData : State.reset.rdData = 0#32 := rfl
@[simp] theorem Regs.resetOf_ackf (c : Config) : (Regs.resetOf c).ackf = false := rfl
@[simp] theorem Regs.resetOf_dir (c : Config) : (Regs.resetOf c).dir = false := rfl
@[simp] theorem Regs.resetOf_phase (c : Config) : (Regs.resetOf c).phase = .idle := rfl
@[simp] theorem Regs.resetOf_err (c : Config) : (Regs.resetOf c).err = .none := rfl
@[simp] theorem Regs.resetOf_rxdata (c : Config) : (Regs.resetOf c).rxdata = 0xFF#8 := rfl
@[simp] theorem Regs.resetOf_cfgDelay (c : Config) : (Regs.resetOf c).cfgDelay = c.delayReset := rfl
@[simp] theorem Regs.resetOf_cfgSaddr (c : Config) : (Regs.resetOf c).cfgSaddr = c.saddrReset := rfl
@[simp] theorem Regs.resetOf_cfgAckpoll (c : Config) : (Regs.resetOf c).cfgAckpoll = 1#8 := rfl
@[simp] theorem Regs.resetOf_res (c : Config) : (Regs.resetOf c).res = Results.zero := rfl

end Sys2Proof.Machine
end

