-- ==== Sys2Proof/Laws/Bus.lean ====
section
/-! SUPPORT. The pin primitives: what each leaves of the pins, the trace and the environment's levels; and what a run
of primitives can do (it plays some events and nothing else of the bus). -/

namespace Sys2Proof.Machine

/-! ## One event -/

@[simp] theorem Bus.play_scl_scl (b : Bus) (v : Bool) : (b.play (.scl v)).scl = v := rfl
@[simp] theorem Bus.play_scl_sda (b : Bus) (v : Bool) : (b.play (.scl v)).sda = b.sda := rfl
@[simp] theorem Bus.play_scl_slave (b : Bus) (v : Bool) : (b.play (.scl v)).slave = b.slave := rfl
@[simp] theorem Bus.play_sda_scl (b : Bus) (v : Bool) : (b.play (.sda v)).scl = b.scl := rfl
@[simp] theorem Bus.play_sda_sda (b : Bus) (v : Bool) : (b.play (.sda v)).sda = v := rfl
@[simp] theorem Bus.play_sda_slave (b : Bus) (v : Bool) : (b.play (.sda v)).slave = b.slave := rfl
@[simp] theorem Bus.play_w_scl (b : Bus) (n : Nat) : (b.play (.w n)).scl = b.scl := rfl
@[simp] theorem Bus.play_w_sda (b : Bus) (n : Nat) : (b.play (.w n)).sda = b.sda := rfl
@[simp] theorem Bus.play_w_slave (b : Bus) (n : Nat) : (b.play (.w n)).slave = b.slave := rfl

@[simp] theorem Bus.play_s_scl (b : Bus) (x : Bool) : (b.play (.s x)).scl = b.scl := by
  simp only [Bus.play]; split <;> rfl

@[simp] theorem Bus.play_s_sda (b : Bus) (x : Bool) : (b.play (.s x)).sda = b.sda := by
  simp only [Bus.play]; split <;> rfl

theorem Bus.play_s_slave (b : Bus) (x : Bool) :
    (b.play (.s x)).slave = if b.sda then b.slave.tail else b.slave := by
  simp only [Bus.play]; split <;> rfl

@[simp] theorem Bus.play_past (b : Bus) (e : Event) : (b.play e).past = e :: b.past := by
  cases e <;> simp only [Bus.play]
  split <;> rfl

/-! ## Some events -/

@[simp] theorem Bus.playAll_nil (b : Bus) : b.playAll [] = b := rfl
@[simp] theorem Bus.playAll_cons (b : Bus) (e : Event) (es : List Event) :
    b.playAll (e :: es) = (b.play e).playAll es := rfl

theorem Bus.playAll_append (b : Bus) (es fs : List Event) : b.playAll (es ++ fs) = (b.playAll es).playAll fs := by
  induction es generalizing b with
  | nil => rfl
  | cons e es ih => simpa using ih (b.play e)

theorem Bus.playAll_past (b : Bus) (es : List Event) : (b.playAll es).past = es.reverse ++ b.past := by
  induction es generalizing b with
  | nil => simp
  | cons e es ih => simp [ih]

/-- `t` is `s` after some events on the bus and some register writes: OVR, the command in progress, the host's schedule
and `rd_data` stay, and so does CFG_DELAY, and every wait among the events lasts at least tD. -/
structure Runs (s t : State) (es : List Event) : Prop where
  bus : t.bus = s.bus.playAll es
  waits : waitsAtLeast (waitFloor s.regs.cfgDelay) es
  delay : t.regs.cfgDelay = s.regs.cfgDelay
  ovr : t.ovr = s.ovr
  inFlight : t.inFlight = s.inFlight
  host : t.host = s.host
  rdData : t.rdData = s.rdData

theorem waitsAtLeast_nil (n : Nat) : waitsAtLeast n [] := by simp [waitsAtLeast]

theorem waitsAtLeast_append {n : Nat} {es fs : List Event} (h : waitsAtLeast n es) (k : waitsAtLeast n fs) :
    waitsAtLeast n (es ++ fs) := by
  intro e he
  rcases List.mem_append.mp he with he | he
  · exact h e he
  · exact k e he

theorem Runs.refl (s : State) : Runs s s [] :=
  { bus := rfl, waits := waitsAtLeast_nil _, delay := rfl, ovr := rfl, inFlight := rfl, host := rfl, rdData := rfl }

theorem Runs.trans {s t u : State} {es fs : List Event} (h : Runs s t es) (k : Runs t u fs) :
    Runs s u (es ++ fs) where
  bus := by rw [Bus.playAll_append, ← h.bus, k.bus]
  waits := waitsAtLeast_append h.waits (h.delay ▸ k.waits)
  delay := k.delay.trans h.delay
  ovr := k.ovr.trans h.ovr
  inFlight := k.inFlight.trans h.inFlight
  host := k.host.trans h.host
  rdData := k.rdData.trans h.rdData

/-- A register write after a run, CFG_DELAY kept. -/
theorem Runs.regs {s t u : State} {es : List Event} (h : Runs s t es) (hb : u.bus = t.bus)
    (hd : u.regs.cfgDelay = t.regs.cfgDelay) (ho : u.ovr = t.ovr) (hi : u.inFlight = t.inFlight)
    (hh : u.host = t.host) (hr : u.rdData = t.rdData) : Runs s u es where
  bus := hb.trans h.bus
  waits := h.waits
  delay := hd.trans h.delay
  ovr := ho.trans h.ovr
  inFlight := hi.trans h.inFlight
  host := hh.trans h.host
  rdData := hr.trans h.rdData

theorem Runs.setScl (v : Bool) (s : State) : Runs s (Machine.setScl v s) [.scl v] :=
  { bus := rfl, waits := by simp [waitsAtLeast], delay := rfl, ovr := rfl, inFlight := rfl, host := rfl, rdData := rfl }

theorem Runs.setSda (v : Bool) (s : State) : Runs s (Machine.setSda v s) [.sda v] :=
  { bus := rfl, waits := by simp [waitsAtLeast], delay := rfl, ovr := rfl, inFlight := rfl, host := rfl, rdData := rfl }

theorem Runs.wait (s : State) : Runs s (Machine.wait s) [.w s.waitLength] :=
  { bus := rfl, waits := by simp [waitsAtLeast, State.waitLength], delay := rfl, ovr := rfl, inFlight := rfl,
    host := rfl, rdData := rfl }

theorem Runs.sample (s : State) : Runs s (Machine.sample s) [.s s.bus.sampled] :=
  { bus := rfl, waits := by simp [waitsAtLeast], delay := rfl, ovr := rfl, inFlight := rfl, host := rfl, rdData := rfl }

/-- `t` is reached from `s` by some run. -/
def Reaches (s t : State) : Prop := ∃ es, Runs s t es

theorem Reaches.refl (s : State) : Reaches s s := ⟨_, Runs.refl s⟩

theorem Reaches.trans {s t u : State} (h : Reaches s t) (k : Reaches t u) : Reaches s u :=
  let ⟨_, h⟩ := h
  let ⟨_, k⟩ := k
  ⟨_, h.trans k⟩

theorem Reaches.setScl {s t : State} (v : Bool) (h : Reaches s t) : Reaches s (Machine.setScl v t) :=
  h.trans ⟨_, Runs.setScl v t⟩

theorem Reaches.setSda {s t : State} (v : Bool) (h : Reaches s t) : Reaches s (Machine.setSda v t) :=
  h.trans ⟨_, Runs.setSda v t⟩

theorem Reaches.wait {s t : State} (h : Reaches s t) : Reaches s (Machine.wait t) := h.trans ⟨_, Runs.wait t⟩

theorem Reaches.sample {s t : State} (h : Reaches s t) : Reaches s (Machine.sample t) := h.trans ⟨_, Runs.sample t⟩

/-! The register writes that keep CFG_DELAY. -/

theorem Reaches.setPhase {s t : State} (p : Phase) (h : Reaches s t) : Reaches s (t.setPhase p) :=
  let ⟨_, h⟩ := h
  ⟨_, h.regs rfl rfl rfl rfl rfl rfl⟩

theorem Reaches.setAckf {s t : State} (b : Bool) (h : Reaches s t) : Reaches s (t.setAckf b) :=
  let ⟨_, h⟩ := h
  ⟨_, h.regs rfl rfl rfl rfl rfl rfl⟩

theorem Reaches.setDir {s t : State} (b : Bool) (h : Reaches s t) : Reaches s (t.setDir b) :=
  let ⟨_, h⟩ := h
  ⟨_, h.regs rfl rfl rfl rfl rfl rfl⟩

theorem Reaches.setErr {s t : State} (e : Err) (h : Reaches s t) : Reaches s (t.setErr e) :=
  let ⟨_, h⟩ := h
  ⟨_, h.regs rfl rfl rfl rfl rfl rfl⟩

theorem Reaches.setRx {s t : State} (b : Byte) (h : Reaches s t) : Reaches s (t.setRx b) :=
  let ⟨_, h⟩ := h
  ⟨_, h.regs rfl rfl rfl rfl rfl rfl⟩

theorem Reaches.setRes {s t : State} (r : Results) (h : Reaches s t) : Reaches s (t.setRes r) :=
  let ⟨_, h⟩ := h
  ⟨_, h.regs rfl rfl rfl rfl rfl rfl⟩

theorem Reaches.setSaddr {s t : State} (a : SlaveAddr) (h : Reaches s t) : Reaches s (t.setSaddr a) :=
  let ⟨_, h⟩ := h
  ⟨_, h.regs rfl rfl rfl rfl rfl rfl⟩

theorem Reaches.setAckpoll {s t : State} (n : Byte) (h : Reaches s t) : Reaches s (t.setAckpoll n) :=
  let ⟨_, h⟩ := h
  ⟨_, h.regs rfl rfl rfl rfl rfl rfl⟩

/-- The trace a run adds. -/
theorem Runs.trace {s t : State} {es : List Event} (h : Runs s t es) : t.trace = s.trace ++ es := by
  simp [State.trace, h.bus, Bus.playAll_past]

theorem Runs.shape {s t : State} {es : List Event} (h : Runs s t es) :
    t.shape = s.shape ++ es.map Event.untimed := by
  simp [State.shape, h.trace]

/-! ## The primitives, field by field -/

section
variable (s : State) (v : Bool)

@[simp] theorem setScl_regs : (setScl v s).regs = s.regs := rfl
@[simp] theorem setScl_scl : (setScl v s).bus.scl = v := rfl
@[simp] theorem setScl_sda : (setScl v s).bus.sda = s.bus.sda := rfl
@[simp] theorem setScl_slave : (setScl v s).bus.slave = s.bus.slave := rfl
@[simp] theorem setSda_regs : (setSda v s).regs = s.regs := rfl
@[simp] theorem setSda_scl : (setSda v s).bus.scl = s.bus.scl := rfl
@[simp] theorem setSda_sda : (setSda v s).bus.sda = v := rfl
@[simp] theorem setSda_slave : (setSda v s).bus.slave = s.bus.slave := rfl
@[simp] theorem wait_regs : (wait s).regs = s.regs := rfl
@[simp] theorem wait_scl : (wait s).bus.scl = s.bus.scl := rfl
@[simp] theorem wait_sda : (wait s).bus.sda = s.bus.sda := rfl
@[simp] theorem wait_slave : (wait s).bus.slave = s.bus.slave := rfl
@[simp] theorem sample_regs : (sample s).regs = s.regs := rfl
@[simp] theorem sample_scl : (sample s).bus.scl = s.bus.scl := by simp [sample]
@[simp] theorem sample_sda : (sample s).bus.sda = s.bus.sda := by simp [sample]

theorem sample_slave : (sample s).bus.slave = if s.bus.sda then s.bus.slave.tail else s.bus.slave := by
  simp [sample, Bus.play_s_slave]

@[simp] theorem setScl_shape : (setScl v s).shape = s.shape ++ [.scl v] := (Runs.setScl v s).shape
@[simp] theorem setSda_shape : (setSda v s).shape = s.shape ++ [.sda v] := (Runs.setSda v s).shape
@[simp] theorem wait_shape : (wait s).shape = s.shape ++ [.w 0] := (Runs.wait s).shape
@[simp] theorem sample_shape : (sample s).shape = s.shape ++ [.s s.bus.sampled] := (Runs.sample s).shape

end

/-- A sample of the released line takes the next level of the environment's list (R61). -/
theorem Bus.sampled_of_slave {b : Bus} {x : Bool} {l : List Bool} (h : b.sda = true) (k : b.slave = x :: l) :
    b.sampled = x := by simp [Bus.sampled, Bus.line, Bus.draw, h, k]

/-- A sample of a line the block drives low reads 0 (R61). -/
theorem Bus.sampled_of_driven {b : Bus} (h : b.sda = false) : b.sampled = false := by
  simp [Bus.sampled, Bus.line, h]

@[simp] theorem shape_setPhase (s : State) (p : Phase) : (s.setPhase p).shape = s.shape := rfl
@[simp] theorem shape_setDir (s : State) (b : Bool) : (s.setDir b).shape = s.shape := rfl
@[simp] theorem shape_setAckf (s : State) (b : Bool) : (s.setAckf b).shape = s.shape := rfl
@[simp] theorem shape_setErr (s : State) (e : Err) : (s.setErr e).shape = s.shape := rfl
@[simp] theorem shape_setRx (s : State) (b : Byte) : (s.setRx b).shape = s.shape := rfl
@[simp] theorem shape_setRes (s : State) (r : Results) : (s.setRes r).shape = s.shape := rfl
@[simp] theorem shape_done (s : State) : s.done.shape = s.shape := rfl
@[simp] theorem shape_raise (s : State) (e : Err) : (s.raise e).shape = s.shape := rfl

end Sys2Proof.Machine
end

