-- ==== Sys2Proof/Laws/Config.lean ====
section
/-! SUPPORT. The block's configuration record meets the constraints of 00_scope.md R7, whatever the OPEN parameters
are. -/

namespace Sys2Proof

/-- The ports' places are distinct and below eight. -/
theorem Port.idx_inj {p q : Port} (h : Fin.ofNat 8 p.idx = Fin.ofNat 8 q.idx) : p = q := by
  revert h; cases p <;> cases q <;> decide

/-- Building a BOOST range from its own ends gives it back, so every range is a possible one of `Config.block`. -/
theorem BoostRange.between_ends (r : BoostRange) : BoostRange.between r.lo r.hi = r := by
  obtain ⟨lo, hi, h6, h, h12⟩ := r
  simp [BoostRange.between, h6, h, h12, h.trans h12]

theorem Config.block_wf : Config.block.WF where
  volt_den := by intro v; cases v <;> decide
  curr_den := by
    intro i
    cases i with
    | ibat => decide
    | port p => cases p <;> decide
  power_den := Nat.succ_pos _
  chgPhaseLsb_le := by have := Config.openChgPhaseLsb.isLt; simp only [Config.block]; omega
  chgToMask_disjoint := by
    simp only [Config.block]
    generalize Config.openChgToMask = m
    generalize 7#8 <<< Config.openChgPhaseLsb.val = f
    apply BitVec.eq_of_getLsbD_eq
    intro i hi
    simp [hi]
  ntcValidPos_lt := by
    have := Config.openNtcValid.isLt
    simp only [Config.block]
    split <;> omega
  ntcZoneLsb_le := by have := Config.openNtcZoneLsb.isLt; simp only [Config.block]; omega
  ntc_disjoint := by
    simp only [Config.block]
    split <;> omega
  boostLsb_le := by have := Config.openBoostLsb.isLt; simp only [Config.block]; omega
  mosPos_lt := fun p => (Config.openMosPerm (Fin.ofNat 8 p.idx)).isLt
  mosPos_distinct := fun p q h => Port.idx_inj (Config.openMosPerm.injective (Fin.ext h))
  portV_disabled := fun _ _ => rfl

end Sys2Proof
end

