-- ==== Sys2Proof/Laws/Decode.lean ====
section
/-! SUPPORT. The fields of a packed word (30_encoding.md R91), and a word from its fields. -/

namespace Sys2Proof

section fields
variable (o a b : Byte) (s : BitVec 4)
@[simp] theorem packWord_opc : Word.opc (packWord o s a b) = o := by
  apply BitVec.eq_of_getLsbD_eq; intro i hi
  interval_cases i <;> simp [packWord, Word.opc]
@[simp] theorem packWord_rsv : Word.rsv (packWord o s a b) = 0#4 := by
  apply BitVec.eq_of_getLsbD_eq; intro i hi
  interval_cases i <;> simp [packWord, Word.rsv]
@[simp] theorem packWord_sel : Word.sel (packWord o s a b) = s := by
  apply BitVec.eq_of_getLsbD_eq; intro i hi
  interval_cases i <;> simp [packWord, Word.sel]
@[simp] theorem packWord_b1 : Word.b1 (packWord o s a b) = a := by
  apply BitVec.eq_of_getLsbD_eq; intro i hi
  interval_cases i <;> simp [packWord, Word.b1]
@[simp] theorem packWord_b0 : Word.b0 (packWord o s a b) = b := by
  apply BitVec.eq_of_getLsbD_eq; intro i hi
  interval_cases i <;> simp [packWord, Word.b0]
theorem packWord_fields (w : Word) (h : Word.rsv w = 0#4) :
    packWord (Word.opc w) (Word.sel w) (Word.b1 w) (Word.b0 w) = w := by
  apply BitVec.eq_of_getLsbD_eq; intro i hi
  have h' : ∀ k < 4, w.getLsbD (20 + k) = false := by
    intro k hk
    have := congrArg (fun x : BitVec 4 => x.getLsbD k) h
    simpa [Word.rsv, hk] using this
  have h0 := h' 0 (by omega); have h1 := h' 1 (by omega); have h2 := h' 2 (by omega); have h3 := h' 3 (by omega)
  simp only [Nat.reduceAdd] at h0 h1 h2 h3
  interval_cases i <;> simp_all [packWord, Word.opc, Word.sel, Word.b1, Word.b0]
end fields

@[simp] theorem raw_split (r : Raw16) : ((r.extractLsb' 8 8).zeroExtend 16 <<< 8) ||| (r.extractLsb' 0 8).zeroExtend 16 = r := by
  apply BitVec.eq_of_getLsbD_eq; intro i hi
  interval_cases i <;> simp
@[simp] theorem packRaw_opc (o s r) : Word.opc (packRaw o s r) = o := packWord_opc _ _ _ _
@[simp] theorem packRaw_rsv (o s r) : Word.rsv (packRaw o s r) = 0#4 := packWord_rsv _ _ _ _
@[simp] theorem packRaw_sel (o s r) : Word.sel (packRaw o s r) = s := packWord_sel _ _ _ _
@[simp] theorem packRaw_raw16 (o s r) : Word.raw16 (packRaw o s r) = r := by
  simp [Word.raw16, packRaw]

/-- The two bytes of a 16-bit operand are its word's B1 and B0 (R92). -/
theorem raw16_packed (w : Word) (h : Word.rsv w = 0#4) :
    packRaw (Word.opc w) (Word.sel w) (Word.raw16 w) = w := by
  have h1 : (Word.raw16 w).extractLsb' 8 8 = Word.b1 w := by
    apply BitVec.eq_of_getLsbD_eq; intro i hi
    interval_cases i <;> simp [Word.raw16]
  have h0 : (Word.raw16 w).extractLsb' 0 8 = Word.b0 w := by
    apply BitVec.eq_of_getLsbD_eq; intro i hi
    interval_cases i <;> simp [Word.raw16]
  rw [packRaw, h1, h0, packWord_fields w h]

end Sys2Proof
end

