-- ==== Sys2Proof/Laws/Decoder.lean ====
section
/-! SUPPORT. The bits of the flag words, and what writing one reading changes (10_state.md R36; 42_decoder.md). -/

namespace Sys2Proof

theorem VChan.validBit_lt (c : VChan) : c.validBit < 17 := by cases c <;> decide
theorem IChan.validBit_lt (c : IChan) : c.validBit < 17 := by
  cases c with
  | ibat => decide
  | port p => cases p <;> decide
theorem StatusKind.validBit_lt (k : StatusKind) : k.validBit < 17 := by cases k <;> decide
theorem vportValidBit_lt (p : Port) : vportValidBit p < 17 := by cases p <;> decide
theorem iportValidBit_lt (p : Port) : iportValidBit p < 17 := by cases p <;> decide

end Sys2Proof

namespace Sys2Proof.Machine

theorem bitAt_getLsbD (n m : Nat) (b : Bool) (h : n < 32) : (bitAt n b).getLsbD m = (decide (m = n) && b) := by
  unfold bitAt
  cases b with
  | false => simp
  | true =>
    by_cases hm : m = n
    · subst hm; simp [h]
    · simp [hm]; omega

theorem setBit_getLsbD (w : Word) (n m : Nat) (b : Bool) (h : n < 32) :
    (setBit w n b).getLsbD m = if m = n then b else w.getLsbD m := by
  unfold setBit
  rw [BitVec.getLsbD_or, bitAt_getLsbD _ _ _ h]
  by_cases hm : m = n
  · subst hm; simp [h]
  · have h1 : (1#32 <<< n).getLsbD m = false := by simp; omega
    rw [BitVec.getLsbD_and, BitVec.getLsbD_not, h1]
    by_cases h32 : m < 32
    · simp [hm, h32]
    · simp [hm, BitVec.getLsbD_of_ge _ _ (Nat.le_of_not_lt h32)]

section put
variable (r : Results) (x : Reading) (n : Nat)

theorem ready_putVolt (ch : VChan) :
    (r.putVolt ch x).ready n = if n = ch.validBit then x.valid else r.ready n := by
  have h := setBit_getLsbD r.valid ch.validBit n x.valid (by have := ch.validBit_lt; omega)
  cases ch <;> exact h

theorem ready_putCurr (ch : IChan) :
    (r.putCurr ch x).ready n = if n = ch.validBit then x.valid else r.ready n := by
  have h := setBit_getLsbD r.valid ch.validBit n x.valid (by have := ch.validBit_lt; omega)
  cases ch <;> exact h

theorem ready_putPower : (r.putPower x).ready n = if n = pwrValidBit then x.valid else r.ready n :=
  setBit_getLsbD r.valid pwrValidBit n x.valid (by decide)

theorem ready_putVport (p : Port) :
    (r.putVport p x).ready n = if n = vportValidBit p then x.valid else r.ready n :=
  setBit_getLsbD r.valid (vportValidBit p) n x.valid (by have := vportValidBit_lt p; omega)

theorem ready_putStatus (k : StatusKind) :
    (r.putStatus k x).ready n = if n = k.validBit then x.valid else r.ready n := by
  have h := setBit_getLsbD r.valid k.validBit n x.valid (by have := k.validBit_lt; omega)
  cases k <;> exact h

end put

theorem Ports.get_set (r : Ports) (p q : Port) (x : Word) : (r.set p x).get q = if q = p then x else r.get q := by
  cases p <;> cases q <;> rfl

theorem Ports.get_ofFn (f : Port → Word) (p : Port) : (Ports.ofFn f).get p = f p := by cases p <;> rfl

/-- Equal ports' registers are equal. -/
theorem Ports.ext_get {r q : Ports} (h : ∀ p, r.get p = q.get p) : r = q := by
  cases r; cases q
  have h1 := h .out1; have h2 := h .out2; have h3 := h .typec; have h4 := h .vin
  simp_all [Ports.get]

theorem impWord_imputed (i d : Port → Bool) (p : Port) : (impWord i d).getLsbD p.idx = i p := by
  cases p <;> simp [impWord, bitAt_getLsbD, Port.idx, -BitVec.getLsbD_eq_getElem]

theorem impWord_div0 (i d : Port → Bool) (p : Port) : (impWord i d).getLsbD (4 + p.idx) = d p := by
  cases p <;> simp [impWord, bitAt_getLsbD, Port.idx, -BitVec.getLsbD_eq_getElem]

theorem impWord_high (i d : Port → Bool) (n : Nat) (h : 8 ≤ n) : (impWord i d).getLsbD n = false := by
  simp [impWord, bitAt_getLsbD]
  omega

/-! Every decode's value is 0 when it is not ready (42_decoder.md R164 to R169). -/

theorem sat32_toNat (x : Nat) : (sat32 x).toNat = min x (2 ^ 32 - 1) := by
  rw [sat32, BitVec.toNat_ofNat]
  exact Nat.mod_eq_of_lt (by omega)

theorem fold_le (r : Raw16) : fold r ≤ 32767 := by
  have := r.isLt
  unfold fold
  split <;> omega

theorem dv_notReady (c : Config) (ch : VChan) (r : Raw16) (h : (dv c ch r).valid = false) : (dv c ch r).value = 0#32 := by
  unfold dv at *; split at h
  · rename_i h0; simp [h0, Reading.notReady]
  · cases h

theorem di_notReady (c : Config) (ch : IChan) (r : Raw16) (h : (di c ch r).valid = false) : (di c ch r).value = 0#32 := by
  unfold di at *; split at h
  · rename_i h0; simp [h0, Reading.notReady]
  · cases h

theorem dp_notReady (c : Config) (r : Raw16) (h : (dp c r).valid = false) : (dp c r).value = 0#32 := by
  unfold dp at *; split at h
  · rename_i h0; simp [h0, Reading.notReady]
  · cases h

theorem statusReading_notReady (b : Byte) (w : Word) (h : (statusReading b w).valid = false) :
    (statusReading b w).value = 0#32 := by
  unfold statusReading at *; split at h
  · rename_i h0; simp [h0, Reading.notReady]
  · cases h

theorem ds_notReady (c : Config) (k : StatusKind) (b : Byte) (h : (ds c k b).valid = false) :
    (ds c k b).value = 0#32 := by
  cases k <;> exact statusReading_notReady _ _ h

theorem vport_notReady (c : Config) (r : Results) (p : Port) (h : (vport c r p).valid = false) :
    (vport c r p).value = 0#32 := by
  unfold vport at *; split at h
  · cases h
  · rename_i h0; simp [h0, Reading.notReady]

/-! ## DERV's results (43_port_and_poll.md R190, R191) -/

theorem deriveAll_eq (c : Config) (r : Results) : deriveAll c r =
    (((r.putVport .out1 (vport c r .out1)).putVport .out2 (vport c r .out2)).putVport .typec
      (vport c r .typec)).putVport .vin (vport c r .vin) := rfl

theorem vport_valid (c : Config) (r : Results) (p : Port) : (vport c r p).valid = (r.ready 16 && r.ready 15) := by
  unfold vport
  split
  · rename_i h; exact h.symm
  · rename_i h; exact (Bool.eq_false_iff.mpr h).symm

theorem deriveAll_ready (c : Config) (r : Results) (n : Nat) :
    (deriveAll c r).ready n = if 4 ≤ n ∧ n ≤ 7 then r.ready 16 && r.ready 15 else r.ready n := by
  rw [deriveAll_eq]
  simp only [ready_putVport, vportValidBit, Port.idx, vport_valid]
  by_cases h4 : 4 ≤ n ∧ n ≤ 7
  · have : n = 4 ∨ n = 5 ∨ n = 6 ∨ n = 7 := by omega
    rcases this with rfl | rfl | rfl | rfl <;> rfl
  · rw [if_neg h4, if_neg (by omega), if_neg (by omega), if_neg (by omega), if_neg (by omega)]

theorem deriveAll_vport (c : Config) (r : Results) (p : Port) :
    (deriveAll c r).vport.get p = (vport c r p).value := by
  rw [deriveAll_eq]; cases p <;> rfl

/-- DERV writes the port voltages and VALID only. -/
theorem deriveAll_fields (c : Config) (r : Results) :
    deriveAll c r = { r with vport := (deriveAll c r).vport, valid := (deriveAll c r).valid } := rfl

end Sys2Proof.Machine
end

