-- ==== Sys2Proof/Laws/Engine.lean ====
section
/-! SUPPORT. What each engine body can do: it runs some events (`Reaches`), leaves the pins and the registers as
R112 to R117 say, and produces the trace they give. -/

namespace Sys2Proof.Machine

variable (s : State)

/-! ## Every body is a run of events -/

theorem wcell_reaches (v : Bool) : Reaches s (wcell v s) :=
  ((Reaches.refl s).setSda v).wait.setScl true |>.wait.setScl false

theorem ackHigh_reaches : Reaches s (ackHigh s) := ((Reaches.refl s).setSda true).wait.setScl true |>.wait

theorem rcellHigh_reaches : Reaches s (rcellHigh s) := ((Reaches.refl s).setSda true).wait.setScl true |>.wait

theorem rcell_reaches : Reaches s (rcell s) := (rcellHigh_reaches s).sample.setScl false

theorem wcells_reaches (bs : List Bool) : Reaches s (wcells bs s) := by
  induction bs generalizing s with
  | nil => exact Reaches.refl s
  | cons b bs ih => exact (wcell_reaches s b).trans (ih _)

theorem rcells_reaches (n : Nat) : Reaches s (rcells n s) := by
  induction n generalizing s with
  | zero => exact Reaches.refl s
  | succ n ih => exact (rcell_reaches s).trans (ih _)

theorem ackSamples_reaches (n : Nat) : Reaches s (ackSamples n s) := by
  induction n generalizing s with
  | zero => exact (Reaches.refl s).sample
  | succ n ih =>
    simp only [ackSamples]
    split
    · exact (Reaches.refl s).sample.wait.trans (ih _)
    · exact (Reaches.refl s).sample

theorem startBody_reaches : Reaches s (startBody s) :=
  (((Reaches.refl s).setSda true).wait.setScl true |>.wait.setSda false |>.wait.setScl false).setPhase .started

theorem stopBody_reaches : Reaches s (stopBody s) :=
  (((Reaches.refl s).setSda false).wait.setScl true |>.wait.setSda true |>.wait).setPhase .idle

theorem takeDir_cases (b : Byte) :
    takeDir b s = (if s.regs.phase = .started then s.setDir (b.getLsbD 0) else s) := by
  unfold takeDir; split <;> simp_all

theorem takeDir_reaches (b : Byte) : Reaches s (takeDir b s) := by
  rw [takeDir_cases]; split
  · exact (Reaches.refl s).setDir _
  · exact Reaches.refl s

theorem sendBody_reaches (b : Byte) : Reaches s (sendBody b s) :=
  ((takeDir_reaches s b).trans (wcells_reaches _ _)).setPhase .sent

theorem wackBody_reaches : Reaches s (wackBody s) :=
  (((ackHigh_reaches s).trans (ackSamples_reaches _ _)).setScl false |>.setAckf _).setPhase .acked

theorem recvBody_reaches : Reaches s (recvBody s) := ((rcells_reaches s 8).setRx _).setPhase .rcvd

theorem nackBody_reaches : Reaches s (nackBody s) := (wcell_reaches s true).setPhase .nacked

/-! ## Registers and pins after each body -/

@[simp] theorem wcell_regs (v : Bool) : (wcell v s).regs = s.regs := rfl
@[simp] theorem wcell_scl (v : Bool) : (wcell v s).bus.scl = false := rfl
@[simp] theorem wcell_sda (v : Bool) : (wcell v s).bus.sda = v := rfl
@[simp] theorem wcell_slave (v : Bool) : (wcell v s).bus.slave = s.bus.slave := rfl
@[simp] theorem wcell_shape (v : Bool) : (wcell v s).shape = s.shape ++ traceCell v := by
  simp [wcell, traceCell]

@[simp] theorem wcells_regs (bs : List Bool) : (wcells bs s).regs = s.regs := by
  induction bs generalizing s with
  | nil => rfl
  | cons b bs ih => simp [wcells, ih]

@[simp] theorem wcells_slave (bs : List Bool) : (wcells bs s).bus.slave = s.bus.slave := by
  induction bs generalizing s with
  | nil => rfl
  | cons b bs ih => simp [wcells, ih]

@[simp] theorem wcells_shape (bs : List Bool) : (wcells bs s).shape = s.shape ++ bs.flatMap traceCell := by
  induction bs generalizing s with
  | nil => simp [wcells]
  | cons b bs ih => simp [wcells, ih]

theorem startBody_regs : (startBody s).regs = { s.regs with phase := .started } := rfl
@[simp] theorem startBody_scl : (startBody s).bus.scl = false := rfl
@[simp] theorem startBody_sda : (startBody s).bus.sda = false := rfl
@[simp] theorem startBody_slave : (startBody s).bus.slave = s.bus.slave := rfl
@[simp] theorem startBody_shape : (startBody s).shape = s.shape ++ traceStart := by
  simp [startBody, traceStart]

theorem stopBody_regs : (stopBody s).regs = { s.regs with phase := .idle } := rfl
@[simp] theorem stopBody_scl : (stopBody s).bus.scl = true := rfl
@[simp] theorem stopBody_sda : (stopBody s).bus.sda = true := rfl
@[simp] theorem stopBody_slave : (stopBody s).bus.slave = s.bus.slave := rfl
@[simp] theorem stopBody_shape : (stopBody s).shape = s.shape ++ traceStop := by
  simp [stopBody, traceStop]

@[simp] theorem takeDir_bus (b : Byte) : (takeDir b s).bus = s.bus := by rw [takeDir_cases]; split <;> rfl

@[simp] theorem takeDir_shape (b : Byte) : (takeDir b s).shape = s.shape := by rw [takeDir_cases]; split <;> rfl

/-- SEND writes DIR from STARTED only, and PHASE (R114). -/
theorem sendBody_regs (b : Byte) : (sendBody b s).regs =
    { s.regs with
      dir := if s.regs.phase = .started then b.getLsbD 0 else s.regs.dir
      phase := .sent } := by
  simp only [sendBody, State.setPhase, wcells_regs, takeDir_cases]
  split <;> rfl

@[simp] theorem sendBody_scl (b : Byte) : (sendBody b s).bus.scl = false := rfl
@[simp] theorem sendBody_sda (b : Byte) : (sendBody b s).bus.sda = b.getLsbD 0 := rfl
@[simp] theorem sendBody_slave (b : Byte) : (sendBody b s).bus.slave = s.bus.slave := by simp [sendBody]
@[simp] theorem sendBody_shape (b : Byte) : (sendBody b s).shape = s.shape ++ traceByte b := by
  simp [sendBody, traceByte]

@[simp] theorem ackHigh_regs : (ackHigh s).regs = s.regs := rfl
@[simp] theorem ackHigh_sda : (ackHigh s).bus.sda = true := rfl
@[simp] theorem ackHigh_scl : (ackHigh s).bus.scl = true := rfl
@[simp] theorem ackHigh_slave : (ackHigh s).bus.slave = s.bus.slave := rfl
@[simp] theorem ackHigh_shape :
    (ackHigh s).shape = s.shape ++ [.sda true, .w 0, .scl true, .w 0] := by simp [ackHigh]

@[simp] theorem ackSamples_regs (n : Nat) : (ackSamples n s).regs = s.regs := by
  induction n generalizing s with
  | zero => rfl
  | succ n ih => simp only [ackSamples]; split <;> simp [ih]

@[simp] theorem ackSamples_sda (n : Nat) : (ackSamples n s).bus.sda = s.bus.sda := by
  induction n generalizing s with
  | zero => simp [ackSamples]
  | succ n ih => simp only [ackSamples]; split <;> simp [ih]

/-- WACK writes ACKF and PHASE (R115). -/
theorem wackBody_regs : (wackBody s).regs =
    { s.regs with ackf := ackValue (extraSamples s.regs.cfgAckpoll) (ackHigh s), phase := .acked } := by
  simp [wackBody, State.setAckf, State.setPhase]

@[simp] theorem wackBody_scl : (wackBody s).bus.scl = false := rfl
@[simp] theorem wackBody_sda : (wackBody s).bus.sda = true := by simp [wackBody]

@[simp] theorem rcell_regs : (rcell s).regs = s.regs := rfl
@[simp] theorem rcell_scl : (rcell s).bus.scl = false := rfl
@[simp] theorem rcell_sda : (rcell s).bus.sda = true := by simp [rcell, rcellHigh]
@[simp] theorem rcellHigh_sda : (rcellHigh s).bus.sda = true := rfl
@[simp] theorem rcellHigh_slave : (rcellHigh s).bus.slave = s.bus.slave := rfl
@[simp] theorem rcell_slave : (rcell s).bus.slave = s.bus.slave.tail := by
  simp [rcell, sample_slave]
@[simp] theorem rcell_shape : (rcell s).shape = s.shape ++ traceSlot (rcellHigh s).bus.sampled := by
  simp [rcell, rcellHigh, traceSlot]

@[simp] theorem rcells_regs (n : Nat) : (rcells n s).regs = s.regs := by
  induction n generalizing s with
  | zero => rfl
  | succ n ih => simp [rcells, ih]

/-- RECV writes RXDATA and PHASE (R116). -/
theorem recvBody_regs : (recvBody s).regs = { s.regs with rxdata := rcellsByte 8 0#8 s, phase := .rcvd } := by
  simp [recvBody, State.setRx, State.setPhase]

@[simp] theorem recvBody_scl : (recvBody s).bus.scl = false := rfl
@[simp] theorem recvBody_sda : (recvBody s).bus.sda = true := by simp [recvBody, rcells]

theorem nackBody_regs : (nackBody s).regs = { s.regs with phase := .nacked } := rfl
@[simp] theorem nackBody_scl : (nackBody s).bus.scl = false := rfl
@[simp] theorem nackBody_sda : (nackBody s).bus.sda = true := rfl
@[simp] theorem nackBody_slave : (nackBody s).bus.slave = s.bus.slave := rfl
@[simp] theorem nackBody_shape : (nackBody s).shape = s.shape ++ traceCell true := by simp [nackBody]

/-! ## The samples, when the environment's levels are given -/

/-- An ACK slot whose k first samples read 1 and whose next reads 0, k within the limit (R115). -/
theorem ackSamples_ack (k n : Nat) (hk : k ≤ n) (rest : List Bool) (hs : s.bus.sda = true)
    (hl : s.bus.slave = List.replicate k true ++ false :: rest) :
    ackValue n s = false ∧ (ackSamples n s).bus.slave = rest ∧
      (ackSamples n s).shape = s.shape ++ (List.replicate k [Event.s true, .w 0]).flatten ++ [.s false] := by
  induction k generalizing n s with
  | zero =>
    have hx : s.bus.sampled = false := Bus.sampled_of_slave hs (by simpa using hl)
    cases n <;> simp [ackValue, ackSamples, hx, sample_slave, hs, hl]
  | succ k ih =>
    obtain ⟨n, rfl⟩ : ∃ m, n = m + 1 := ⟨n - 1, by omega⟩
    have hx : s.bus.sampled = true := Bus.sampled_of_slave hs (by simpa [List.replicate_succ] using hl)
    have := ih (wait (sample s)) n (by omega) (by simpa using hs)
      (by simp [sample_slave, hs, hl, List.replicate_succ])
    simp only [ackValue, ackSamples, hx, if_true]
    refine ⟨this.1, this.2.1, ?_⟩
    rw [this.2.2]
    simp [hx, List.replicate_succ]

/-- An ACK slot in which every sample the limit allows reads 1 (R115). -/
theorem ackSamples_nack (n : Nat) (rest : List Bool) (hs : s.bus.sda = true)
    (hl : s.bus.slave = List.replicate (n + 1) true ++ rest) :
    ackValue n s = true ∧ (ackSamples n s).bus.slave = rest ∧
      (ackSamples n s).shape = s.shape ++ (List.replicate n [Event.s true, .w 0]).flatten ++ [.s true] := by
  induction n generalizing s with
  | zero =>
    have hx : s.bus.sampled = true := Bus.sampled_of_slave hs (by simpa using hl)
    simp [ackValue, ackSamples, hx, sample_slave, hs, hl]
  | succ n ih =>
    have hx : s.bus.sampled = true := Bus.sampled_of_slave hs (by simpa [List.replicate_succ] using hl)
    have := ih (wait (sample s)) (by simpa using hs) (by simp [sample_slave, hs, hl, List.replicate_succ])
    simp only [ackValue, ackSamples, hx, if_true]
    refine ⟨this.1, this.2.1, ?_⟩
    rw [this.2.2]
    simp [hx, List.replicate_succ]

/-- n read cells whose levels are given: the bits come in most significant first (R111, R116). -/
theorem rcells_script (bs rest : List Bool) (r : Byte) (hl : s.bus.slave = bs ++ rest) :
    rcellsByte bs.length r s = bs.foldl shiftIn r ∧ (rcells bs.length s).bus.slave = rest ∧
      (rcells bs.length s).shape = s.shape ++ bs.flatMap traceSlot := by
  induction bs generalizing s r with
  | nil => simp_all [rcellsByte, rcells]
  | cons b bs ih =>
    have hx : (rcellHigh s).bus.sampled = b := Bus.sampled_of_slave (by simp) (by simpa using hl)
    have := ih (rcell s) (shiftIn r b) (by simp [hl])
    simp only [List.length_cons, rcellsByte, rcells, hx]
    refine ⟨this.1, this.2.1, ?_⟩
    rw [this.2.2, rcell_shape, hx]
    simp

/-- A byte is the fold of its wire bits. -/
theorem foldl_wireBits (b : Byte) : (wireBits b).foldl shiftIn 0#8 = b := by
  revert b; decide

/-- RECV's byte, when the environment gives the bits of b (R116). -/
theorem recvBody_script (b : Byte) (rest : List Bool) (hl : s.bus.slave = wireBits b ++ rest) :
    (recvBody s).regs.rxdata = b ∧ (recvBody s).bus.slave = rest ∧
      (recvBody s).shape = s.shape ++ traceRead b := by
  have h := rcells_script s (wireBits b) rest 0#8 hl
  rw [foldl_wireBits, show (wireBits b).length = 8 from rfl] at h
  refine ⟨by simpa [recvBody_regs] using h.1, by simpa [recvBody] using h.2.1, ?_⟩
  simpa [recvBody, traceRead] using h.2.2

/-- WACK, when the slave answers ACK at once (R115, any limit). -/
theorem wackBody_ack (rest : List Bool) (hl : s.bus.slave = false :: rest) :
    (wackBody s).regs.ackf = false ∧ (wackBody s).bus.slave = rest ∧
      (wackBody s).shape = s.shape ++ traceSlot false := by
  have h := ackSamples_ack (ackHigh s) 0 (extraSamples s.regs.cfgAckpoll) (by omega) rest (by simp) (by simpa using hl)
  refine ⟨by simpa [wackBody_regs] using h.1, by simpa [wackBody] using h.2.1, ?_⟩
  simp [wackBody, h.2.2, traceSlot]

/-- WACK, when every sample of the slot reads 1 (R115). -/
theorem wackBody_nack (rest : List Bool)
    (hl : s.bus.slave = List.replicate (extraSamples s.regs.cfgAckpoll + 1) true ++ rest) :
    (wackBody s).regs.ackf = true ∧ (wackBody s).bus.slave = rest := by
  have h := ackSamples_nack (ackHigh s) (extraSamples s.regs.cfgAckpoll) rest (by simp) (by simpa using hl)
  exact ⟨by simpa [wackBody_regs] using h.1, by simpa [wackBody] using h.2.1⟩

end Sys2Proof.Machine
end

