-- ==== Sys2Proof/Laws/PerInstr.lean ====
section
/-! SUPPORT. The family Covered: a well-formed command's word lies in its row of the opcode table
(30_encoding.md R95), one lemma per command. -/

namespace Sys2Proof

section masks
variable (o a b : Byte) (s : BitVec 4)

/-- The mask of a command whose operand is B0. -/
theorem packWord_mask_b0 : packWord o s a b &&& 0xFFFFFF00#32 = packWord o s a 0#8 := by
  apply BitVec.eq_of_getLsbD_eq; intro i hi
  interval_cases i <;> simp [packWord]

/-- The mask of a command whose operand is B1. -/
theorem packWord_mask_b1 : packWord o s a b &&& 0xFFFF00FF#32 = packWord o s 0#8 b := by
  apply BitVec.eq_of_getLsbD_eq; intro i hi
  interval_cases i <;> simp [packWord]

/-- The mask of a command whose operands are B1 and B0. -/
theorem packWord_mask_bytes : packWord o s a b &&& 0xFFFF0000#32 = packWord o s 0#8 0#8 := by
  apply BitVec.eq_of_getLsbD_eq; intro i hi
  interval_cases i <;> simp [packWord]

/-- The mask of SETADDR, for an operand that fits seven bits. -/
theorem packWord_mask_low7 (h : saddrFits b = true) :
    packWord o s a b &&& 0xFFFFFF80#32 = packWord o s a 0#8 := by
  have h7 : b[7] = false := by revert b; decide
  apply BitVec.eq_of_getLsbD_eq; intro i hi
  interval_cases i <;> simp [packWord, h7]

end masks

/-- A word lies in a row when it agrees with the row's pattern on its mask. -/
theorem OpRow.covers_of {r : OpRow} {w : Word} (h : w &&& r.mask = r.pat) : r.covers w = true := by
  simp [OpRow.covers, h]

end Sys2Proof

namespace Sys2Proof.Laws.Covered

/-- The command's word lies in the command's row. -/
def Statement (i : Instr) : Prop := i.wellFormed = true → i.row.covers (encode i) = true

theorem nop : Statement .nop := fun _ => by decide
theorem start : Statement .start := fun _ => by decide
theorem stop : Statement .stop := fun _ => by decide
theorem send (b : Byte) : Statement (.send b) := fun _ => OpRow.covers_of (packWord_mask_b0 _ _ _ _)
theorem wack : Statement .wack := fun _ => by decide
theorem recv : Statement .recv := fun _ => by decide
theorem nack : Statement .nack := fun _ => by decide
theorem wreg (a v : Byte) : Statement (.wreg a v) := fun _ => OpRow.covers_of (packWord_mask_bytes _ _ _ _)
theorem rreg (a : Byte) : Statement (.rreg a) := fun _ => OpRow.covers_of (packWord_mask_b1 _ _ _ _)
theorem decvVbat (r : Raw16) : Statement (.decvVbat r) := fun _ => OpRow.covers_of (packWord_mask_bytes _ _ _ _)
theorem decvOcv (r : Raw16) : Statement (.decvOcv r) := fun _ => OpRow.covers_of (packWord_mask_bytes _ _ _ _)
theorem deciIbat (r : Raw16) : Statement (.deciIbat r) := fun _ => OpRow.covers_of (packWord_mask_bytes _ _ _ _)
theorem deciOut1 (r : Raw16) : Statement (.deciOut1 r) := fun _ => OpRow.covers_of (packWord_mask_bytes _ _ _ _)
theorem deciOut2 (r : Raw16) : Statement (.deciOut2 r) := fun _ => OpRow.covers_of (packWord_mask_bytes _ _ _ _)
theorem deciTypec (r : Raw16) : Statement (.deciTypec r) := fun _ => OpRow.covers_of (packWord_mask_bytes _ _ _ _)
theorem deciVin (r : Raw16) : Statement (.deciVin r) := fun _ => OpRow.covers_of (packWord_mask_bytes _ _ _ _)
theorem decp (r : Raw16) : Statement (.decp r) := fun _ => OpRow.covers_of (packWord_mask_bytes _ _ _ _)
theorem decsSys (b : Byte) : Statement (.decsSys b) := fun _ => OpRow.covers_of (packWord_mask_b0 _ _ _ _)
theorem decsChg (b : Byte) : Statement (.decsChg b) := fun _ => OpRow.covers_of (packWord_mask_b0 _ _ _ _)
theorem decsNtc (b : Byte) : Statement (.decsNtc b) := fun _ => OpRow.covers_of (packWord_mask_b0 _ _ _ _)
theorem decsBoost (b : Byte) : Statement (.decsBoost b) := fun _ => OpRow.covers_of (packWord_mask_b0 _ _ _ _)
theorem decsMos (b : Byte) : Statement (.decsMos b) := fun _ => OpRow.covers_of (packWord_mask_b0 _ _ _ _)
theorem derv : Statement .derv := fun _ => by decide
theorem impute : Statement .impute := fun _ => by decide
theorem poll : Statement .poll := fun _ => by decide
theorem setdly (d : BitVec 16) : Statement (.setdly d) := fun _ => OpRow.covers_of (packWord_mask_bytes _ _ _ _)
theorem setaddr (a : Byte) : Statement (.setaddr a) := fun h => OpRow.covers_of (packWord_mask_low7 _ _ _ _ h)
theorem setpoll (n : Byte) : Statement (.setpoll n) := fun _ => OpRow.covers_of (packWord_mask_b0 _ _ _ _)

end Sys2Proof.Laws.Covered
end

