-- ==== Sys2Proof/Laws/RegAccess.lean ====
section
/-! SUPPORT. What a byte with its ACK slot and a device read can do, whatever the slaves answer, and what they do when
the answers are given (40_i2c_engine.md R115, 41_register_access.md R140 to R143). -/

namespace Sys2Proof.Machine

variable (s : State)

/-- WACK's body on any environment: one slot of R115. -/
theorem wackBody_slot :
    ∃ es, SlotOf s.regs.cfgAckpoll (wackBody s).regs.ackf es ∧ (wackBody s).shape = s.shape ++ es := by
  have key : ∀ n (u : State), u.bus.sda = true → ∃ k, k ≤ n ∧ (ackValue n u = true → k = n) ∧
      (ackSamples n u).shape =
        u.shape ++ (List.replicate k [Event.s true, .w 0]).flatten ++ [.s (ackValue n u)] := by
    intro n
    induction n with
    | zero => intro u _; exact ⟨0, by simp, by simp, by simp [ackSamples, ackValue]⟩
    | succ n ih =>
      intro u hu
      cases hx : u.bus.sampled with
      | false => exact ⟨0, by omega, by simp [ackValue, hx], by simp [ackSamples, ackValue, hx]⟩
      | true =>
        obtain ⟨k, hk, hl, he⟩ := ih (wait (sample u)) (by simpa using hu)
        refine ⟨k + 1, by omega, by simpa [ackValue, hx] using hl, ?_⟩
        simp only [ackSamples, ackValue, hx, if_true]
        rw [he]
        simp [hx, List.replicate_succ]
  obtain ⟨k, hk, hl, he⟩ := key (extraSamples s.regs.cfgAckpoll) (ackHigh s) (by simp)
  refine ⟨_, ⟨k, ?_, ?_, rfl⟩, ?_⟩
  · unfold extraSamples at hk; omega
  · rw [wackBody_regs]; intro h; have := hl h; unfold extraSamples at this; omega
  · simp [wackBody, he, traceAck]

theorem sendAck_reaches (b : Byte) : Reaches s (sendAck b s) :=
  (sendBody_reaches s b).trans (wackBody_reaches _)

/-- A byte and its slot write ACKF, DIR (from STARTED) and PHASE. -/
theorem sendAck_regs (b : Byte) : (sendAck b s).regs =
    { s.regs with
      ackf := (sendAck b s).regs.ackf
      dir := if s.regs.phase = .started then b.getLsbD 0 else s.regs.dir
      phase := .acked } := by
  simp [sendAck, wackBody_regs, sendBody_regs]

/-- A byte and its slot on any environment. -/
theorem sendAck_shape (b : Byte) : ∃ es, SlotOf s.regs.cfgAckpoll (sendAck b s).regs.ackf es ∧
    (sendAck b s).shape = s.shape ++ traceByte b ++ es := by
  obtain ⟨es, h, k⟩ := wackBody_slot (sendBody b s)
  exact ⟨es, by simpa [sendAck, sendBody_regs] using h, by simp [sendAck, k]⟩

theorem sendAck_ack (b : Byte) (rest : List Bool) (hl : s.bus.slave = false :: rest) :
    (sendAck b s).regs.ackf = false ∧ (sendAck b s).bus.slave = rest ∧
      (sendAck b s).shape = s.shape ++ traceByte b ++ traceSlot false := by
  have h := wackBody_ack (sendBody b s) rest (by simpa using hl)
  exact ⟨h.1, h.2.1, by simp [sendAck, h.2.2]⟩

theorem sendAck_nack (b : Byte) (rest : List Bool)
    (hl : s.bus.slave = List.replicate (max 1 s.regs.cfgAckpoll.toNat) true ++ rest) :
    (sendAck b s).regs.ackf = true ∧ (sendAck b s).bus.slave = rest := by
  have hn : extraSamples s.regs.cfgAckpoll + 1 = max 1 s.regs.cfgAckpoll.toNat := by
    unfold extraSamples; omega
  exact wackBody_nack (sendBody b s) rest (by simpa [sendBody_regs, hn] using hl)

/-- RECV on any environment: some byte comes in. -/
theorem recvBody_some : (recvBody s).shape = s.shape ++ traceRead (recvBody s).regs.rxdata := by
  have key : ∀ n (u : State), ∃ bs : List Bool, bs.length = n ∧ (∀ r, rcellsByte n r u = bs.foldl shiftIn r) ∧
      (rcells n u).shape = u.shape ++ bs.flatMap traceSlot := by
    intro n
    induction n with
    | zero => intro u; exact ⟨[], rfl, by simp [rcellsByte], by simp [rcells]⟩
    | succ n ih =>
      intro u
      obtain ⟨bs, h1, h2, h3⟩ := ih (rcell u)
      exact ⟨(rcellHigh u).bus.sampled :: bs, by simp [h1], by simp [rcellsByte, h2], by simp [rcells, h3]⟩
  obtain ⟨bs, h1, h2, h3⟩ := key 8 s
  have hw : ∀ b0 b1 b2 b3 b4 b5 b6 b7 : Bool,
      wireBits ([b0, b1, b2, b3, b4, b5, b6, b7].foldl shiftIn 0#8) = [b0, b1, b2, b3, b4, b5, b6, b7] := by decide
  match bs, h1 with
  | [b0, b1, b2, b3, b4, b5, b6, b7], _ =>
    rw [recvBody_regs]
    simp only [h2, traceRead, hw]
    simpa [recvBody] using h3

theorem devRead_start (a : Byte) : devRead a s =
    (let s1 := sendAck (addrByte s.regs.cfgSaddr false) (startBody s)
     if s1.regs.ackf then .nack .nackWaddr s1
     else
       let s2 := sendAck a s1
       if s2.regs.ackf then .nack .nackReg s2
       else
         let s3 := sendAck (addrByte s.regs.cfgSaddr true) (startBody s2)
         if s3.regs.ackf then .nack .nackRaddr s3 else .ok (stopBody (nackBody (recvBody s3)))) := rfl

@[simp] theorem addrByte_bit0 (sa : SlaveAddr) (rw : Bool) : (addrByte sa rw).getLsbD 0 = rw := by
  cases rw <;> simp [addrByte]

/-- What a device read can do, on any environment: it ends after its STOP with some byte, or at the first slot that
reads NACK (R141, R143). In both cases the events are those of R141. -/
theorem devRead_cases (a : Byte) :
    (∃ t b es, devRead a s = .ok t ∧ Reaches s t ∧ ReadOf s.regs a b es ∧ t.shape = s.shape ++ es ∧
      t.bus.Released ∧ t.regs = { s.regs with ackf := false, dir := true, rxdata := b, phase := .idle }) ∨
    (∃ t e es, devRead a s = .nack e t ∧ Reaches s t ∧ FailedReadOf s.regs a e es ∧
      (stopBody t).shape = s.shape ++ es ∧
      t.regs = { s.regs with ackf := true, dir := failedDir e, phase := .acked }) := by
  rw [devRead_start]
  generalize h1 : sendAck (addrByte s.regs.cfgSaddr false) (startBody s) = s1
  obtain ⟨e1, k1, p1⟩ := sendAck_shape (startBody s) (addrByte s.regs.cfgSaddr false)
  have r1 := sendAck_regs (startBody s) (addrByte s.regs.cfgSaddr false)
  have q1 := (startBody_reaches s).trans (sendAck_reaches (startBody s) (addrByte s.regs.cfgSaddr false))
  rw [h1] at k1 p1 r1 q1
  simp only [startBody_regs, startBody_shape, if_true, addrByte_bit0] at k1 p1 r1
  cases ha1 : s1.regs.ackf with
  | true =>
    rw [ha1] at k1 r1
    exact .inr ⟨s1, .nackWaddr, _, by simp [ha1], q1, .inl ⟨rfl, e1, k1, rfl⟩, by simp [p1], by rw [r1]; rfl⟩
  | false =>
    rw [ha1] at k1 r1
    generalize h2 : sendAck a s1 = s2
    obtain ⟨e2, k2, p2⟩ := sendAck_shape s1 a
    have r2 := sendAck_regs s1 a
    have q2 := q1.trans (sendAck_reaches s1 a)
    rw [h2] at k2 p2 r2 q2
    simp only [r1, reduceCtorEq, if_false] at k2 r2
    cases ha2 : s2.regs.ackf with
    | true =>
      rw [ha2] at k2 r2
      exact .inr ⟨s2, .nackReg, _, by simp [ha1, h2, ha2], q2, .inr (.inl ⟨rfl, e1, e2, k1, k2, rfl⟩),
        by simp [p1, p2], by rw [r2]; rfl⟩
    | false =>
      rw [ha2] at k2 r2
      generalize h3 : sendAck (addrByte s.regs.cfgSaddr true) (startBody s2) = s3
      obtain ⟨e3, k3, p3⟩ := sendAck_shape (startBody s2) (addrByte s.regs.cfgSaddr true)
      have r3 := sendAck_regs (startBody s2) (addrByte s.regs.cfgSaddr true)
      have q3 := (q2.trans (startBody_reaches s2)).trans
        (sendAck_reaches (startBody s2) (addrByte s.regs.cfgSaddr true))
      rw [h3] at k3 p3 r3 q3
      simp only [startBody_regs, startBody_shape, r2, if_true, addrByte_bit0] at k3 p3 r3
      cases ha3 : s3.regs.ackf with
      | true =>
        rw [ha3] at k3 r3
        exact .inr ⟨s3, .nackRaddr, _, by simp [ha1, h2, ha2, h3, ha3], q3,
          .inr (.inr ⟨rfl, e1, e2, e3, k1, k2, k3, rfl⟩), by simp [p1, p2, p3], by rw [r3]; rfl⟩
      | false =>
        rw [ha3] at k3 r3
        refine .inl ⟨_, (recvBody s3).regs.rxdata, _, by simp [ha1, h2, ha2, h3, ha3]; rfl, ?_,
          ⟨e1, e2, e3, k1, k2, k3, rfl⟩, ?_, ⟨by simp, by simp⟩, ?_⟩
        · exact ((q3.trans (recvBody_reaches s3)).trans (nackBody_reaches _)).trans (stopBody_reaches _)
        · rw [stopBody_shape, nackBody_shape, recvBody_some, p3, p2, p1]
          simp
        · rw [stopBody_regs, nackBody_regs, recvBody_regs, r3]

/-- A device read, when every slot ACKs at once and the slave gives the byte b. -/
theorem devRead_script (a b : Byte) (rest : List Bool)
    (hl : s.bus.slave = [false, false, false] ++ wireBits b ++ rest) :
    ∃ t, devRead a s = .ok t ∧ Reaches s t ∧ t.bus.slave = rest ∧ t.bus.Released ∧
      t.shape = s.shape ++ traceStart ++ traceByte (addrByte s.regs.cfgSaddr false) ++ traceSlot false ++
        traceByte a ++ traceSlot false ++ traceStart ++ traceByte (addrByte s.regs.cfgSaddr true) ++
        traceSlot false ++ traceRead b ++ traceCell true ++ traceStop ∧
      t.regs = { s.regs with ackf := false, dir := true, rxdata := b, phase := .idle } := by
  rw [devRead_start]
  obtain ⟨a1, l1, p1⟩ := sendAck_ack (startBody s) (addrByte s.regs.cfgSaddr false) _
    (by rw [startBody_slave]; exact hl)
  have r1 := sendAck_regs (startBody s) (addrByte s.regs.cfgSaddr false)
  have q1 := (startBody_reaches s).trans (sendAck_reaches (startBody s) (addrByte s.regs.cfgSaddr false))
  generalize h1 : sendAck (addrByte s.regs.cfgSaddr false) (startBody s) = s1 at *
  obtain ⟨a2, l2, p2⟩ := sendAck_ack s1 a _ l1
  have r2 := sendAck_regs s1 a
  have q2 := q1.trans (sendAck_reaches s1 a)
  generalize h2 : sendAck a s1 = s2 at *
  obtain ⟨a3, l3, p3⟩ := sendAck_ack (startBody s2) (addrByte s.regs.cfgSaddr true) _
    (by rw [startBody_slave]; exact l2)
  have r3 := sendAck_regs (startBody s2) (addrByte s.regs.cfgSaddr true)
  have q3 := (q2.trans (startBody_reaches s2)).trans
    (sendAck_reaches (startBody s2) (addrByte s.regs.cfgSaddr true))
  generalize h3 : sendAck (addrByte s.regs.cfgSaddr true) (startBody s2) = s3 at *
  obtain ⟨b4, l4, p4⟩ := recvBody_script s3 b rest l3
  refine ⟨stopBody (nackBody (recvBody s3)), by simp [a1, h2, a2, h3, a3], ?_, by simp [l4], ⟨by simp, by simp⟩, ?_, ?_⟩
  · exact ((q3.trans (recvBody_reaches s3)).trans (nackBody_reaches _)).trans (stopBody_reaches _)
  · rw [stopBody_shape, nackBody_shape, p4, p3, startBody_shape, p2, p1, startBody_shape]
  · have b4' : rcellsByte 8 0#8 s3 = b := by simpa [recvBody_regs] using b4
    rw [a1] at r1
    rw [a2] at r2
    rw [stopBody_regs, nackBody_regs, recvBody_regs, b4', r3, a3]
    simp only [startBody_regs, r2, r1, if_true, addrByte_bit0]

/-- A device read, when the first j slots ACK at once and the next reads NACK throughout. -/
theorem devRead_nackAt (a : Byte) (j : Nat) (hj : j < 3) (rest : List Bool)
    (hl : s.bus.slave =
      List.replicate j false ++ List.replicate (max 1 s.regs.cfgAckpoll.toNat) true ++ rest) :
    ∃ t, devRead a s = .nack (if j = 0 then .nackWaddr else if j = 1 then .nackReg else .nackRaddr) t ∧
      t.bus.slave = rest := by
  rw [devRead_start]
  have r1 := sendAck_regs (startBody s) (addrByte s.regs.cfgSaddr false)
  interval_cases j
  · obtain ⟨a1, l1⟩ := sendAck_nack (startBody s) (addrByte s.regs.cfgSaddr false) rest
      (by simpa [startBody_regs] using hl)
    exact ⟨_, by simp [a1], l1⟩
  · obtain ⟨a1, l1, -⟩ := sendAck_ack (startBody s) (addrByte s.regs.cfgSaddr false)
      (List.replicate (max 1 s.regs.cfgAckpoll.toNat) true ++ rest) (by rw [startBody_slave]; simpa using hl)
    generalize h1 : sendAck (addrByte s.regs.cfgSaddr false) (startBody s) = s1 at *
    obtain ⟨a2, l2⟩ := sendAck_nack s1 a rest (by rw [l1, r1]; rfl)
    exact ⟨_, by simp [a1, a2], l2⟩
  · obtain ⟨a1, l1, -⟩ := sendAck_ack (startBody s) (addrByte s.regs.cfgSaddr false)
      (false :: (List.replicate (max 1 s.regs.cfgAckpoll.toNat) true ++ rest))
      (by rw [startBody_slave]; simpa using hl)
    generalize h1 : sendAck (addrByte s.regs.cfgSaddr false) (startBody s) = s1 at *
    obtain ⟨a2, l2, -⟩ := sendAck_ack s1 a _ l1
    have r2 := sendAck_regs s1 a
    generalize h2 : sendAck a s1 = s2 at *
    obtain ⟨a3, l3⟩ := sendAck_nack (startBody s2) (addrByte s.regs.cfgSaddr true) rest
      (by rw [startBody_slave, l2, startBody_regs, r2, r1]; rfl)
    exact ⟨_, by simp [a1, h2, a2, a3], l3⟩

end Sys2Proof.Machine
end

