-- ==== Sys2Proof/Laws/PortPoll.lean ====
section
/-! SUPPORT. What a sequence of device reads can do (43_port_and_poll.md R194 to R196). -/

namespace Sys2Proof.Machine

theorem readAll_cons (a : Byte) (as : List Byte) (s : State) : readAll (a :: as) s =
    match devRead a s with
    | .nack e t => .nack e t
    | .ok t =>
      match readAll as t with
      | .nack e u => .nack e u
      | .ok bs u => .ok (t.regs.rxdata :: bs) u := rfl

/-- On any environment, from IDLE, some device reads end with a byte for each address, or at the first slot that reads
NACK, with a byte for each address before it. -/
theorem readAll_cases (as : List Byte) (s : State) (hp : s.regs.phase = .idle) :
    (∃ bytes traces t, readAll as s = .ok bytes t ∧ bytes.length = as.length ∧ Reaches s t ∧
      List.Forall₂ (fun (ab : Byte × Byte) es => ReadOf s.regs ab.1 ab.2 es) (as.zip bytes) traces ∧
      t.shape = s.shape ++ traces.flatten ∧ (as = [] → t = s) ∧
      (as ≠ [] → t.bus.Released ∧
        t.regs = { s.regs with ackf := false, dir := true, rxdata := bytes.getLastD 0#8 })) ∨
    (∃ k bytes traces e es t, k < as.length ∧ bytes.length = k ∧ readAll as s = .nack e t ∧ Reaches s t ∧
      List.Forall₂ (fun (ab : Byte × Byte) es => ReadOf s.regs ab.1 ab.2 es) ((as.take k).zip bytes) traces ∧
      FailedReadOf s.regs (as.getD k 0#8) e es ∧ (stopBody t).shape = s.shape ++ traces.flatten ++ es ∧
      (∃ x, t.regs = { s.regs with ackf := true, dir := failedDir e, phase := .acked, rxdata := x })) := by
  induction as generalizing s with
  | nil => exact .inl ⟨[], [], s, rfl, rfl, Reaches.refl s, .nil, by simp, by simp, by simp⟩
  | cons a as ih =>
    rw [readAll_cons]
    rcases devRead_cases s a with ⟨t, b, es, h, q, k, p, br, r⟩ | ⟨t, e, es, h, q, k, p, r⟩
    · rw [h]
      have hs : ∀ c d es, ReadOf t.regs c d es = ReadOf s.regs c d es := by intros; rw [r]; rfl
      have hf : ∀ c d es, FailedReadOf t.regs c d es = FailedReadOf s.regs c d es := by intros; rw [r]; rfl
      have hx : t.regs.rxdata = b := by rw [r]
      rcases ih t (by rw [r]) with ⟨bytes, traces, u, h1, h2, h3, h5, h6, h7, h8⟩ |
        ⟨k', bytes, traces, e, fs, u, h1, h2, h3, h4, h5, h6, h7, x, h8⟩
      · left
        refine ⟨b :: bytes, es :: traces, u, by simp [h1, hx], by simp [h2], q.trans h3, ?_, ?_, by simp, ?_⟩
        · exact .cons k (by simp only [hs] at h5; exact h5)
        · rw [h6, p]; simp
        · intro _
          cases as with
          | nil =>
            obtain rfl : u = t := h7 rfl
            obtain rfl : bytes = [] := by simpa using h2
            refine ⟨br, ?_⟩
            rw [r, ← hp]; rfl
          | cons a' as =>
            refine ⟨(h8 (by simp)).1, ?_⟩
            rw [(h8 (by simp)).2, r, ← hp]
            cases bytes with
            | nil => simp at h2
            | cons c bytes => simp
      · right
        refine ⟨k' + 1, b :: bytes, es :: traces, e, fs, u, by simpa using h1, by simp [h2], by simp [h3],
          q.trans h4, ?_, by simpa [hf] using h6, ?_, x, ?_⟩
        · exact .cons k (by simp only [hs] at h5; exact h5)
        · rw [h7, p]; simp
        · rw [h8, r]
    · rw [h]
      right
      exact ⟨0, [], [], e, es, t, by simp, rfl, rfl, q, by simp, by simpa using k, by simpa using p, s.regs.rxdata, r⟩

theorem countWaits_append (es fs : List Event) : countWaits (es ++ fs) = countWaits es + countWaits fs :=
  List.countP_append

theorem countSamples_append (es fs : List Event) : countSamples (es ++ fs) = countSamples es + countSamples fs :=
  List.countP_append

/-! The waits and samples of the pieces of a transaction (70_reset_and_hazards.md R264). -/

@[simp] theorem countWaits_start : countWaits traceStart = 3 := rfl
@[simp] theorem countWaits_stop : countWaits traceStop = 3 := rfl
@[simp] theorem countWaits_cell (v : Bool) : countWaits (traceCell v) = 2 := rfl
@[simp] theorem countWaits_slot (b : Bool) : countWaits (traceSlot b) = 2 := rfl
@[simp] theorem countWaits_byte (x : Byte) : countWaits (traceByte x) = 16 := rfl
@[simp] theorem countWaits_read (x : Byte) : countWaits (traceRead x) = 16 := rfl
@[simp] theorem countSamples_start : countSamples traceStart = 0 := rfl
@[simp] theorem countSamples_stop : countSamples traceStop = 0 := rfl
@[simp] theorem countSamples_cell (v : Bool) : countSamples (traceCell v) = 0 := rfl
@[simp] theorem countSamples_slot (b : Bool) : countSamples (traceSlot b) = 1 := rfl
@[simp] theorem countSamples_byte (x : Byte) : countSamples (traceByte x) = 0 := rfl
@[simp] theorem countSamples_read (x : Byte) : countSamples (traceRead x) = 8 := rfl

/-- The lengths of the waits make no difference to the counts. -/
theorem countWaits_shape (s : State) : countWaits s.shape = countWaits s.trace := by
  unfold State.shape countWaits
  rw [List.countP_map]
  congr 1; funext e; cases e <;> rfl

theorem countSamples_shape (s : State) : countSamples s.shape = countSamples s.trace := by
  unfold State.shape countSamples
  rw [List.countP_map]
  congr 1; funext e; cases e <;> rfl

theorem countPins_shape (s : State) : countPins s.shape = countPins s.trace := by
  unfold State.shape countPins
  rw [List.countP_map]
  congr 1; funext e; cases e <;> rfl

/-- Some device reads, when every slot ACKs at once and the slave gives the bytes: no read is left out, and each takes
81 waits and 11 samples (41_register_access.md R147). -/
theorem readAll_script (as bytes : List Byte) (rest : List Bool) (s : State) (hn : as.length = bytes.length)
    (hl : s.bus.slave = bytes.flatMap (fun b => [false, false, false] ++ wireBits b) ++ rest) :
    ∃ t es, readAll as s = .ok bytes t ∧ t.bus.slave = rest ∧ t.shape = s.shape ++ es ∧
      countWaits es = 81 * as.length ∧ countSamples es = 11 * as.length := by
  induction as generalizing s bytes with
  | nil =>
    obtain rfl : bytes = [] := by simpa using hn.symm
    exact ⟨s, [], rfl, by simpa using hl, by simp, rfl, rfl⟩
  | cons a as ih =>
    cases bytes with
    | nil => simp at hn
    | cons b bytes =>
      obtain ⟨t, h, -, l, -, p, r⟩ := devRead_script s a b
        (bytes.flatMap (fun b => [false, false, false] ++ wireBits b) ++ rest) (by rw [hl]; simp)
      obtain ⟨u, es, h', l', p', hw, hs⟩ := ih bytes t (by simpa using hn) l
      refine ⟨u, traceStart ++ traceByte (addrByte s.regs.cfgSaddr false) ++ traceSlot false ++
        traceByte a ++ traceSlot false ++ traceStart ++ traceByte (addrByte s.regs.cfgSaddr true) ++
        traceSlot false ++ traceRead b ++ traceCell true ++ traceStop ++ es,
        by rw [readAll_cons, h]; simp only [h', r], l', by rw [p', p]; simp, ?_, ?_⟩
      · simp only [countWaits_append, countWaits_start, countWaits_stop, countWaits_cell, countWaits_slot,
          countWaits_byte, countWaits_read, hw, List.length_cons]
        omega
      · simp only [countSamples_append, countSamples_start, countSamples_stop, countSamples_cell, countSamples_slot,
          countSamples_byte, countSamples_read, hs, List.length_cons]
        omega

/-- Some device reads, when the slave gives fewer bytes than there are addresses and then a NACK in slot j. -/
theorem readAll_nackAt (as bytes : List Byte) (j : Nat) (hj : j < 3) (rest : List Bool) (s : State)
    (hn : bytes.length < as.length)
    (hl : s.bus.slave = bytes.flatMap (fun b => [false, false, false] ++ wireBits b) ++
      (List.replicate j false ++ List.replicate (max 1 s.regs.cfgAckpoll.toNat) true ++ rest)) :
    ∃ t, readAll as s = .nack (if j = 0 then .nackWaddr else if j = 1 then .nackReg else .nackRaddr) t ∧
      t.bus.slave = rest := by
  induction as generalizing s bytes with
  | nil => simp at hn
  | cons a as ih =>
    cases bytes with
    | nil =>
      obtain ⟨t, h, l⟩ := devRead_nackAt s a j hj rest (by simpa using hl)
      exact ⟨t, by rw [readAll_cons, h], l⟩
    | cons b bytes =>
      obtain ⟨t, h, -, l, -, -, r⟩ := devRead_script s a b
        (bytes.flatMap (fun b => [false, false, false] ++ wireBits b) ++
          (List.replicate j false ++ List.replicate (max 1 s.regs.cfgAckpoll.toNat) true ++ rest))
        (by rw [hl]; simp)
      obtain ⟨u, h', l'⟩ := ih bytes t (by simpa using hn) (by rw [l, r])
      exact ⟨u, by rw [readAll_cons, h]; simp only [h'], l'⟩

@[simp] theorem pollAddrs_length (c : Config) : (pollAddrs c).length = 21 := rfl

end Sys2Proof.Machine
end

