-- ==== Sys2Proof/Laws/Sequencer.lean ====
section
/-! SUPPORT. What a whole command and one clock edge can do. -/

namespace Sys2Proof.Machine

/-! ## The commands as runs -/

theorem abortWrite_reaches (e : Err) (s : State) : Reaches s (abortWrite e s) := (stopBody_reaches s).setErr _

theorem abortRead_reaches (e : Err) (s : State) : Reaches s (abortRead e s) :=
  ((stopBody_reaches s).setRx _).setErr _

theorem pollAbort_reaches (e : Err) (s : State) : Reaches s (pollAbort e s) :=
  (((stopBody_reaches s).setRx _).setRes _).setErr _

theorem wregBody_reaches (a v : Byte) (s : State) : Reaches s (wregBody a v s) := by
  have r1 := (startBody_reaches s).trans (sendAck_reaches (startBody s) (addrByte s.regs.cfgSaddr false))
  have r2 := r1.trans (sendAck_reaches _ a)
  have r3 := r2.trans (sendAck_reaches _ v)
  unfold wregBody
  dsimp only
  split
  · exact r1.trans (abortWrite_reaches _ _)
  · split
    · exact r2.trans (abortWrite_reaches _ _)
    · split
      · exact r3.trans (abortWrite_reaches _ _)
      · exact (r3.trans (stopBody_reaches _)).setErr _

theorem rregBody_reaches (a : Byte) (s : State) : Reaches s (rregBody a s) := by
  unfold rregBody
  rcases devRead_cases s a with ⟨t, b, es, h, q, -⟩ | ⟨t, e, es, h, q, -⟩
  · rw [h]; exact q.setErr _
  · rw [h]; exact q.trans (abortRead_reaches _ _)

theorem readAll_reaches (as : List Byte) (s : State) :
    (∃ bytes t, readAll as s = .ok bytes t ∧ Reaches s t) ∨ (∃ e t, readAll as s = .nack e t ∧ Reaches s t) := by
  induction as generalizing s with
  | nil => exact .inl ⟨[], s, rfl, Reaches.refl s⟩
  | cons a as ih =>
    rw [readAll_cons]
    rcases devRead_cases s a with ⟨t, b, es, h, q, -⟩ | ⟨t, e, es, h, q, -⟩
    · rcases ih t with ⟨bytes, u, h', q'⟩ | ⟨e, u, h', q'⟩
      · exact .inl ⟨t.regs.rxdata :: bytes, u, by rw [h]; simp only [h'], q.trans q'⟩
      · exact .inr ⟨e, u, by rw [h]; simp only [h'], q.trans q'⟩
    · exact .inr ⟨e, t, by rw [h], q⟩

theorem pollBody_reaches (c : Config) (s : State) : Reaches s (pollBody c s) := by
  unfold pollBody
  rcases readAll_reaches (pollAddrs c) s with ⟨bytes, t, h, q⟩ | ⟨e, t, h, q⟩
  · rw [h]; exact (q.setRes _).setErr _
  · rw [h]; exact q.trans (pollAbort_reaches _ _)

theorem checked_reaches (ok : Bool) {body : State → State} (s : State) (h : Reaches s (body s)) :
    Reaches s (checked ok body s) := by
  unfold checked
  split
  · exact h.setErr _
  · exact (Reaches.refl s).setErr _

theorem transact_reaches {body : State → State} (s : State) (h : Reaches s (body s)) :
    Reaches s (transact body s) := by
  unfold transact
  split
  · exact h
  · exact (Reaches.refl s).setErr _

/-- `exec` is the command on the block with the defaults of R7. -/
theorem execOf_block (i : Instr) (s : State) : execOf Config.block i s = exec i s := by cases i <;> rfl

/-- The block of `step` is the block with the defaults of R7. -/
theorem Block.of_block : Block.of Config.block = Block.default := by
  simp only [Block.of, Block.default, Regs.reset, Block.mk.injEq, and_true]
  funext i s
  exact execOf_block i s

/-- On every block every command ends in a next state. But for SETDLY, which writes CFG_DELAY and touches no pin, that state is
reached by a run that keeps CFG_DELAY. -/
theorem execOf_outcome (c : Config) (i : Instr) (s : State) :
    ∃ t, execOf c i s = .next t ∧ (Reaches s t ∨ ∃ d, i = .setdly d ∧ t = (s.setDelay d).done) := by
  cases i with
  | nop => exact ⟨_, rfl, .inl ((Reaches.refl s).setErr _)⟩
  | start => exact ⟨_, rfl, .inl (checked_reaches _ s (startBody_reaches s))⟩
  | stop => exact ⟨_, rfl, .inl (checked_reaches _ s (stopBody_reaches s))⟩
  | send b => exact ⟨_, rfl, .inl (checked_reaches _ s (sendBody_reaches s b))⟩
  | wack => exact ⟨_, rfl, .inl (checked_reaches _ s (wackBody_reaches s))⟩
  | recv => exact ⟨_, rfl, .inl (checked_reaches _ s (recvBody_reaches s))⟩
  | nack => exact ⟨_, rfl, .inl (checked_reaches _ s (nackBody_reaches s))⟩
  | wreg a v => exact ⟨_, rfl, .inl (transact_reaches s (wregBody_reaches a v s))⟩
  | rreg a => exact ⟨_, rfl, .inl (transact_reaches s (rregBody_reaches a s))⟩
  | decvVbat r => exact ⟨_, rfl, .inl (((Reaches.refl s).setRes _).setErr _)⟩
  | decvOcv r => exact ⟨_, rfl, .inl (((Reaches.refl s).setRes _).setErr _)⟩
  | deciIbat r => exact ⟨_, rfl, .inl (((Reaches.refl s).setRes _).setErr _)⟩
  | deciOut1 r => exact ⟨_, rfl, .inl (((Reaches.refl s).setRes _).setErr _)⟩
  | deciOut2 r => exact ⟨_, rfl, .inl (((Reaches.refl s).setRes _).setErr _)⟩
  | deciTypec r => exact ⟨_, rfl, .inl (((Reaches.refl s).setRes _).setErr _)⟩
  | deciVin r => exact ⟨_, rfl, .inl (((Reaches.refl s).setRes _).setErr _)⟩
  | decp r => exact ⟨_, rfl, .inl (((Reaches.refl s).setRes _).setErr _)⟩
  | decsSys b => exact ⟨_, rfl, .inl (((Reaches.refl s).setRes _).setErr _)⟩
  | decsChg b => exact ⟨_, rfl, .inl (((Reaches.refl s).setRes _).setErr _)⟩
  | decsNtc b => exact ⟨_, rfl, .inl (((Reaches.refl s).setRes _).setErr _)⟩
  | decsBoost b => exact ⟨_, rfl, .inl (((Reaches.refl s).setRes _).setErr _)⟩
  | decsMos b => exact ⟨_, rfl, .inl (((Reaches.refl s).setRes _).setErr _)⟩
  | derv => exact ⟨_, rfl, .inl (((Reaches.refl s).setRes _).setErr _)⟩
  | impute => exact ⟨_, rfl, .inl (((Reaches.refl s).setRes _).setErr _)⟩
  | poll => exact ⟨_, rfl, .inl (transact_reaches s (pollBody_reaches _ s))⟩
  | setdly d => exact ⟨_, rfl, .inr ⟨d, rfl, rfl⟩⟩
  | setaddr a =>
    refine ⟨_, rfl, .inl ?_⟩
    split
    · exact ((Reaches.refl s).setSaddr _).setErr _
    · exact (Reaches.refl s).setErr _
  | setpoll n => exact ⟨_, rfl, .inl (((Reaches.refl s).setAckpoll _).setErr _)⟩

theorem exec_outcome (i : Instr) (s : State) :
    ∃ t, exec i s = .next t ∧ (Reaches s t ∨ ∃ d, i = .setdly d ∧ t = (s.setDelay d).done) :=
  execOf_block i s ▸ execOf_outcome Config.block i s

/-! ## A word -/

theorem runWord_legal {w : Word} {i : Instr} (h : decode w = .legal i) (k : Block) (s : State) :
    runWord k w s = k.meaning i s.accept := by
  simp [runWord, h]

theorem runWord_illegal {w : Word} {why : Illegal} (h : decode w = .illegal why) (k : Block) (s : State) :
    runWord k w s = .next (s.accept.raise .illegal) := by
  simp [runWord, h]

/-- On every block every accepted word ends in a next state, reached by a run from the acceptance, or is a SETDLY. -/
theorem runWordOf_outcome (c : Config) (w : Word) (s : State) :
    ∃ t, runWord (Block.of c) w s = .next t ∧ (Reaches s.accept t ∨ ∃ d, decode w = .legal (.setdly d) ∧
      t = (s.accept.setDelay d).done) := by
  cases h : decode w with
  | illegal why => exact ⟨_, runWord_illegal h _ s, .inl ((Reaches.refl _).setErr _)⟩
  | legal i =>
    obtain ⟨t, ht, q⟩ := execOf_outcome c i s.accept
    refine ⟨t, (runWord_legal h _ s).trans ht, q.imp_right ?_⟩
    rintro ⟨d, rfl, rfl⟩
    exact ⟨d, rfl, rfl⟩

theorem runWord_outcome (w : Word) (s : State) :
    ∃ t, runWord Block.default w s = .next t ∧ (Reaches s.accept t ∨ ∃ d, decode w = .legal (.setdly d) ∧
      t = (s.accept.setDelay d).done) :=
  Block.of_block ▸ runWordOf_outcome Config.block w s

/-! ## One clock edge -/

/-- What an edge of a command in progress can do: count a cycle of a wait, let the next event happen, count a cycle of
the settling, or commit. -/
theorem advance_cases (f : InFlight) (s : State) :
    (∃ n es, f.todo = .w n :: es ∧ f.waited + 1 < n ∧
      advance f s = { s with inFlight := some { f with waited := f.waited + 1 } }) ∨
    (∃ e es k, f.todo = e :: es ∧ advance f s = { s.play e with inFlight := some { f with todo := es, waited := k } }) ∨
    (f.todo = [] ∧ 0 < f.settle ∧
      advance f s = { s with inFlight := some { f with settle := f.settle - 1 } }) ∨
    (f.todo = [] ∧ f.settle = 0 ∧ advance f s = s.commit f) := by
  unfold advance
  split
  · rename_i h
    split
    · rename_i h0; exact .inr (.inr (.inr ⟨h, h0, rfl⟩))
    · rename_i h0; exact .inr (.inr (.inl ⟨h, Nat.pos_of_ne_zero h0, rfl⟩))
  · rename_i n es h
    split
    · rename_i h0; exact .inl ⟨n, es, h, h0, rfl⟩
    · exact .inr (.inl ⟨_, es, 0, h, rfl⟩)
  · rename_i v es h; exact .inr (.inl ⟨_, es, f.waited, h, rfl⟩)
  · rename_i v es h; exact .inr (.inl ⟨_, es, f.waited, h, rfl⟩)
  · rename_i v es h; exact .inr (.inl ⟨_, es, f.waited, h, rfl⟩)

/-- OVR plays no part in an edge of a command in progress. -/
theorem advance_ovr (f : InFlight) (s : State) (b : Bool) :
    advance f { s with ovr := b } = { advance f s with ovr := b } := by
  unfold advance
  split
  · split <;> rfl
  · split <;> rfl
  all_goals rfl

theorem edge_busy (k : Block) {s : State} {f : InFlight} (h : s.inFlight = some f) :
    edge k s = .next (busyEdge k f s.hostNow s.hostTaken) := by
  simp [edge, h]

theorem edge_free (k : Block) {s : State} (h : s.inFlight = none) : edge k s = freeEdge k s.hostNow s.hostTaken := by
  simp [edge, h]

theorem step_busy {s : State} {f : InFlight} (h : s.inFlight = some f) :
    step s = .next (busyEdge Block.default f s.hostNow s.hostTaken) := edge_busy _ h

theorem step_free {s : State} (h : s.inFlight = none) : step s = freeEdge Block.default s.hostNow s.hostTaken :=
  edge_free _ h

/-- `step` is the step of the block with the defaults of R7. -/
theorem stepOf_block (s : State) : stepOf Config.block s = step s := by rw [stepOf, Block.of_block, step]

/-- What one edge can do to the pins, the registers and the command in progress: an edge of that command, a reset,
nothing, or the acceptance of a word (run whole or begun). `u` is the state once the host's act is taken. -/
theorem edge_cases (k : Block) (s t : State) (h : edge k s = .next t) :
    (∃ f u, s.inFlight = some f ∧ u.bus = s.bus ∧ u.regs = s.regs ∧ t = advance f u) ∨
    (∃ u, t = State.applyReset k.resetRegs u) ∨
    (s.inFlight = none ∧ t.bus = s.bus ∧ t.regs = s.regs ∧ t.inFlight = none) ∨
    (∃ w u, s.inFlight = none ∧ u.inFlight = none ∧ u.bus = s.bus ∧ u.regs = s.regs ∧
      (runWord k w u = .next t ∨ beginWord k w u = .next t)) := by
  cases hf : s.inFlight with
  | some f =>
    rw [edge_busy k hf] at h
    simp only [Host.Outcome.next.injEq] at h
    subst h
    cases s.hostNow with
    | idle => exact .inl ⟨f, s.hostTaken, rfl, rfl, rfl, rfl⟩
    | issue w => exact .inl ⟨f, { s.hostTaken with ovr := true }, rfl, rfl, rfl, rfl⟩
    | strobe w => exact .inl ⟨f, { s.hostTaken with ovr := true }, rfl, rfl, rfl, rfl⟩
    | read i l => exact .inl ⟨f, s.hostTaken.readOut l i, rfl, rfl, rfl, rfl⟩
    | reset a => exact .inr (.inl ⟨_, rfl⟩)
  | none =>
    rw [edge_free k hf] at h
    cases hn : s.hostNow with
    | idle => rw [hn] at h; cases h; exact .inr (.inr (.inl ⟨rfl, rfl, rfl, hf⟩))
    | issue w => rw [hn] at h; exact .inr (.inr (.inr ⟨w, s.hostTaken, rfl, hf, rfl, rfl, .inl h⟩))
    | strobe w => rw [hn] at h; exact .inr (.inr (.inr ⟨w, s.hostTaken, rfl, hf, rfl, rfl, .inr h⟩))
    | read i l => rw [hn] at h; cases h; exact .inr (.inr (.inl ⟨rfl, rfl, rfl, hf⟩))
    | reset a => rw [hn] at h; cases h; exact .inr (.inl ⟨_, rfl⟩)

/-- What one step can do (see `edge_cases`). -/
theorem step_cases (s t : State) (h : step s = .next t) :
    (∃ f u, s.inFlight = some f ∧ u.bus = s.bus ∧ u.regs = s.regs ∧ t = advance f u) ∨
    (∃ u, t = State.applyReset Regs.reset u) ∨
    (s.inFlight = none ∧ t.bus = s.bus ∧ t.regs = s.regs ∧ t.inFlight = none) ∨
    (∃ w u, s.inFlight = none ∧ u.inFlight = none ∧ u.bus = s.bus ∧ u.regs = s.regs ∧
      (runWord Block.default w u = .next t ∨ beginWord Block.default w u = .next t)) :=
  edge_cases Block.default s t h

end Sys2Proof.Machine
end

