-- ==== Sys2Proof/Tests/Slice0.lean ====
section
/-! SUPPORT. Tests: the smoke test of WellFormed, one word per command, the vectors and programs of
95_test_vectors.md (named in each comment), and a witness for the hypotheses of every obligation. Every expected value
is the spec's, or is worked out by hand from the rule named. -/

set_option Elab.async false

namespace Sys2Proof.Tests

open Sys2Proof.Machine

/-! ## Helpers -/

/-- The test configuration TC1 of 95_test_vectors.md section 0. -/
def tc1 : Config :=
  { Config.block with
    power := { num := 1, den := 1, off := 0 }
    regLo := fun q => match q with
      | .vbat => 0x10#8
      | .ocv => 0x12#8
      | .ibat => 0x14#8
      | .pwr => 0x16#8
      | .iport p => BitVec.ofNat 8 (0x18 + 2 * p.idx)
    regHi := fun q => match q with
      | .vbat => 0x11#8
      | .ocv => 0x13#8
      | .ibat => 0x15#8
      | .pwr => 0x17#8
      | .iport p => BitVec.ofNat 8 (0x19 + 2 * p.idx)
    regStatus := fun k => match k with
      | .sys => 0x20#8
      | .chg => 0x21#8
      | .ntc => 0x22#8
      | .boost => 0x23#8
      | .mos => 0x24#8
    chgPhaseLsb := 0
    chgToMask := 0x18#8
    ntcValidPos := 7
    ntcZoneLsb := 0
    boostLsb := 0
    mosPos := Port.idx
    portV := fun _ en f =>
      if en then (if f = 0#4 then 5000#32 else if f = 0xF#4 then 0#32 else 9000#32) else 0#32 }

/-- The state a command ends in. -/
def run (i : Instr) (s : State) : State :=
  match exec i s with
  | .next t => t
  | .fault _ => s
  | .refused _ => s

/-- The state a step ends in. -/
def stepped (s : State) : State :=
  match step s with
  | .next t => t
  | .fault _ => s
  | .refused _ => s

/-- The state a step of the block with the record c ends in. -/
def steppedOf (c : Config) (s : State) : State :=
  match stepOf c s with
  | .next t => t
  | .fault _ => s
  | .refused _ => s

/-- The reset state with these levels from the slaves to come. -/
def withSlave (l : List Bool) : State := { State.reset with bus := { Bus.reset with slave := l } }

/-- The reset state with these acts of the host to come. -/
def withHost (l : List HostAct) : State := { State.reset with host := l }

/-- A state inside a transaction: this phase and direction, the clock held low, these levels to come, this sample
limit. -/
def inside (p : Phase) (dir : Bool) (l : List Bool) (n : Byte) : State :=
  { State.reset with
    regs := { Regs.reset with phase := p, dir := dir, cfgAckpoll := n }
    bus := { Bus.reset with scl := false, slave := l } }

/-- The levels of a device read in which every slot ACKs at once. -/
def readScript (b : Byte) : List Bool := [false, false, false] ++ wireBits b

/-- A command in progress with two events to come. -/
def setdlyBegun : InFlight where
  word := 0x400001F4#32
  todo := [.sda true, .w 2]
  waited := 0
  settle := 0
  shadow := { Regs.reset with cfgDelay := 500#16 }

/-- The reset state with that command in progress. -/
def busyState (host : List HostAct) : State :=
  { State.reset with inFlight := some setdlyBegun, host := host }

/-! ## WellFormed -/

/-- R92, R212: a SETADDR operand of 8 bits is ill formed; the largest 7-bit one is well formed. -/
theorem test_setaddr_needs_seven_bits : (Instr.setaddr 0x80#8).wellFormed = false ∧
    (Instr.setaddr 0x7F#8).wellFormed = true := by decide

/-- V73: the decoder refuses the same word. -/
theorem test_setaddr_bit7_is_illegal : decode 0x41000080#32 = .illegal .unusedField := by decide

/-! ## Decoding: one word for each command, written from R91 and R95 -/

theorem test_decode_nop : decode 0x00000000#32 = .legal .nop := by decide
theorem test_decode_start : decode 0x01000000#32 = .legal .start := by decide
theorem test_decode_stop : decode 0x02000000#32 = .legal .stop := by decide
/-- R101. -/
theorem test_decode_send : decode 0x030000A5#32 = .legal (.send 0xA5#8) := by decide
theorem test_decode_wack : decode 0x04000000#32 = .legal .wack := by decide
theorem test_decode_recv : decode 0x05000000#32 = .legal .recv := by decide
theorem test_decode_nack : decode 0x06000000#32 = .legal .nack := by decide
/-- R101. -/
theorem test_decode_wreg : decode 0x1000213C#32 = .legal (.wreg 0x21#8 0x3C#8) := by decide
/-- R101. -/
theorem test_decode_rreg : decode 0x11001000#32 = .legal (.rreg 0x10#8) := by decide
/-- R101. -/
theorem test_decode_decvVbat : decode 0x20001000#32 = .legal (.decvVbat 0x1000#16) := by decide
theorem test_decode_decvOcv : decode 0x20011500#32 = .legal (.decvOcv 0x1500#16) := by decide
/-- Section 2.3. -/
theorem test_decode_deciIbat : decode 0x21008001#32 = .legal (.deciIbat 0x8001#16) := by decide
/-- Section 2.3. -/
theorem test_decode_deciOut1 : decode 0x21010400#32 = .legal (.deciOut1 0x0400#16) := by decide
theorem test_decode_deciOut2 : decode 0x21020001#32 = .legal (.deciOut2 0x0001#16) := by decide
/-- R101. -/
theorem test_decode_deciTypec : decode 0x21038000#32 = .legal (.deciTypec 0x8000#16) := by decide
/-- Section 2.3. -/
theorem test_decode_deciVin : decode 0x21040100#32 = .legal (.deciVin 0x0100#16) := by decide
/-- Section 2.3. -/
theorem test_decode_decp : decode 0x22001388#32 = .legal (.decp 0x1388#16) := by decide
/-- R101. -/
theorem test_decode_decsSys : decode 0x23000011#32 = .legal (.decsSys 0x11#8) := by decide
theorem test_decode_decsChg : decode 0x2301001A#32 = .legal (.decsChg 0x1A#8) := by decide
theorem test_decode_decsNtc : decode 0x23020083#32 = .legal (.decsNtc 0x83#8) := by decide
theorem test_decode_decsBoost : decode 0x230300F3#32 = .legal (.decsBoost 0xF3#8) := by decide
theorem test_decode_decsMos : decode 0x23040005#32 = .legal (.decsMos 0x05#8) := by decide
theorem test_decode_derv : decode 0x30000000#32 = .legal .derv := by decide
theorem test_decode_impute : decode 0x31000000#32 = .legal .impute := by decide
theorem test_decode_poll : decode 0x32000000#32 = .legal .poll := by decide
/-- R101. -/
theorem test_decode_setdly : decode 0x400001F4#32 = .legal (.setdly 500#16) := by decide
/-- R101. -/
theorem test_decode_setaddr : decode 0x41000075#32 = .legal (.setaddr 0x75#8) := by decide
/-- V75. -/
theorem test_decode_setpoll : decode 0x420000FF#32 = .legal (.setpoll 255#8) := by decide

/-- The illegal words of section 2.3, V80, V81 and V82. -/
theorem test_illegal_words :
    ([0x20020000#32, 0x21050000#32, 0x23050011#32, 0x23001211#32, 0x22010000#32, 0x20101000#32, 0x07000000#32,
      0x03100000#32, 0x01000001#32].map decode) =
    [.illegal .selector, .illegal .selector, .illegal .selector, .illegal .unusedField, .illegal .selector,
      .illegal .reservedBits, .illegal .opcode, .illegal .reservedBits, .illegal .unusedField] := by decide

/-- The 28 rows, their mnemonics, and no two patterns alike (spec/opcode_table.json). -/
theorem test_rows : opRows.length = 28 ∧ (opRows.map OpRow.mnemonic).Nodup ∧ (opRows.map OpRow.pat).Nodup := by decide

theorem test_decodeTableWord : decodeTableWord 32 0x21030000 = some (.deciTypec 0#16) ∧
    decodeTableWord 32 0x07000000 = none := by decide

/-- R99, R100, with P1's address bytes. -/
theorem test_assemble : assemble 0x75#7 "; P1\nWADDR\n WREG 0x21, 0x3C ; a register\n\nDECS SYS,0x11\nSETDLY 500" =
    some [0x030000EA#32, 0x04000000#32, 0x1000213C#32, 0x23000011#32, 0x400001F4#32] := by decide +kernel

/-- R99: an operand that does not fit its field. -/
theorem test_assemble_error : assemble 0x75#7 "SETADDR 0x80" = none ∧ assemble 0x75#7 "SEND 256" = none := by
  decide +kernel

/-! ## The engine: section 2.1 -/

/-- V1. -/
theorem test_start : (run .start State.reset).shape = traceStart ∧ (run .start State.reset).regs.phase = .started ∧
    (run .start State.reset).bus.scl = false ∧ (run .start State.reset).bus.sda = false := by decide +kernel

/-- V19. -/
theorem test_start_out_of_phase : run .start (inside .started false [] 1#8) =
    (inside .started false [] 1#8).setErr .seq := by decide +kernel

/-- V2. -/
theorem test_send_A5 : (run (.send 0xA5#8) (inside .started false [] 1#8)).shape =
    [true, false, true, false, false, true, false, true].flatMap traceCell ∧
    (run (.send 0xA5#8) (inside .started false [] 1#8)).regs.dir = true ∧
    (run (.send 0xA5#8) (inside .started false [] 1#8)).bus.sda = true := by decide +kernel

/-- V22: in a read transaction the slave sends. -/
theorem test_send_in_a_read : (run (.send 0x00#8) (inside .acked true [] 1#8)).regs.err = .seq := by decide +kernel

/-- V5. -/
theorem test_wack_three_samples : (run .wack (inside .sent false [true, true, false] 3#8)).shape =
    [.sda true, .w 0, .scl true, .w 0, .s true, .w 0, .s true, .w 0, .s false, .scl false] ∧
    (run .wack (inside .sent false [true, true, false] 3#8)).regs.ackf = false := by decide +kernel

/-- V6: a NACK is not an error. -/
theorem test_wack_nack : (run .wack (inside .sent false [true, true, true] 3#8)).regs.ackf = true ∧
    (run .wack (inside .sent false [true, true, true] 3#8)).regs.err = .none ∧
    countSamples (run .wack (inside .sent false [true, true, true] 3#8)).trace = 3 := by decide +kernel

/-- V8. -/
theorem test_recv_11 :
    (run .recv (inside .acked true [false, false, false, true, false, false, false, true] 1#8)).regs.rxdata = 0x11#8 ∧
    (run .recv (inside .acked true [false, false, false, true, false, false, false, true] 1#8)).regs.phase = .rcvd := by
  decide +kernel

/-- V25. -/
theorem test_recv_in_a_write : (run .recv (inside .acked false [] 1#8)).regs.err = .seq := by decide +kernel

/-- V10. -/
theorem test_nack : (run .nack (inside .rcvd true [] 1#8)).shape = [.sda true, .w 0, .scl true, .w 0, .scl false] ∧
    (run .nack (inside .rcvd true [] 1#8)).regs.phase = .nacked := by decide +kernel

/-- V11. -/
theorem test_stop : (run .stop (inside .nacked true [] 1#8)).shape =
    [.sda false, .w 0, .scl true, .w 0, .sda true, .w 0] ∧
    (run .stop (inside .nacked true [] 1#8)).regs.phase = .idle ∧
    (run .stop (inside .nacked true [] 1#8)).regs.dir = true := by decide +kernel

/-- V16. -/
theorem test_stop_in_idle : (run .stop State.reset).regs.err = .seq ∧ (run .stop State.reset).shape = [] := by
  decide +kernel

/-! ## Register access: section 2.2 -/

/-- V30. -/
theorem test_wreg_V30 : (run (.wreg 0x21#8 0x3C#8) (withSlave [false, false, false])).shape =
    traceStart ++ traceByte 0xEA#8 ++ traceSlot false ++ traceByte 0x21#8 ++ traceSlot false ++ traceByte 0x3C#8 ++
      traceSlot false ++ traceStop ∧
    (run (.wreg 0x21#8 0x3C#8) (withSlave [false, false, false])).status true = 0x00070000#32 := by decide +kernel

/-- V40: five samples in one slot, 28 waits. -/
theorem test_wreg_V40 : (run (.wreg 1#8 2#8) { withSlave (List.replicate 5 true) with
      regs := { Regs.reset with cfgAckpoll := 5#8 } }).regs.err = .nackWaddr ∧
    countWaits (run (.wreg 1#8 2#8) { withSlave (List.replicate 5 true) with
      regs := { Regs.reset with cfgAckpoll := 5#8 } }).trace = 28 := by decide +kernel

/-- V31. -/
theorem test_rreg_V31 : (run (.rreg 0x21#8) (withSlave (readScript 0x3C#8))).status true = 0x00070004#32 ∧
    (run (.rreg 0x21#8) (withSlave (readScript 0x3C#8))).regs.rxdata = 0x3C#8 ∧
    countWaits (run (.rreg 0x21#8) (withSlave (readScript 0x3C#8))).trace = 81 := by decide +kernel

/-- V37. -/
theorem test_rreg_V37 : (run (.rreg 0x21#8) (withSlave [false, false, true])).status true = 0x00070606#32 ∧
    (run (.rreg 0x21#8) (withSlave [false, false, true])).regs.rxdata = 0xFF#8 ∧
    countWaits (run (.rreg 0x21#8) (withSlave [false, false, true])).trace = 63 := by decide +kernel

/-! ## The decoder: section 2.3 -/

theorem test_decv_vbat : (run (.decvVbat 0x1000#16) State.reset).regs.res.vbat = 3699#32 ∧
    (run (.decvVbat 0x1000#16) State.reset).regs.res.valid = 1#32 := by decide +kernel
theorem test_decv_ocv : (run (.decvOcv 0xFFFE#16) State.reset).regs.res.ocv = 20199#32 ∧
    (run (.decvOcv 0xFFFF#16) State.reset).regs.res = Results.zero := by decide +kernel
theorem test_deci_ibat : (run (.deciIbat 0x8001#16) State.reset).regs.res.ibat = 41902#32 ∧
    (run (.deciIbat 0x8000#16) State.reset).regs.res.ibat = 41903#32 ∧
    (run (.deciIbat 0xFFFE#16) State.reset).regs.res.ibat = 1#32 := by decide +kernel
theorem test_deci_out1 : (run (.deciOut1 0x0400#16) State.reset).regs.res.iport = ⟨654#32, 0#32, 0#32, 0#32⟩ ∧
    (run (.deciOut1 0x0400#16) State.reset).regs.res.valid = 0x100#32 := by decide +kernel
theorem test_deci_out2 : (run (.deciOut2 0x7FFF#16) State.reset).regs.res.iport = ⟨0#32, 20951#32, 0#32, 0#32⟩ ∧
    (run (.deciOut2 0x7FFF#16) State.reset).regs.res.valid = 0x200#32 := by decide +kernel
theorem test_deci_typec : (run (.deciTypec 0x8010#16) State.reset).regs.res.iport = ⟨0#32, 0#32, 20940#32, 0#32⟩ ∧
    (run (.deciTypec 0x8010#16) State.reset).regs.res.valid = 0x400#32 := by decide +kernel
theorem test_deci_vin : (run (.deciVin 0x0100#16) State.reset).regs.res.iport = ⟨0#32, 0#32, 0#32, 163#32⟩ ∧
    (run (.deciVin 0x0100#16) State.reset).regs.res.valid = 0x800#32 := by decide +kernel
/-- TC1. -/
theorem test_decp : (decp tc1 0x1388#16 State.reset).regs.res.pwr = 5000#32 ∧
    (decp tc1 0xFFFF#16 State.reset).regs.res = Results.zero := by decide +kernel
theorem test_decs_sys : (run (.decsSys 0xFE#8) State.reset).regs.res.sys = 0x16#32 ∧
    (run (.decsSys 0x97#8) State.reset).regs.res.sys = 0x17#32 ∧
    (run (.decsSys 0x11#8) State.reset).regs.res.valid = 0x1000#32 := by decide +kernel
/-- TC1. -/
theorem test_decs_chg : (ds tc1 .chg 0x1A#8).value = 0x1802#32 ∧ (ds tc1 .chg 0x07#8).value = 7#32 := by decide +kernel
/-- TC1. -/
theorem test_decs_ntc : (ds tc1 .ntc 0x83#8).value = 0x31#32 ∧ (ds tc1 .ntc 0x7F#8).value = 0x70#32 := by decide +kernel
/-- TC1. -/
theorem test_decs_boost : (ds tc1 .boost 0xF3#8).value = 3#32 ∧ (ds tc1 .boost 0xFF#8).valid = false := by decide +kernel
/-- TC1. -/
theorem test_decs_mos : (ds tc1 .mos 0x05#8).value = 5#32 ∧ (ds tc1 .mos 0xF3#8).value = 3#32 := by decide +kernel
/-- R174: CHG.TO = 0x18 sets the flags of bits 3 and 4. -/
theorem test_chg_timeout_names :
    chgTimeoutNames { tc1 with nameChgTimeout := fun k => if k = 3 then "a" else if k = 4 then "b" else "c" } 0x1802#32 =
      ["a", "b"] ∧
    chgPhaseName { tc1 with nameChgPhase := fun k => if k = 2#3 then .constantCurrent else .idle } 0x1802#32 =
      "constant-current" := by decide +kernel
/-- R174: flags 0 and 2 are set; a voltage outside 6 to 12 V is no end of a range. -/
theorem test_boost_ranges :
    (boostNames { tc1 with nameBoostFlag := fun k => .between (6 + k.val) 20 } 0x5#32).map (fun r => (r.lo, r.hi)) =
      [(6, 12), (8, 12)] := by decide +kernel
/-- R7: a block with another scale, another slave address and another reset delay. -/
def otherBlock : Config :=
  { tc1 with
    volt := fun _ => { num := 3, den := 2, off := 1 }
    saddrReset := 0x10#7
    delayReset := 9#16 }
/-- R162 by hand: floor(5 * 3 / 2) + 1 = 8. -/
theorem test_other_configuration :
    (steppedOf otherBlock (State.reset.withFetchWord 32 0x20000005)).regs.res =
      { Results.zero with vbat := 8#32, valid := 1#32 } := by decide +kernel
/-- R51, R250. -/
theorem test_other_configuration_reset : (steppedOf otherBlock (withHost [.reset none])).regs.cfgSaddr = 0x10#7 ∧
    (steppedOf otherBlock (withHost [.reset none])).regs.cfgDelay = 9#16 := by decide +kernel
/-- X6. -/
theorem test_names_X6 : sysModeName tc1 0x11#32 = "5V charging" ∧ chgfName 0x11#32 = "charging" := by decide +kernel

/-! ## Ports, imputation, POLL: section 2.4 and P3, under TC1 -/

/-- V50's decodes: DECI OUT1, 0; DECP p; DECS MOS, 0x01; DECS BOOST, f. -/
def v50 (p : Raw16) (f : Byte) : State :=
  decs tc1 .boost f (decs tc1 .mos 0x01#8 (decp tc1 p (deci tc1 (.port .out1) 0#16 State.reset)))

/-- V50. -/
theorem test_impute_V50 : (imputeAll (derv tc1 (v50 0x1388#16 0x00#8)).regs.res).iport = ⟨1000#32, 0#32, 0#32, 0#32⟩ ∧
    (imputeAll (derv tc1 (v50 0x1388#16 0x00#8)).regs.res).imp = 0x01#32 ∧
    (imputeAll (derv tc1 (v50 0x1388#16 0x00#8)).regs.res).valid = 0x000181F8#32 := by decide +kernel

/-- V51: the guarded division. -/
theorem test_impute_V51 : (imputeAll (derv tc1 (v50 0x1388#16 0x0F#8)).regs.res).iport = Ports.zero ∧
    (imputeAll (derv tc1 (v50 0x1388#16 0x0F#8)).regs.res).imp = 0x10#32 := by decide +kernel

/-- V50's voltages. -/
theorem test_derv_V50 : (derv tc1 (v50 0x1388#16 0x00#8)).regs.res.vport = ⟨5000#32, 0#32, 0#32, 0#32⟩ := by
  decide +kernel

/-- V59: MOS is not ready. -/
theorem test_derv_V59 : (derv tc1 (decs tc1 .boost 0x00#8 (decs tc1 .mos 0xFF#8 State.reset))).regs.res =
    { Results.zero with valid := 0x00008000#32 } := by decide +kernel

/-- The bytes of P3, in the order POLL reads them. -/
def p3Bytes : List Byte :=
  [0x5D#8, 0x14#8, 0x00#8, 0x15#8, 0x00#8, 0x04#8, 0x88#8, 0x13#8, 0x00#8, 0x00#8, 0x00#8, 0x00#8] ++
  [0x10#8, 0x80#8, 0x00#8, 0x01#8, 0x11#8, 0x1A#8, 0x83#8, 0x00#8, 0x05#8]

/-- P3. -/
theorem test_poll_P3 : (pollBody tc1 (withSlave (p3Bytes.flatMap readScript))).regs.res =
    { valid := 0x1FFFF#32, vbat := 3999#32, ocv := 4043#32, ibat := 1309#32, pwr := 5000#32,
      vport := ⟨5000#32, 0#32, 5000#32, 0#32⟩, iport := ⟨1000#32, 0#32, 20940#32, 163#32⟩,
      sys := 0x11#32, chg := 0x1802#32, ntc := 0x31#32, boost := 0#32, mos := 5#32, imp := 1#32 } := by decide +kernel

/-- V61: no device. -/
theorem test_poll_V61 : (run .poll (withSlave [true])).regs.err = .nackWaddr ∧
    countWaits (run .poll (withSlave [true])).trace = 24 ∧ (run .poll (withSlave [true])).regs.res = Results.zero ∧
    (run .poll (withSlave [true])).regs.phase = .idle := by decide +kernel

/-! ## Configuration: section 2.5 -/

/-- V76. -/
theorem test_nop : (run .nop ((inside .sent true [] 1#8).setErr .illegal)) = inside .sent true [] 1#8 := by
  decide +kernel
/-- V70, V71. -/
theorem test_setdly : (run (.setdly 500#16) State.reset).regs.cfgDelay = 500#16 ∧
    waitFloor (run (.setdly 0#16) State.reset).regs.cfgDelay = 1 := by decide +kernel
/-- V72. -/
theorem test_setaddr : (run (.setaddr 0x75#8) State.reset).regs.cfgSaddr = 0x75#7 ∧
    addrByte 0x75#7 false = 0xEA#8 ∧ addrByte 0x75#7 true = 0xEB#8 := by decide +kernel
/-- V74, V75. -/
theorem test_setpoll : (run (.setpoll 0#8) State.reset).regs.cfgAckpoll = 1#8 ∧
    (run (.setpoll 255#8) State.reset).regs.cfgAckpoll = 255#8 := by decide +kernel

/-! ## The step: section 2.6 -/

/-- V80: a reserved opcode while PHASE = SENT (V83). -/
theorem test_step_illegal : (stepped ((inside .sent false [] 1#8).withFetchWord 32 0x07000000)).regs =
    { (inside .sent false [] 1#8).regs with err := .illegal } := by decide +kernel

/-- The fetched word runs at the next step. -/
theorem test_step_fetch : (stepped (State.reset.withFetchWord 32 0x400001F4)).regs.cfgDelay = 500#16 := by
  decide +kernel

/-- V84: a word written during the first edge of START is lost and sets OVR. -/
theorem test_step_busy_word : (stepped (stepped (withHost [.strobe 0x01000000#32, .strobe 0#32]))).ovr = true ∧
    (stepped (stepped (withHost [.strobe 0x01000000#32, .strobe 0#32]))).trace = [.sda true] := by decide +kernel

/-- V86: reset in the middle of a command. -/
theorem test_step_reset :
    (stepped (stepped (withHost [.strobe 0x01000000#32, .reset (some 0#32)]))).regs = Regs.reset ∧
    (stepped (stepped (withHost [.strobe 0x01000000#32, .reset (some 0#32)]))).status true = 0x00070000#32 := by
  decide +kernel

/-- An idle STATUS with no error reads 0x00070000 (section 0). -/
theorem test_status_idle : State.reset.hostRead true 0#6 = 0x00070000#32 := by decide +kernel

/-! ## The ideal device: V30, V31 with DEV(0x75, M) -/

/-- The device of the vectors, every register 0. -/
def dev : Dev := Dev.idle 0x75#7 (Vector.replicate 256 0#8) 0x00#8

/-- The state after V30 with the levels of V31 to come. -/
def afterV30 : State := run (.wreg 0x21#8 0x3C#8) (withSlave ([false, false, false] ++ readScript 0x3C#8)).accept

theorem test_device_takes_the_write :
    (dev.watchAll afterV30.trace).map (fun d => (d.reg 0x21#8, d.ptr)) = some (0x3C#8, 0x22#8) := by decide +kernel

theorem test_device_gives_the_byte : ((dev.watchAll afterV30.trace).bind
    (Dev.watchAll (run (.rreg 0x21#8) afterV30.accept).trace)).isSome = true := by decide +kernel

/-- Another register holds 0, so the device does not give 0x3C there. -/
theorem test_device_gives_no_other_byte : ((dev.watchAll afterV30.trace).bind
    (Dev.watchAll (run (.rreg 0x22#8) afterV30.accept).trace)).isSome = false := by decide +kernel

/-! ## Witnesses: for each obligation with hypotheses, a state and operands that meet them all -/

/-- Legal and illegal words at either end of the opcode map. -/
theorem test_witness_LegalWordsLieInExactlyOneRow : decode 0x00000000#32 = .legal .nop ∧
    decode 0x4200FFFF#32 = .illegal .unusedField ∧ decode 0x420000FF#32 = .legal (.setpoll 0xFF#8) := by decide

theorem test_witness_DecodeOfEncodeIsTheCommand : (Instr.setaddr 0x7F#8).wellFormed = true ∧
    Instr.poll.wellFormed = true := by decide

theorem test_witness_EncodeOfDecodeIsTheWord : decode 0x2104FFFF#32 = .legal (.deciVin 0xFFFF#16) := by decide

/-- Both ends of each range of R97. -/
theorem test_witness_ReservedOpcodesAreIllegal :
    [0x07000000#32, 0x0F000000#32, 0x12000000#32, 0x1F000000#32, 0x24000000#32, 0x2F000000#32, 0x33000000#32,
      0x3F000000#32, 0x43000000#32, 0xFF000000#32].map (fun w => (Word.opc w).toNat) =
    [0x07, 0x0F, 0x12, 0x1F, 0x24, 0x2F, 0x33, 0x3F, 0x43, 0xFF] := by decide

theorem test_witness_StepRunsTheDecodedCommand : (withHost [.issue 0x01000000#32]).inFlight = none ∧
    (withHost [.issue 0x01000000#32]).host = .issue 0x01000000#32 :: [] ∧ decode 0x01000000#32 = .legal .start := by
  decide

theorem test_witness_IllegalWordOnlySetsErr : (withHost [.issue 0x07000000#32]).inFlight = none ∧
    (withHost [.issue 0x07000000#32]).host = .issue 0x07000000#32 :: [] ∧
    decode 0x07000000#32 = .illegal .opcode := by decide

theorem test_witness_AcceptanceRaisesBusyAndClearsOvr : (withHost [.strobe 0x32000000#32]).inFlight = none ∧
    (withHost [.strobe 0x32000000#32]).host = .strobe 0x32000000#32 :: [] := by decide

/-- Both ways a word can be written. -/
theorem test_witness_BusyWordIsDiscardedWithOvr : (busyState [.strobe 0#32]).inFlight = some setdlyBegun ∧
    (busyState [.strobe 0#32]).host = .strobe 0#32 :: [] ∧ (busyState [.issue 0#32]).inFlight = some setdlyBegun ∧
    (busyState [.issue 0#32]).host = .issue 0#32 :: [] := by decide

/-- A read, an empty schedule, and the edge of the commit. -/
theorem test_witness_ResultsAppearWhenBusyFalls : (busyState [.read 2#6 true]).inFlight = some setdlyBegun ∧
    (busyState [.read 2#6 true]).hostNow = .read 2#6 true ∧ (busyState []).hostNow = .idle ∧
    (stepped { busyState [.idle] with inFlight := some { setdlyBegun with todo := [] } }).inFlight = none := by
  decide +kernel

theorem test_witness_ResetLeavesResetValues :
    (busyState [.reset (some 0#32), .strobe 0x01000000#32]).host =
      .reset (some 0#32) :: [.strobe 0x01000000#32] := by decide

theorem test_witness_EdgeByEdgeRunEndsInTheMeaning : State.reset.inFlight = none := by decide

/-- Free, busy, a reserved index, and the ends of the ports' indices. -/
theorem test_witness_HostReadHasNoSideEffect : (withHost [.read 0x18#6 true]).host = .read 0x18#6 true :: [] ∧
    (withHost [.read 0x18#6 true]).inFlight = none ∧ (busyState [.read 0x18#6 true]).inFlight = some setdlyBegun ∧
    0x18 ≤ (0x18#6).toNat ∧ (0x0A#6).toNat = 0x0A + Port.out1.idx ∧ (0x0D#6).toNat = 0x0A + Port.vin.idx ∧
    (0x0E#6).toNat = 0x0E + Port.out1.idx ∧ (0x11#6).toNat = 0x0E + Port.vin.idx := by decide

/-- Both ends of the range. -/
theorem test_witness_ReservedIndicesReadZero : 0x18 ≤ (0x18#6).toNat ∧ 0x18 ≤ (0x3F#6).toNat ∧
    ¬ 0x18 ≤ (0x17#6).toNat := by decide

/-- Each phase of START, STOP, SEND, WACK, RECV and NACK is the phase of some state, with either direction. -/
theorem test_witness_engine_phases (p : Phase) (d : Bool) : (inside p d [] 1#8).regs.phase = p ∧
    (inside p d [] 1#8).regs.dir = d := ⟨rfl, rfl⟩

/-- k = 0, k = CFG_ACKPOLL - 1, and no ACK. -/
theorem test_witness_WackReportsWhatTheSlaveGives : (inside .sent false [false] 3#8).regs.phase = .sent ∧
    (inside .sent false [false] 3#8).bus.slave = List.replicate 0 true ++ false :: [] ∧
    2 < max 1 (inside .sent false [true, true, false] 3#8).regs.cfgAckpoll.toNat ∧
    (inside .sent false [true, true, false] 3#8).bus.slave = List.replicate 2 true ++ false :: [] ∧
    (inside .sent false [true, true, true] 3#8).bus.slave =
      List.replicate (max 1 (inside .sent false [true, true, true] 3#8).regs.cfgAckpoll.toNat) true ++ [] := by decide

/-- The byte 0x3C and nothing after it. -/
theorem test_witness_RecvAssemblesTheByte : (inside .acked true (wireBits 0x3C#8) 1#8).regs.phase = .acked ∧
    (inside .acked true (wireBits 0x3C#8) 1#8).regs.dir = true ∧
    (inside .acked true (wireBits 0x3C#8) 1#8).bus.slave = wireBits 0x3C#8 ++ [] := by decide

theorem test_witness_DataMovesOnlyWhileTheClockIsLow (s : State) (h : s = inside .sent false [false] 1#8) :
    s.bus.scl = false ∧ exec .wack s.accept = .next (run .wack s.accept) := by
  subst h; exact ⟨rfl, rfl⟩

/-- A state in which each command may run. -/
theorem test_witness_EngineEventCounts : State.reset.regs.mayStart = true ∧
    (inside .nacked true [] 1#8).regs.mayStop = true ∧ (inside .acked false [] 1#8).regs.maySend = true ∧
    (inside .sent false [] 1#8).regs.mayWack = true ∧ (inside .acked true [] 1#8).regs.mayRecv = true ∧
    (inside .rcvd true [] 1#8).regs.mayNack = true := by decide

/-- For WregWritesOrStopsAtTheFirstNack, RregReadsOrStopsAtTheFirstNack, PollReadsAllOrClearsAll and
TransactionsStartAndEndIdle: a state in IDLE and one outside it. -/
theorem test_witness_transactions : State.reset.regs.phase = .idle ∧
    (inside .acked false [] 1#8).regs.phase ≠ .idle := by decide

/-- A NACK in the first and in the third slot, no NACK, and a byte read. -/
theorem test_witness_TransactionOutcomeFollowsTheAnswers : State.reset.regs.phase = .idle ∧
    (withSlave [true]).bus.slave =
      List.replicate 0 false ++ List.replicate (max 1 (withSlave [true]).regs.cfgAckpoll.toNat) true ++ [] ∧
    (withSlave [false, false, true]).bus.slave = List.replicate 2 false ++
      List.replicate (max 1 (withSlave [false, false, true]).regs.cfgAckpoll.toNat) true ++ [] ∧
    (withSlave (readScript 0xFF#8)).bus.slave = [false, false, false] ++ wireBits 0xFF#8 ++ [] := by decide

theorem test_witness_WregIsItsEngineCommands : (withSlave [false, false, false]).regs.phase = .idle ∧
    (withSlave [false, false, false]).bus.slave = [false, false, false] ++ [] := by decide

/-- The runs of the first clause exist: the device agrees with both traces. -/
theorem test_witness_IdealDeviceRoundTrip : State.reset.regs.phase = .idle ∧ State.reset.bus.Released ∧
    ((dev.watchAll afterV30.trace).bind
      (Dev.watchAll (run (.rreg 0x21#8) afterV30.accept).trace)).isSome = true ∧
    (withSlave ([false, false, false] ++ readScript 0x3C#8)).bus.slave =
      [false, false, false] ++ [false, false, false] ++ wireBits 0x3C#8 ++ [] :=
  ⟨rfl, ⟨rfl, rfl⟩, test_device_gives_the_byte, rfl⟩

theorem test_witness_TransactionLengths : p3Bytes.length = 21 ∧
    (withSlave (p3Bytes.flatMap readScript)).bus.slave =
      p3Bytes.flatMap (fun b => [false, false, false] ++ wireBits b) ++ [] := by
  exact ⟨rfl, (List.append_nil _).symm⟩

/-- The boundary of the fold, and the sentinel with no offset. -/
theorem test_witness_CurrentFoldProperty : 32767 < (0x8000#16).toNat ∧ 0x8000#16 ≠ 0xFFFF#16 ∧
    (Config.block.curr .ibat).off = 0 ∧ 32767 < (0xFFFF#16).toNat := by decide +kernel

/-- MOS and BOOST ready and port OUT1 enabled; and not. -/
theorem test_witness_DervDerivesThePortVoltages :
    ((v50 0#16 0#8).regs.res.valid.getLsbD 16 = true ∧ (v50 0#16 0#8).regs.res.valid.getLsbD 15 = true ∧
      (v50 0#16 0#8).regs.res.mos.getLsbD 0 = true) ∧ State.reset.regs.res.valid.getLsbD 16 = false := by
  decide +kernel

/-- A port that is imputed, one whose division is guarded, and one that does not meet the condition. -/
theorem test_witness_ImputeCorrectsThePortCurrents :
    (imputable (derv tc1 (v50 0x1388#16 0x00#8)).regs.res .out1 = true ∧
      (derv tc1 (v50 0x1388#16 0x00#8)).regs.res.vport.get .out1 ≠ 0#32) ∧
    (imputable (derv tc1 (v50 0x1388#16 0x0F#8)).regs.res .out1 = true ∧
      (derv tc1 (v50 0x1388#16 0x0F#8)).regs.res.vport.get .out1 = 0#32) ∧
    imputable (derv tc1 (v50 0x1388#16 0x00#8)).regs.res .out2 = false := by decide +kernel

/-- V50 twice. -/
theorem test_witness_SecondImputeImputesNothing (s : State) (h : s = derv tc1 (v50 0x1388#16 0x00#8)) :
    exec .impute s = .next (run .impute s) ∧ exec .impute (run .impute s) = .next (run .impute (run .impute s)) ∧
    (run .impute s).regs.res.imp = 1#32 ∧ (run .impute s).regs.res.iport.get .out1 = 1000#32 := by
  subst h; refine ⟨rfl, rfl, ?_, ?_⟩ <;> decide +kernel

/-- The first slot of the first read and the last slot of the last. -/
theorem test_witness_PollOutcomeFollowsTheAnswers :
    (withSlave [true]).bus.slave = [].flatMap (fun b : Byte => [false, false, false] ++ wireBits b) ++
      List.replicate 0 false ++ List.replicate (max 1 (withSlave [true]).regs.cfgAckpoll.toNat) true ++ [] ∧
    (p3Bytes.take 20).length < 21 ∧
    (withSlave ((p3Bytes.take 20).flatMap readScript ++ [false, false, true])).bus.slave =
      (p3Bytes.take 20).flatMap (fun b => [false, false, false] ++ wireBits b) ++ List.replicate 2 false ++
        List.replicate (max 1 (withSlave ((p3Bytes.take 20).flatMap readScript ++
          [false, false, true])).regs.cfgAckpoll.toNat) true ++ [] := by decide +kernel

theorem test_witness_PollForgetsTheOldResults : Results.zero.valid &&& 0xFFFE0000#32 = 0#32 ∧
    (v50 0x1388#16 0x00#8).regs.res.valid &&& 0xFFFE0000#32 = 0#32 := by decide +kernel

/-- The least and the greatest address, the first operand that does not fit, and SETPOLL's least operand. -/
theorem test_witness_ConfigurationCommandsSetTheirRegister : (0x00#8).toNat = (0x00#7).toNat ∧
    (0x7F#8).toNat = (0x7F#7).toNat ∧ 128 ≤ (0x80#8).toNat ∧ 0x01#8 ≠ 0x00#8 := by decide

theorem test_witness_MachineTakesItsConfiguration : (withHost [.issue 0x20000005#32]).inFlight = none ∧
    (withHost [.issue 0x20000005#32]).host = .issue 0x20000005#32 :: [] ∧
    decode 0x20000005#32 = .legal (.decvVbat 5#16) ∧ Instr.impute ∈ [Instr.nop, .impute] ∧
    (withHost [.reset none]).host = .reset none :: [] := by decide

theorem test_witness_DecodeCommandsFollowTheConfiguration : (withSlave (p3Bytes.flatMap readScript)).regs.phase = .idle ∧
    p3Bytes.length = 21 ∧ (withSlave (p3Bytes.flatMap readScript)).bus.slave =
      p3Bytes.flatMap (fun b => [false, false, false] ++ wireBits b) ++ [] :=
  ⟨rfl, rfl, (List.append_nil _).symm⟩

theorem test_witness_NopClearsErr : (withHost [.issue 0x00000000#32]).inFlight = none ∧
    (withHost [.issue 0x00000000#32]).host = .issue 0x00000000#32 :: [] := by decide

theorem test_witness_OnlyBusCommandsTouchTheBus (s : State) : exec .nop s = .next (run .nop s) ∧
    exec .start s = .next (run .start s) := ⟨rfl, rfl⟩

/-- Inside a transaction with the clock low, and with a command in progress. -/
theorem test_witness_StepKeepsPinsFittingThePhase : (inside .sent false [] 1#8).PinsFit ∧ (busyState []).PinsFit ∧
    step (inside .sent false [] 1#8) = .next (stepped (inside .sent false [] 1#8)) ∧
    step (busyState []) = .next (stepped (busyState [])) := ⟨rfl, ⟨rfl, rfl⟩, rfl, rfl⟩

theorem results_zero_not_ready : Results.zero.NotReadyZero where
  volt := by intro ch _; cases ch <;> rfl
  curr := by
    intro ch _
    cases ch with
    | ibat => rfl
    | port p => cases p <;> rfl
  power := fun _ => rfl
  vport := by intro p _; cases p <;> rfl
  status := by intro k _; cases k <;> rfl

theorem results_zero_reserved : Results.zero.ReservedZero := ⟨rfl, rfl, rfl, rfl, rfl, rfl, rfl⟩

theorem test_witness_StepKeepsTheRegistersLegal : (busyState []).RegsLegal ∧
    step (busyState []) = .next (stepped (busyState [])) :=
  ⟨⟨⟨by decide, results_zero_not_ready, results_zero_reserved⟩,
    ⟨by decide, results_zero_not_ready, results_zero_reserved⟩⟩, rfl⟩

/-- CFG_DELAY = 1, a command in progress with a wait of 2 cycles to come. -/
theorem test_witness_StepKeepsWaitsLongEnough (s : State)
    (h : s = { busyState [] with
      regs := { Regs.reset with cfgDelay := 1#16 },
      inFlight := some { setdlyBegun with shadow := { Regs.reset with cfgDelay := 2#16 } } }) :
    s.WaitsLongEnough ∧ step s = .next (stepped s) := by
  subst h
  refine ⟨?_, rfl⟩
  simp [State.WaitsLongEnough, waitsAtLeast, waitFloor, busyState, setdlyBegun, Bus.reset]

end Sys2Proof.Tests
end

/-! PROOFS. The configuration record of 00_scope.md R7 and the wait bound of R11: the facts about the model's functions
first, then the theorems that settle O57, O60 and O59. -/

namespace Sys2Proof

/-- The commands whose meaning does not depend on the configuration record: all but the decode commands, DERV and POLL
(R7). -/
def Instr.ignoresConfig : Instr → Bool
  | .nop | .start | .stop | .send _ | .wack | .recv | .nack | .wreg _ _ | .rreg _ | .impute
  | .setdly _ | .setaddr _ | .setpoll _ => true
  | .decvVbat _ | .decvOcv _ | .deciIbat _ | .deciOut1 _ | .deciOut2 _ | .deciTypec _ | .deciVin _ | .decp _
  | .decsSys _ | .decsChg _ | .decsNtc _ | .decsBoost _ | .decsMos _ | .derv | .poll => false

end Sys2Proof

namespace Sys2Proof.Machine

/-! ## Waits long enough -/

@[simp] theorem waitsAtLeast_reverse {n : Nat} {es : List Event} :
    waitsAtLeast n es.reverse ↔ waitsAtLeast n es := by
  simp [waitsAtLeast]

theorem waitsAtLeast_cons {n : Nat} {e : Event} {es : List Event} :
    waitsAtLeast n (e :: es) ↔ waitsAtLeast n [e] ∧ waitsAtLeast n es := by
  simp [waitsAtLeast]

/-- The waits of a command, past and to come, last at least tD of one CFG_DELAY value. -/
def waitsFit (d : BitVec 16) (past todo : List Event) : Prop :=
  waitsAtLeast (waitFloor d) past ∧ waitsAtLeast (waitFloor d) todo

/-- The next event of a command happens. -/
theorem waitsFit.next {d : BitVec 16} {past es : List Event} {e : Event} (h : waitsFit d past (e :: es)) :
    waitsFit d (e :: past) es := by
  obtain ⟨hpast, htodo⟩ := h
  obtain ⟨he, hes⟩ := waitsAtLeast_cons.mp htodo
  exact ⟨waitsAtLeast_cons.mpr ⟨he, hpast⟩, hes⟩

theorem waitsLongEnough_of_free {s : State} (h : s.inFlight = none) :
    s.WaitsLongEnough ↔ waitsAtLeast (waitFloor s.regs.cfgDelay) s.bus.past := by
  simp [State.WaitsLongEnough, h]

/-- With a command in progress the waits fit the committed CFG_DELAY and that of the shadow copy. -/
theorem waitsLongEnough_of_busy {s : State} {f : InFlight} (h : s.inFlight = some f) :
    s.WaitsLongEnough ↔
      waitsFit s.regs.cfgDelay s.bus.past f.todo ∧ waitsFit f.shadow.cfgDelay s.bus.past f.todo := by
  simp [State.WaitsLongEnough, waitsFit, h, and_assoc]

theorem waitsLongEnough_withInFlight (s : State) (f : InFlight) :
    State.WaitsLongEnough { s with inFlight := some f } ↔
      waitsFit s.regs.cfgDelay s.bus.past f.todo ∧ waitsFit f.shadow.cfgDelay s.bus.past f.todo :=
  waitsLongEnough_of_busy rfl

/-- An edge of a command in progress moves an event from those to come to those past, or commits the shadow copy. -/
theorem advance_waitsLongEnough {f : InFlight} {s : State} (hregs : waitsFit s.regs.cfgDelay s.bus.past f.todo)
    (hshadow : waitsFit f.shadow.cfgDelay s.bus.past f.todo) : (advance f s).WaitsLongEnough := by
  rcases advance_cases f s with ⟨n, es, -, -, hadv⟩ | ⟨e, es, k, htodo, hadv⟩ | ⟨-, -, hadv⟩ | ⟨-, -, hadv⟩ <;>
    rw [hadv]
  · exact (waitsLongEnough_withInFlight s _).mpr ⟨hregs, hshadow⟩
  · rw [htodo] at hregs hshadow
    refine (waitsLongEnough_withInFlight (s.play e) _).mpr ⟨?_, ?_⟩
    · simpa using hregs.next
    · simpa using hshadow.next
  · exact (waitsLongEnough_withInFlight s _).mpr ⟨hregs, hshadow⟩
  · exact (waitsLongEnough_of_free rfl).mpr hshadow.1

theorem applyReset_waitsLongEnough (r : Regs) (s : State) : (s.applyReset r).WaitsLongEnough :=
  (waitsLongEnough_of_free rfl).mpr (waitsAtLeast_nil _)

/-- The waits of a run from an empty trace fit the CFG_DELAY it keeps. -/
theorem Reaches.waits {s t : State} (h : Reaches s t) (hs : s.bus.past = []) :
    waitsAtLeast (waitFloor s.regs.cfgDelay) t.bus.past := by
  obtain ⟨es, hrun⟩ := h
  simpa [hrun.bus, Bus.playAll_past, hs] using hrun.waits

theorem Reaches.cfgDelay {s t : State} (h : Reaches s t) : t.regs.cfgDelay = s.regs.cfgDelay :=
  let ⟨_, hrun⟩ := h
  hrun.delay

theorem Reaches.inFlight {s t : State} (h : Reaches s t) : t.inFlight = s.inFlight :=
  let ⟨_, hrun⟩ := h
  hrun.inFlight

/-- The waits of a word that runs whole fit CFG_DELAY before it and after it: SETDLY, the one command that writes
CFG_DELAY, waits for nothing. -/
theorem runWord_waits {w : Word} {s t : State} (h : runWord Block.default w s = .next t) :
    waitsAtLeast (waitFloor s.regs.cfgDelay) t.bus.past ∧
      waitsAtLeast (waitFloor t.regs.cfgDelay) t.bus.past ∧ t.inFlight = s.inFlight := by
  obtain ⟨t', ht', hout⟩ := runWord_outcome w s
  obtain rfl : t' = t := by simpa [ht'] using h
  rcases hout with hreach | ⟨d, -, rfl⟩
  · have hwaits := hreach.waits rfl
    exact ⟨hwaits, hreach.cfgDelay ▸ hwaits, hreach.inFlight⟩
  · exact ⟨waitsAtLeast_nil _, waitsAtLeast_nil _, rfl⟩

/-- The state in which a word has just begun, by the state its run ends in. -/
theorem beginWord_eq_next {k : Block} {w : Word} {s t : State} (h : beginWord k w s = .next t) :
    ∃ u, runWord k w s = .next u ∧ t = { s.accept with inFlight := some (inFlightOf w s u) } := by
  unfold beginWord at h
  split at h
  · exact ⟨_, ‹_›, by simpa using h.symm⟩
  · cases h
  · cases h

theorem beginWord_waitsLongEnough {w : Word} {s t : State} (h : beginWord Block.default w s = .next t) :
    t.WaitsLongEnough := by
  obtain ⟨u, hu, rfl⟩ := beginWord_eq_next h
  obtain ⟨hbefore, hafter, -⟩ := runWord_waits hu
  exact (waitsLongEnough_withInFlight _ _).mpr
    ⟨⟨waitsAtLeast_nil _, waitsAtLeast_reverse.mpr hbefore⟩, ⟨waitsAtLeast_nil _, waitsAtLeast_reverse.mpr hafter⟩⟩

/-- Settles O57, by the cases of a step: an edge of the command in progress, a reset, an edge that leaves the bus alone,
and a word that runs whole or begins. -/
theorem stepKeepsWaitsLongEnough : Obligations.StepKeepsWaitsLongEnough := by
  intro s t hs hstep
  rcases step_cases s t hstep with ⟨f, u, hf, hbus, hregs, rfl⟩ | ⟨u, rfl⟩ | ⟨hf, hbus, hregs, ht⟩ |
    ⟨w, u, -, hu, -, -, hrun | hbegin⟩
  · obtain ⟨hcommitted, hshadow⟩ := (waitsLongEnough_of_busy hf).mp hs
    rw [← hbus] at hcommitted hshadow
    rw [← hregs] at hcommitted
    exact advance_waitsLongEnough hcommitted hshadow
  · exact applyReset_waitsLongEnough _ _
  · rw [waitsLongEnough_of_free ht, hbus, hregs]
    exact (waitsLongEnough_of_free hf).mp hs
  · obtain ⟨-, hafter, ht⟩ := runWord_waits hrun
    exact (waitsLongEnough_of_free (ht.trans hu)).mpr hafter
  · exact beginWord_waitsLongEnough hbegin

/-! ## The decode commands, DERV and POLL over a record -/

/-- A reading is the transform k of m saturated to 32 bits, or 0 and not ready for the raw value 0xFFFF (R162, R164). -/
def Reading.isLin (x : Reading) (r : Raw16) (m : Nat) (k : Scale) : Prop :=
  x.valid = decide (r ≠ 0xFFFF#16) ∧
    x.value.toNat = if r = 0xFFFF#16 then 0 else min (m * k.num / k.den + k.off) (2 ^ 32 - 1)

/-- The shape that voltages, currents and powers share. -/
theorem isLin_sentinel (r : Raw16) (m : Nat) (k : Scale) :
    Reading.isLin (if r = 0xFFFF#16 then .notReady else { value := lin m k, valid := true }) r m k := by
  unfold Reading.isLin
  split
  · simp [Reading.notReady, *]
  · exact ⟨by simp [*], sat32_toNat _⟩

theorem dv_isLin (c : Config) (ch : VChan) (r : Raw16) : (dv c ch r).isLin r r.toNat (c.volt ch) :=
  isLin_sentinel r _ _

theorem di_isLin (c : Config) (ch : IChan) (r : Raw16) : (di c ch r).isLin r (fold r) (c.curr ch) :=
  isLin_sentinel r _ _

theorem dp_isLin (c : Config) (r : Raw16) : (dp c r).isLin r r.toNat c.power :=
  isLin_sentinel r _ _

/-- A port's voltage is the record's PORTV once MOS and BOOST are ready (R190). -/
theorem vport_value (c : Config) (r : Results) (p : Port) : (vport c r p).value =
    if r.valid.getLsbD 16 = true ∧ r.valid.getLsbD 15 = true then
      c.portV p (r.mos.getLsbD p.idx) (r.boost.extractLsb' 0 4)
    else 0#32 := by
  unfold vport
  simp only [Results.ready, StatusKind.validBit, Bool.and_eq_true, portEnabled]
  split <;> rfl

/-- The command writes the results u and ERR = NONE, and nothing else. -/
def writesResults (s : State) (o : Host.Outcome State Fault Refusal) (u : Results) : Prop :=
  ∃ t, o = .next t ∧ t.bus = s.bus ∧ s.OutsideSame t ∧ t.regs = { s.regs with err := .none, res := u }

theorem setRes_done_writesResults (s : State) (u : Results) : writesResults s (.next (s.setRes u).done) u :=
  ⟨_, rfl, rfl, ⟨rfl, rfl, rfl, rfl⟩, rfl⟩

theorem transact_of_idle {s : State} (h : s.regs.phase = .idle) (body : State → State) :
    transact body s = body s := by
  simp [transact, Regs.mayTransact, h]

/-- A POLL from IDLE whose slots all ACK at once and whose slaves give the bytes (R194). -/
theorem pollBody_script (c : Config) {s : State} {bytes : List Byte} {rest : List Bool} (hp : s.regs.phase = .idle)
    (hn : bytes.length = 21)
    (hl : s.bus.slave = bytes.flatMap (fun b => [false, false, false] ++ wireBits b) ++ rest) :
    (pollBody c s).bus.Released ∧ (pollBody c s).bus.slave = rest ∧ (pollBody c s).regs.err = .none ∧
      (pollBody c s).regs.res = pollResults c bytes s.regs.res := by
  obtain ⟨t, -, hread, hslave, -⟩ := readAll_script (pollAddrs c) bytes rest s (by simp [hn]) hl
  rcases readAll_cases (pollAddrs c) s hp with ⟨bytes', -, t', hread', -, -, -, -, -, hend⟩ |
    ⟨-, -, -, e, -, t', -, -, hread', -⟩
  · obtain ⟨rfl, rfl⟩ : bytes = bytes' ∧ t = t' := by simpa [hread] using hread'
    obtain ⟨hrel, hregs⟩ := hend (List.cons_ne_nil _ _)
    simp only [pollBody, hread]
    exact ⟨hrel, hslave, rfl, by simp [hregs]⟩
  · rw [hread] at hread'
    cases hread'

/-- Settles O60: each decode command writes its reading and ERR, DERV the record's port voltages, and a POLL whose slots
all ACK the results of its bytes. -/
theorem decodeCommandsFollowTheConfiguration : Obligations.DecodeCommandsFollowTheConfiguration := by
  intro c s
  refine ⟨fun r => ⟨dv c .vbat r, dv_isLin _ _ _, setRes_done_writesResults s _⟩,
    fun r => ⟨dv c .ocv r, dv_isLin _ _ _, setRes_done_writesResults s _⟩,
    fun r => ⟨di c .ibat r, di_isLin _ _ _, setRes_done_writesResults s _⟩,
    fun p r => ⟨di c (.port p) r, di_isLin _ _ _, ?_⟩,
    fun r => ⟨dp c r, dp_isLin _ _, setRes_done_writesResults s _⟩, fun k b => ?_,
    ⟨deriveAll c s.regs.res, setRes_done_writesResults s _, fun p => ?_⟩, fun bytes rest hp hn hl => ?_⟩
  · cases p <;> exact setRes_done_writesResults s _
  · cases k <;> exact setRes_done_writesResults s _
  · rw [deriveAll_vport, vport_value]
  · exact ⟨pollBody c s, congrArg _ (transact_of_idle hp _), pollBody_script c hp hn hl⟩

/-! ## The machine over a record -/

theorem execOf_congr {i : Instr} (h : i.ignoresConfig = true) (c d : Config) (s : State) :
    execOf c i s = execOf d i s := by
  cases i <;> cases h <;> rfl

/-- A free block runs the command of the word the host issues. -/
theorem stepOf_issue (c : Config) {s : State} {w : Word} {rest : List HostAct} {i : Instr} (hfree : s.inFlight = none)
    (hhost : s.host = .issue w :: rest) (hw : decode w = .legal i) :
    stepOf c s = execOf c i (State.accept { s with host := rest }) := by
  have hnow : s.hostNow = .issue w := by simp [State.hostNow, hhost]
  have htaken : s.hostTaken = { s with host := rest } := by simp [State.hostTaken, hhost]
  rw [stepOf, edge_free _ hfree, hnow, htaken]
  exact runWord_legal hw _ _

/-- `rst` acts on every edge, with a command in progress or without (R250). -/
theorem edge_reset (k : Block) {s : State} {also : Option Word} {rest : List HostAct}
    (hhost : s.host = .reset also :: rest) : edge k s = .next (s.hostTaken.applyReset k.resetRegs) := by
  have hnow : s.hostNow = .reset also := by simp [State.hostNow, hhost]
  cases hf : s.inFlight with
  | none => rw [edge_free k hf, hnow]; rfl
  | some f => rw [edge_busy k hf, hnow]; rfl

/-- Settles O59: `execOf_block` and `stepOf_block` for the default record, and for any record what a word, a command and
`rst` do. -/
theorem machineTakesItsConfiguration : Obligations.MachineTakesItsConfiguration := by
  refine ⟨execOf_block, stepOf_block, rfl, fun c s w rest i => stepOf_issue c, fun c d s i hi => ?_,
    fun c d s a b x i hi => ?_, fun c s also rest hhost => ?_⟩
  · exact execOf_congr (List.all_eq_true.mp rfl i hi) c d s
  · exact execOf_congr (List.all_eq_true.mp rfl i hi) c d s
  · exact ⟨_, edge_reset _ hhost, rfl, rfl, rfl, rfl, rfl⟩

end Sys2Proof.Machine

/-! PROOFS. The register file of 10_state.md: host reads, the results and their VALID bits, and a command run edge by
edge. The facts about the model's functions come first in each part, then the theorems that settle O15, O16, O49, O56,
O58 and O13. -/

namespace Sys2Proof.Machine

/-! ## Host reads: STATUS and the reserved indices -/

/-- Settles O15: of the cases of a host read only the default one is at 0x18 or above. -/
theorem reservedIndicesReadZero : Obligations.ReservedIndicesReadZero := by
  intro s level i hi
  unfold State.hostRead
  split
  case h_25 => rfl
  all_goals omega

/-- A field placed at bit k of a word. -/
theorem zeroExtend_shiftLeft_getLsbD {m : Nat} (x : BitVec m) (k : Nat) {n : Nat} (hn : n < 32) :
    (x.zeroExtend 32 <<< k).getLsbD n = (decide (k ≤ n) && x.getLsbD (n - k)) := by
  by_cases hk : k ≤ n
  · simp [hn, hk]
  · have : n < k := by omega
    simp [hk, this]

/-- Every bit of STATUS (R24). -/
theorem status_getLsbD (s : State) (level : Bool) {n : Nat} (hn : n < 32) : (s.status level).getLsbD n =
    (decide (n = 0) && s.busy || decide (n = 1) && s.regs.ackf || decide (n = 2) && s.regs.dir ||
      decide (n = 3) && s.ovr || decide (4 ≤ n) && s.regs.phase.code.getLsbD (n - 4) ||
      decide (8 ≤ n) && s.regs.err.code.getLsbD (n - 8) || decide (n = 16) && s.bus.scl ||
      decide (n = 17) && s.bus.sda || decide (n = 18) && s.bus.line level) := by
  simp only [State.status, BitVec.getLsbD_or, bitAt_getLsbD, Nat.reduceLT,
    zeroExtend_shiftLeft_getLsbD, hn]

/-- The bits of STATUS from `start` on are the field x. -/
theorem status_field (s : State) (level : Bool) {len : Nat} (start : Nat) (x : BitVec len)
    (h : ∀ i < len, (s.status level).getLsbD (start + i) = x.getLsbD i) :
    (s.status level).extractLsb' start len = x := by
  apply BitVec.eq_of_getLsbD_eq
  intro i hi
  rw [BitVec.getLsbD_extractLsb', h i hi]
  simp [hi]

theorem Phase.code_le (p : Phase) : p.code.toNat ≤ 5 := by cases p <;> decide

theorem Err.code_le (e : Err) : e.code.toNat ≤ 6 := by cases e <;> decide

theorem hostRead_status (s : State) (level : Bool) : s.hostRead level 0#6 = s.status level := rfl

/-- The fields of STATUS that are wider than one bit, and its reserved fields but bit 7. -/
theorem status_fields (s : State) (level : Bool) :
    (s.status level).extractLsb' 4 3 = s.regs.phase.code ∧ (s.status level).extractLsb' 8 4 = s.regs.err.code ∧
      (s.status level).extractLsb' 12 4 = 0#4 ∧ (s.status level).extractLsb' 19 13 = 0#13 := by
  refine ⟨status_field s level _ _ ?_, status_field s level _ _ ?_, status_field s level _ _ ?_,
    status_field s level _ _ ?_⟩ <;> intro i hi
  all_goals interval_cases i <;> simp [status_getLsbD, -BitVec.getLsbD_eq_getElem]

/-- Settles O16, bit by bit: a field's bits are those of its code, and no field reaches a reserved bit. -/
theorem statusHoldsItsFields : Obligations.StatusHoldsItsFields := by
  intro s level
  obtain ⟨hphase, herr, hlow, hhigh⟩ := status_fields s level
  rw [hostRead_status]
  refine ⟨?_, ?_, ?_, ?_, hphase, ?_, herr, hlow, ?_, ?_, ?_, hhigh, hphase ▸ s.regs.phase.code_le,
    herr ▸ s.regs.err.code_le⟩
  all_goals simp [status_getLsbD, State.busy, Bus.line, -BitVec.getLsbD_eq_getElem]

/-! ## The results, register by register -/

/-- A result with a VALID bit (10_state.md R36). -/
inductive ResultReg where
  | volt (ch : VChan)
  | curr (ch : IChan)
  | power
  | vport (p : Port)
  | status (k : StatusKind)
deriving DecidableEq

/-- The register's VALID bit. -/
def ResultReg.validBit : ResultReg → Nat
  | .volt ch => ch.validBit
  | .curr ch => ch.validBit
  | .power => pwrValidBit
  | .vport p => vportValidBit p
  | .status k => k.validBit

/-- The bits of the register that no field names (R23, R42 to R46). -/
def ResultReg.reserved : ResultReg → Word
  | .status .sys => 0xFFFFFFE8#32
  | .status .chg => 0xFFFF00F8#32
  | .status .ntc => 0xFFFFFF8E#32
  | .status .boost => 0xFFFFFFF0#32
  | .status .mos => 0xFFFFFFF0#32
  | .volt _ | .curr _ | .power | .vport _ => 0#32

/-- The result registers in the order of their VALID bits. -/
def ResultReg.all : List ResultReg :=
  [.volt .vbat, .volt .ocv, .curr .ibat, .power, .vport .out1, .vport .out2, .vport .typec, .vport .vin,
   .curr (.port .out1), .curr (.port .out2), .curr (.port .typec), .curr (.port .vin),
   .status .sys, .status .chg, .status .ntc, .status .boost, .status .mos]

theorem ResultReg.mem_all (a : ResultReg) : a ∈ ResultReg.all := by
  cases a with
  | volt ch => cases ch <;> decide
  | curr ch =>
    cases ch with
    | ibat => decide
    | port p => cases p <;> decide
  | power => decide
  | vport p => cases p <;> decide
  | status k => cases k <;> decide

theorem ResultReg.all_validBits : ResultReg.all.map ResultReg.validBit = List.range 17 := rfl

/-- VALID bit n belongs to some result register. -/
theorem ResultReg.exists_validBit {n : Nat} (hn : n < 17) : ∃ a : ResultReg, a.validBit = n := by
  obtain ⟨a, -, ha⟩ := List.mem_map.mp (ResultReg.all_validBits ▸ List.mem_range.mpr hn)
  exact ⟨a, ha⟩

theorem ResultReg.validBit_lt (a : ResultReg) : a.validBit < 17 :=
  List.mem_range.mp (ResultReg.all_validBits ▸ List.mem_map_of_mem a.mem_all)

/-- No two result registers share a VALID bit. -/
theorem ResultReg.validBit_inj {a b : ResultReg} (h : a.validBit = b.validBit) : a = b :=
  List.inj_on_of_nodup_map (ResultReg.all_validBits ▸ List.nodup_range) a.mem_all b.mem_all h

/-- What a result register holds, with its VALID bit. -/
def Results.reading (r : Results) (a : ResultReg) : Reading where
  value :=
    match a with
    | .volt ch => r.volt ch
    | .curr ch => r.curr ch
    | .power => r.pwr
    | .vport p => r.vport.get p
    | .status k => r.status k
  valid := r.ready a.validBit

/-- The results with one register and its VALID bit written. -/
def Results.put (r : Results) (a : ResultReg) (x : Reading) : Results :=
  match a with
  | .volt ch => r.putVolt ch x
  | .curr ch => r.putCurr ch x
  | .power => r.putPower x
  | .vport p => r.putVport p x
  | .status k => r.putStatus k x

theorem ready_put (r : Results) (a : ResultReg) (x : Reading) (n : Nat) :
    (r.put a x).ready n = if n = a.validBit then x.valid else r.ready n := by
  cases a with
  | volt ch => exact ready_putVolt r x n ch
  | curr ch => exact ready_putCurr r x n ch
  | power => exact ready_putPower r x n
  | vport p => exact ready_putVport r x n p
  | status k => exact ready_putStatus r x n k

/-- A write changes its own register and no other. -/
theorem value_put (r : Results) (a b : ResultReg) (x : Reading) :
    ((r.put a x).reading b).value = if b = a then x.value else (r.reading b).value := by
  cases a with
  | volt ch => cases ch <;> rcases b with (_ | _) | _ | _ | _ | _ <;> rfl
  | curr ch =>
    cases ch with
    | ibat => rcases b with _ | (_ | _) | _ | _ | _ <;> rfl
    | port p =>
      rcases b with _ | (_ | q) | _ | _ | _
      case curr.port =>
        simp only [ResultReg.curr.injEq, IChan.port.injEq]
        exact Ports.get_set r.iport p q x.value
      all_goals rfl
  | power => cases b <;> rfl
  | vport p =>
    cases b
    case vport q =>
      simp only [ResultReg.vport.injEq]
      exact Ports.get_set r.vport p q x.value
    all_goals rfl
  | status k => cases k <;> rcases b with _ | _ | _ | _ | (_ | _ | _ | _ | _) <;> rfl

theorem reading_put_self (r : Results) (a : ResultReg) (x : Reading) : (r.put a x).reading a = x := by
  have hvalue := value_put r a a x
  have hvalid := ready_put r a x a.validBit
  rw [if_pos rfl] at hvalue hvalid
  exact congrArg₂ Reading.mk hvalue hvalid

theorem reading_put_of_ne {a b : ResultReg} (hb : b ≠ a) (r : Results) (x : Reading) :
    (r.put a x).reading b = r.reading b := by
  have hvalue := value_put r a b x
  have hvalid := ready_put r a x b.validBit
  rw [if_neg hb] at hvalue
  rw [if_neg (fun h => hb (ResultReg.validBit_inj h))] at hvalid
  exact congrArg₂ Reading.mk hvalue hvalid

/-- The results with some registers written, in order. -/
def Results.putAll (r : Results) (l : List (ResultReg × Reading)) : Results :=
  l.foldl (fun r ax => r.put ax.1 ax.2) r

/-- Results in which the same registers have been written agree on those registers. -/
theorem reading_putAll_congr {l : List (ResultReg × Reading)} {r q : Results} {b : ResultReg}
    (h : b ∈ l.map Prod.fst ∨ r.reading b = q.reading b) :
    (r.putAll l).reading b = (q.putAll l).reading b := by
  induction l generalizing r q with
  | nil => exact h.resolve_left List.not_mem_nil
  | cons ax l ih =>
    refine ih ?_
    by_cases hb : b = ax.1
    · subst hb
      exact .inr ((reading_put_self r _ _).trans (reading_put_self q _ _).symm)
    · rw [reading_put_of_ne hb, reading_put_of_ne hb]
      simpa [hb] using h

/-! ## The reserved bits of VALID -/

/-- A masked word is 0 when every bit of the mask is 0 in the word. -/
theorem and_eq_zero_iff (w m : Word) :
    w &&& m = 0#32 ↔ ∀ n < 32, m.getLsbD n = true → w.getLsbD n = false := by
  constructor
  · intro h n _ hm
    simpa [hm, -BitVec.getLsbD_eq_getElem] using congrArg (fun x => BitVec.getLsbD x n) h
  · intro h
    apply BitVec.eq_of_getLsbD_eq
    intro n hn
    rw [BitVec.getLsbD_and, BitVec.getLsbD_zero]
    cases hm : m.getLsbD n with
    | false => exact Bool.and_false _
    | true => simp [h n hn hm]

/-- The reserved bits of VALID are those no result register owns (R36). -/
theorem valid_reserved_iff (r : Results) :
    r.valid &&& 0xFFFE0000#32 = 0#32 ↔ ∀ n, 17 ≤ n → r.ready n = false := by
  have hmask : ∀ n < 32, ((0xFFFE0000#32).getLsbD n = true ↔ 17 ≤ n) := by decide
  rw [and_eq_zero_iff]
  constructor
  · intro h n hn
    by_cases h32 : n < 32
    · exact h n h32 ((hmask n h32).mpr hn)
    · exact BitVec.getLsbD_of_ge _ _ (by omega)
  · exact fun h n h32 hn => h n ((hmask n h32).mp hn)

theorem valid_reserved_put {r : Results} (h : r.valid &&& 0xFFFE0000#32 = 0#32) (a : ResultReg) (x : Reading) :
    (r.put a x).valid &&& 0xFFFE0000#32 = 0#32 := by
  rw [valid_reserved_iff] at h ⊢
  intro n hn
  have := a.validBit_lt
  rw [ready_put, if_neg (by omega), h n hn]

theorem valid_reserved_putAll {r : Results} (h : r.valid &&& 0xFFFE0000#32 = 0#32) (l : List (ResultReg × Reading)) :
    (r.putAll l).valid &&& 0xFFFE0000#32 = 0#32 := by
  induction l generalizing r with
  | nil => exact h
  | cons ax l ih => exact ih (valid_reserved_put h _ _)

/-! ## POLL's results as writes of registers -/

/-- The registers POLL decodes and what it writes there (R194). -/
def pollWrites (c : Config) (bytes : List Byte) : List (ResultReg × Reading) :=
  [(.volt .vbat, dv c .vbat (rawAt bytes 0)), (.volt .ocv, dv c .ocv (rawAt bytes 1)),
   (.curr .ibat, di c .ibat (rawAt bytes 2)), (.power, dp c (rawAt bytes 3)),
   (.curr (.port .out1), di c (.port .out1) (rawAt bytes 4)), (.curr (.port .out2), di c (.port .out2) (rawAt bytes 5)),
   (.curr (.port .typec), di c (.port .typec) (rawAt bytes 6)), (.curr (.port .vin), di c (.port .vin) (rawAt bytes 7)),
   (.status .sys, ds c .sys (statusAt bytes 0)), (.status .chg, ds c .chg (statusAt bytes 1)),
   (.status .ntc, ds c .ntc (statusAt bytes 2)), (.status .boost, ds c .boost (statusAt bytes 3)),
   (.status .mos, ds c .mos (statusAt bytes 4))]

theorem pollDecode_eq (c : Config) (bytes : List Byte) (r : Results) :
    pollDecode c bytes r = r.putAll (pollWrites c bytes) := rfl

/-- The registers DERV writes and what it writes there (R191). -/
def vportWrites (c : Config) (r : Results) : List (ResultReg × Reading) :=
  allPorts.map fun p => (.vport p, vport c r p)

theorem deriveAll_eq_putAll (c : Config) (r : Results) : deriveAll c r = r.putAll (vportWrites c r) := rfl

/-- POLL decodes every result register but the port voltages. -/
theorem mem_pollWrites (c : Config) (bytes : List Byte) {a : ResultReg} (h : ∀ p, a ≠ .vport p) :
    a ∈ (pollWrites c bytes).map Prod.fst := by
  cases a with
  | volt ch => cases ch <;> simp [pollWrites]
  | curr ch =>
    cases ch with
    | ibat => simp [pollWrites]
    | port p => cases p <;> simp [pollWrites]
  | power => simp [pollWrites]
  | vport p => exact absurd rfl (h p)
  | status k => cases k <;> simp [pollWrites]

/-- DERV writes every port voltage. -/
theorem mem_vportWrites (c : Config) (r : Results) (p : Port) : .vport p ∈ (vportWrites c r).map Prod.fst := by
  cases p <;> simp [vportWrites, allPorts]

/-- A port's voltage depends on the readings of MOS and BOOST (R190). -/
theorem vport_congr (c : Config) {r q : Results} (hmos : r.reading (.status .mos) = q.reading (.status .mos))
    (hboost : r.reading (.status .boost) = q.reading (.status .boost)) (p : Port) : vport c r p = vport c q p := by
  simp only [Results.reading, Reading.mk.injEq, Results.status, ResultReg.validBit] at hmos hboost
  simp [vport, portEnabled, hmos, hboost]

/-- The results are their readings, VALID and IMP. -/
theorem Results.ext_readings {r q : Results} (h : ∀ a, r.reading a = q.reading a) (hvalid : r.valid = q.valid)
    (himp : r.imp = q.imp) : r = q := by
  have hvalue (a : ResultReg) : (r.reading a).value = (q.reading a).value := congrArg _ (h a)
  have hvbat := hvalue (.volt .vbat)
  have hocv := hvalue (.volt .ocv)
  have hibat := hvalue (.curr .ibat)
  have hpwr := hvalue .power
  have hvport := Ports.ext_get fun p => hvalue (.vport p)
  have hiport := Ports.ext_get fun p => hvalue (.curr (.port p))
  have hsys := hvalue (.status .sys)
  have hchg := hvalue (.status .chg)
  have hntc := hvalue (.status .ntc)
  have hboost := hvalue (.status .boost)
  have hmos := hvalue (.status .mos)
  cases r
  cases q
  simp_all [Results.reading, Results.volt, Results.curr, Results.status]

/-- The imputation overwrites IMP and does not read it (R193). -/
theorem imputeAll_congr {r q : Results} (h : ∀ a, r.reading a = q.reading a) (hvalid : r.valid = q.valid) :
    imputeAll r = imputeAll q := by
  have hrq : { r with imp := q.imp } = q := Results.ext_readings h hvalid rfl
  calc imputeAll r = imputeAll { r with imp := q.imp } := rfl
    _ = imputeAll q := by rw [hrq]

theorem valid_eq_of_readings {r q : Results} (hr : r.valid &&& 0xFFFE0000#32 = 0#32)
    (hq : q.valid &&& 0xFFFE0000#32 = 0#32) (h : ∀ a, r.reading a = q.reading a) : r.valid = q.valid := by
  rw [valid_reserved_iff] at hr hq
  apply BitVec.eq_of_getLsbD_eq
  intro n _
  by_cases hn : n < 17
  · obtain ⟨a, rfl⟩ := ResultReg.exists_validBit hn
    exact congrArg Reading.valid (h a)
  · exact (hr n (by omega)).trans (hq n (by omega)).symm

/-- Settles O49: before the imputation POLL writes every result register, the decoded ones first and then the port
voltages, which depend on decoded ones; VALID has no further bits. -/
theorem pollForgetsTheOldResults : Obligations.PollForgetsTheOldResults := by
  intro c bytes r q hr hq
  have hdecode {a : ResultReg} (ha : ∀ p, a ≠ .vport p) :
      (pollDecode c bytes r).reading a = (pollDecode c bytes q).reading a :=
    reading_putAll_congr (.inl (mem_pollWrites c bytes ha))
  have hwrites : vportWrites c (pollDecode c bytes r) = vportWrites c (pollDecode c bytes q) :=
    List.map_congr_left fun p _ => congrArg _ (vport_congr c (hdecode nofun) (hdecode nofun) p)
  have hall (a : ResultReg) : (deriveAll c (pollDecode c bytes r)).reading a =
      (deriveAll c (pollDecode c bytes q)).reading a := by
    rw [deriveAll_eq_putAll, deriveAll_eq_putAll, hwrites]
    refine reading_putAll_congr ?_
    by_cases ha : ∃ p, a = .vport p
    · obtain ⟨p, rfl⟩ := ha
      exact .inl (mem_vportWrites c _ p)
    · exact .inr (hdecode (not_exists.mp ha))
  have hreserved {u : Results} (hu : u.valid &&& 0xFFFE0000#32 = 0#32) :
      (deriveAll c (pollDecode c bytes u)).valid &&& 0xFFFE0000#32 = 0#32 := by
    rw [deriveAll_eq_putAll, pollDecode_eq]
    exact valid_reserved_putAll (valid_reserved_putAll hu _) _
  exact imputeAll_congr hall (valid_eq_of_readings (hreserved hr) (hreserved hq) hall)

/-! ## Legal results -/

/-- What a result register may hold: 0 when it is not ready (R36), and 0 in its reserved bits (R42 to R46). -/
def ResultReg.Allows (a : ResultReg) (x : Reading) : Prop :=
  (x.valid = false → x.value = 0#32) ∧ x.value &&& a.reserved = 0#32

/-- Legal results, register by register (R36, R42 to R47). -/
structure Results.Legal (r : Results) : Prop where
  readings : ∀ a : ResultReg, a.Allows (r.reading a)
  valid : r.valid &&& 0xFFFE0000#32 = 0#32
  imp : r.imp &&& 0xFFFFFF00#32 = 0#32

theorem Results.Legal.notReadyZero {r : Results} (h : r.Legal) : r.NotReadyZero where
  volt ch := (h.readings (.volt ch)).1
  curr ch := (h.readings (.curr ch)).1
  power := (h.readings .power).1
  vport p := (h.readings (.vport p)).1
  status k := (h.readings (.status k)).1

theorem Results.Legal.reservedZero {r : Results} (h : r.Legal) : r.ReservedZero where
  valid := h.valid
  sys := (h.readings (.status .sys)).2
  chg := (h.readings (.status .chg)).2
  ntc := (h.readings (.status .ntc)).2
  boost := (h.readings (.status .boost)).2
  mos := (h.readings (.status .mos)).2
  imp := h.imp

theorem Results.legal_of {r : Results} (hzero : r.NotReadyZero) (hreserved : r.ReservedZero) : r.Legal where
  readings a := by
    cases a with
    | volt ch => exact ⟨hzero.volt ch, BitVec.and_zero⟩
    | curr ch => exact ⟨hzero.curr ch, BitVec.and_zero⟩
    | power => exact ⟨hzero.power, BitVec.and_zero⟩
    | vport p => exact ⟨hzero.vport p, BitVec.and_zero⟩
    | status k =>
      refine ⟨hzero.status k, ?_⟩
      cases k with
      | sys => exact hreserved.sys
      | chg => exact hreserved.chg
      | ntc => exact hreserved.ntc
      | boost => exact hreserved.boost
      | mos => exact hreserved.mos
  valid := hreserved.valid
  imp := hreserved.imp

/-- A register file is legal when its sample limit and its results are (R35). -/
theorem Regs.legal_iff (r : Regs) : r.Legal ↔ r.cfgAckpoll ≠ 0#8 ∧ r.res.Legal :=
  ⟨fun h => ⟨h.ackpoll, Results.legal_of h.notReady h.reserved⟩,
    fun ⟨hn, hr⟩ => ⟨hn, hr.notReadyZero, hr.reservedZero⟩⟩

/-! What the decodes give is allowed. -/

theorem statusReading_reserved (b : Byte) {out m : Word} (h : out &&& m = 0#32) :
    (statusReading b out).value &&& m = 0#32 := by
  unfold statusReading
  split
  · exact BitVec.zero_and
  · exact h

theorem or_reserved {x y m : Word} (hx : x &&& m = 0#32) (hy : y &&& m = 0#32) : (x ||| y) &&& m = 0#32 := by
  rw [BitVec.and_comm, BitVec.and_or_distrib_left, BitVec.and_comm, hx, BitVec.and_comm, hy, BitVec.zero_or]

theorem bitAt_reserved {n : Nat} (b : Bool) {m : Word} (h : (1#32 <<< n) &&& m = 0#32) : bitAt n b &&& m = 0#32 := by
  cases b with
  | false => exact BitVec.zero_and
  | true => exact h

/-- The registers of R42 to R46 hold the fields of R165 to R169 and nothing else. -/
theorem ds_reserved (c : Config) (k : StatusKind) (b : Byte) :
    (ds c k b).value &&& (ResultReg.status k).reserved = 0#32 := by
  cases k <;> refine statusReading_reserved b ?_ <;> simp only [ResultReg.reserved]
  case sys => revert b; decide
  case chg =>
    refine or_reserved ?_ ?_
    · generalize b >>> c.chgPhaseLsb = x
      revert x; decide
    · generalize b &&& c.chgToMask = x
      revert x; decide
  case ntc =>
    refine or_reserved (bitAt_reserved _ (by decide)) ?_
    generalize b >>> c.ntcZoneLsb = x
    revert x; decide
  case boost =>
    generalize b >>> c.boostLsb = x
    revert x; decide
  case mos =>
    exact or_reserved (or_reserved (or_reserved (bitAt_reserved _ (by decide)) (bitAt_reserved _ (by decide)))
      (bitAt_reserved _ (by decide))) (bitAt_reserved _ (by decide))

theorem dv_allowed (c : Config) (ch : VChan) (r : Raw16) : (ResultReg.volt ch).Allows (dv c ch r) :=
  ⟨dv_notReady c ch r, BitVec.and_zero⟩

theorem di_allowed (c : Config) (ch : IChan) (r : Raw16) : (ResultReg.curr ch).Allows (di c ch r) :=
  ⟨di_notReady c ch r, BitVec.and_zero⟩

theorem dp_allowed (c : Config) (r : Raw16) : ResultReg.power.Allows (dp c r) :=
  ⟨dp_notReady c r, BitVec.and_zero⟩

theorem ds_allowed (c : Config) (k : StatusKind) (b : Byte) : (ResultReg.status k).Allows (ds c k b) :=
  ⟨ds_notReady c k b, ds_reserved c k b⟩

theorem vport_allowed (c : Config) (r : Results) (p : Port) : (ResultReg.vport p).Allows (vport c r p) :=
  ⟨vport_notReady c r p, BitVec.and_zero⟩

/-! The operations on the results keep them legal. -/

theorem put_imp (r : Results) (a : ResultReg) (x : Reading) : (r.put a x).imp = r.imp := by
  cases a with
  | volt ch => cases ch <;> rfl
  | curr ch => cases ch <;> rfl
  | power => rfl
  | vport p => rfl
  | status k => cases k <;> rfl

theorem Results.Legal.put {r : Results} {a : ResultReg} {x : Reading} (h : r.Legal) (hx : a.Allows x) :
    (r.put a x).Legal where
  readings b := by
    by_cases hb : b = a
    · subst hb
      rwa [reading_put_self]
    · rw [reading_put_of_ne hb]
      exact h.readings b
  valid := valid_reserved_put h.valid a x
  imp := by rw [put_imp, h.imp]

theorem Results.Legal.putAll {r : Results} {l : List (ResultReg × Reading)} (h : r.Legal)
    (hl : ∀ ax ∈ l, ax.1.Allows ax.2) : (r.putAll l).Legal := by
  induction l generalizing r with
  | nil => exact h
  | cons ax l ih =>
    obtain ⟨hax, hl⟩ := List.forall_mem_cons.mp hl
    exact ih (h.put hax) hl

theorem Results.Legal.pollDecode {r : Results} (h : r.Legal) (c : Config) (bytes : List Byte) :
    (pollDecode c bytes r).Legal := by
  rw [pollDecode_eq]
  refine h.putAll ?_
  simp [pollWrites, dv_allowed, di_allowed, dp_allowed, ds_allowed]

theorem Results.Legal.deriveAll {r : Results} (h : r.Legal) (c : Config) : (deriveAll c r).Legal := by
  rw [deriveAll_eq_putAll]
  refine h.putAll ?_
  simp [vportWrites, vport_allowed]

/-- A current that is not ready is not imputed (R192). -/
theorem imputedCurrent_of_notReady {r : Results} {p : Port} (h : r.ready (iportValidBit p) = false) :
    imputedCurrent r p = r.iport.get p := by
  simp [imputedCurrent, imputed, imputable, h]

theorem impWord_reserved (imputed div0 : Port → Bool) : impWord imputed div0 &&& 0xFFFFFF00#32 = 0#32 := by
  have hmask : ∀ n < 32, (0xFFFFFF00#32).getLsbD n = true → 8 ≤ n := by decide
  rw [and_eq_zero_iff]
  exact fun n hn hm => impWord_high _ _ n (hmask n hn hm)

theorem Results.Legal.imputeAll {r : Results} (h : r.Legal) : (imputeAll r).Legal where
  readings a := by
    rcases a with ch | (_ | p) | _ | p | k
    case curr.port =>
      refine ⟨fun hnot => ?_, BitVec.and_zero⟩
      calc (Ports.ofFn (imputedCurrent r)).get p = imputedCurrent r p := Ports.get_ofFn _ p
        _ = r.iport.get p := imputedCurrent_of_notReady hnot
        _ = 0#32 := (h.readings (.curr (.port p))).1 hnot
    all_goals exact h.readings _
  valid := h.valid
  imp := impWord_reserved _ _

theorem Results.Legal.pollResults {r : Results} (h : r.Legal) (c : Config) (bytes : List Byte) :
    (pollResults c bytes r).Legal :=
  ((h.pollDecode c bytes).deriveAll c).imputeAll

theorem zero_value (a : ResultReg) : (Results.zero.reading a).value = 0#32 := by
  rcases a with ch | (_ | p) | _ | p | k
  · cases ch <;> rfl
  · rfl
  · cases p <;> rfl
  · rfl
  · cases p <;> rfl
  · cases k <;> rfl

theorem Results.zero_legal : Results.zero.Legal where
  readings a := ⟨fun _ => zero_value a, by rw [zero_value, BitVec.zero_and]⟩
  valid := rfl
  imp := rfl

/-! ## Every command keeps the registers legal -/

/-- Legality is about CFG_ACKPOLL and the results only. -/
theorem Regs.Legal.congr {r q : Regs} (h : r.Legal) (hn : q.cfgAckpoll = r.cfgAckpoll) (hr : q.res = r.res) :
    q.Legal := by
  rw [Regs.legal_iff] at h ⊢
  rwa [hn, hr]

theorem Regs.Legal.results {r : Regs} (h : r.Legal) : r.res.Legal := ((Regs.legal_iff r).mp h).2

theorem Regs.resetOf_legal (c : Config) : (Regs.resetOf c).Legal :=
  (Regs.legal_iff _).mpr ⟨by simp, Results.zero_legal⟩

/-- The results are written and the command ends. -/
theorem setRes_done_legal {s : State} {u : Results} (h : s.regs.Legal) (hu : u.Legal) :
    (s.setRes u).done.regs.Legal :=
  (Regs.legal_iff _).mpr ⟨h.ackpoll, hu⟩

theorem setErr_legal {s : State} (h : s.regs.Legal) (e : Err) : (s.setErr e).regs.Legal := h.congr rfl rfl

theorem startBody_legal {s : State} (h : s.regs.Legal) : (startBody s).regs.Legal := h.congr rfl rfl

theorem stopBody_legal {s : State} (h : s.regs.Legal) : (stopBody s).regs.Legal := h.congr rfl rfl

theorem sendBody_legal {s : State} (h : s.regs.Legal) (b : Byte) : (sendBody b s).regs.Legal := by
  rw [sendBody_regs]
  exact h.congr rfl rfl

theorem wackBody_legal {s : State} (h : s.regs.Legal) : (wackBody s).regs.Legal := by
  rw [wackBody_regs]
  exact h.congr rfl rfl

theorem recvBody_legal {s : State} (h : s.regs.Legal) : (recvBody s).regs.Legal := by
  rw [recvBody_regs]
  exact h.congr rfl rfl

theorem nackBody_legal {s : State} (h : s.regs.Legal) : (nackBody s).regs.Legal := h.congr rfl rfl

theorem sendAck_legal {s : State} (h : s.regs.Legal) (b : Byte) : (sendAck b s).regs.Legal :=
  wackBody_legal (sendBody_legal h b)

theorem wregBody_legal {s : State} (h : s.regs.Legal) (a v : Byte) : (wregBody a v s).regs.Legal := by
  have h1 := sendAck_legal (startBody_legal h) (addrByte s.regs.cfgSaddr false)
  have h2 := sendAck_legal h1 a
  have h3 := sendAck_legal h2 v
  unfold wregBody
  dsimp only
  split
  · exact setErr_legal (stopBody_legal h1) _
  · split
    · exact setErr_legal (stopBody_legal h2) _
    · split
      · exact setErr_legal (stopBody_legal h3) _
      · exact setErr_legal (stopBody_legal h3) _

theorem rregBody_legal {s : State} (h : s.regs.Legal) (a : Byte) : (rregBody a s).regs.Legal := by
  unfold rregBody
  rcases devRead_cases s a with ⟨t, b, -, hread, -, -, -, -, hregs⟩ | ⟨t, e, -, hread, -, -, -, hregs⟩ <;>
    rw [hread] <;> have ht : t.regs.Legal := hregs ▸ h.congr rfl rfl
  · exact setErr_legal ht _
  · exact ht.congr rfl rfl

theorem pollBody_legal {s : State} (h : s.regs.Legal) (hp : s.regs.phase = .idle) (c : Config) :
    (pollBody c s).regs.Legal := by
  unfold pollBody
  rcases readAll_cases (pollAddrs c) s hp with ⟨bytes, -, t, hread, -, -, -, -, -, hend⟩ |
    ⟨-, -, -, e, -, t, -, -, hread, -, -, -, -, x, hregs⟩
  · obtain ⟨-, hregs⟩ := hend (List.cons_ne_nil _ _)
    have ht : t.regs.Legal := hregs ▸ h.congr rfl rfl
    rw [hread]
    exact setRes_done_legal ht (ht.results.pollResults c bytes)
  · rw [hread]
    have ht : t.regs.Legal := hregs ▸ h.congr rfl rfl
    exact (Regs.legal_iff _).mpr ⟨ht.ackpoll, Results.zero_legal⟩

theorem checked_legal {s : State} (h : s.regs.Legal) (ok : Bool) {body : State → State}
    (hbody : (body s).regs.Legal) : (checked ok body s).regs.Legal := by
  unfold checked
  split
  · exact setErr_legal hbody _
  · exact setErr_legal h _

theorem mayTransact_iff (r : Regs) : r.mayTransact = true ↔ r.phase = .idle := by
  unfold Regs.mayTransact
  cases r.phase <;> decide

theorem transact_legal {s : State} (h : s.regs.Legal) {body : State → State}
    (hbody : s.regs.phase = .idle → (body s).regs.Legal) : (transact body s).regs.Legal := by
  unfold transact
  split
  · exact hbody ((mayTransact_iff _).mp ‹_›)
  · exact setErr_legal h _

/-- SETPOLL never stores 0 (R213). -/
theorem ackpollValue_ne_zero (n : Byte) : ackpollValue n ≠ 0#8 := by
  unfold ackpollValue
  split
  · decide
  · assumption

theorem execOf_legal (c : Config) (i : Instr) {s : State} (h : s.regs.Legal) :
    ∃ t, execOf c i s = .next t ∧ t.regs.Legal := by
  have hput {a : ResultReg} {x : Reading} (hx : a.Allows x) : (s.setRes (s.regs.res.put a x)).done.regs.Legal :=
    setRes_done_legal h (h.results.put hx)
  cases i with
  | nop => exact ⟨_, rfl, setErr_legal h _⟩
  | start => exact ⟨_, rfl, checked_legal h _ (startBody_legal h)⟩
  | stop => exact ⟨_, rfl, checked_legal h _ (stopBody_legal h)⟩
  | send b => exact ⟨_, rfl, checked_legal h _ (sendBody_legal h b)⟩
  | wack => exact ⟨_, rfl, checked_legal h _ (wackBody_legal h)⟩
  | recv => exact ⟨_, rfl, checked_legal h _ (recvBody_legal h)⟩
  | nack => exact ⟨_, rfl, checked_legal h _ (nackBody_legal h)⟩
  | wreg a v => exact ⟨_, rfl, transact_legal h fun _ => wregBody_legal h a v⟩
  | rreg a => exact ⟨_, rfl, transact_legal h fun _ => rregBody_legal h a⟩
  | decvVbat r => exact ⟨_, rfl, hput (dv_allowed c .vbat r)⟩
  | decvOcv r => exact ⟨_, rfl, hput (dv_allowed c .ocv r)⟩
  | deciIbat r => exact ⟨_, rfl, hput (di_allowed c .ibat r)⟩
  | deciOut1 r => exact ⟨_, rfl, hput (di_allowed c (.port .out1) r)⟩
  | deciOut2 r => exact ⟨_, rfl, hput (di_allowed c (.port .out2) r)⟩
  | deciTypec r => exact ⟨_, rfl, hput (di_allowed c (.port .typec) r)⟩
  | deciVin r => exact ⟨_, rfl, hput (di_allowed c (.port .vin) r)⟩
  | decp r => exact ⟨_, rfl, hput (dp_allowed c r)⟩
  | decsSys b => exact ⟨_, rfl, hput (ds_allowed c .sys b)⟩
  | decsChg b => exact ⟨_, rfl, hput (ds_allowed c .chg b)⟩
  | decsNtc b => exact ⟨_, rfl, hput (ds_allowed c .ntc b)⟩
  | decsBoost b => exact ⟨_, rfl, hput (ds_allowed c .boost b)⟩
  | decsMos b => exact ⟨_, rfl, hput (ds_allowed c .mos b)⟩
  | derv => exact ⟨_, rfl, setRes_done_legal h (h.results.deriveAll c)⟩
  | impute => exact ⟨_, rfl, setRes_done_legal h h.results.imputeAll⟩
  | poll => exact ⟨_, rfl, transact_legal h fun hp => pollBody_legal h hp c⟩
  | setdly d => exact ⟨_, rfl, h.congr rfl rfl⟩
  | setaddr a =>
    refine ⟨_, rfl, ?_⟩
    split
    · exact h.congr rfl rfl
    · exact setErr_legal h _
  | setpoll n => exact ⟨_, rfl, (Regs.legal_iff _).mpr ⟨ackpollValue_ne_zero n, h.results⟩⟩

theorem runWord_keeps_legal {w : Word} {s t : State} (h : s.regs.Legal) (hrun : runWord Block.default w s = .next t) :
    t.regs.Legal := by
  cases hw : decode w with
  | legal i =>
    obtain ⟨u, hu, hlegal⟩ := execOf_legal Config.block i (s := s.accept) h
    rw [runWord_legal hw] at hrun
    have : Host.Outcome.next u = .next t := hu.symm.trans ((execOf_block i _).trans hrun)
    obtain rfl : u = t := by simpa using this
    exact hlegal
  | illegal why =>
    rw [runWord_illegal hw] at hrun
    obtain rfl : s.accept.raise .illegal = t := by simpa using hrun
    exact setErr_legal (s := s.accept) h _

theorem regsLegal_of_free {s : State} (h : s.inFlight = none) : s.RegsLegal ↔ s.regs.Legal := by
  simp [State.RegsLegal, h]

theorem regsLegal_of_busy {s : State} {f : InFlight} (h : s.inFlight = some f) :
    s.RegsLegal ↔ s.regs.Legal ∧ f.shadow.Legal := by
  simp [State.RegsLegal, h]

/-- An edge of a command in progress keeps both copies of the registers, or commits the shadow copy. -/
theorem advance_regsLegal {f : InFlight} {s : State} (hregs : s.regs.Legal) (hshadow : f.shadow.Legal) :
    (advance f s).RegsLegal := by
  rcases advance_cases f s with ⟨n, es, -, -, hadv⟩ | ⟨e, es, k, -, hadv⟩ | ⟨-, -, hadv⟩ | ⟨-, -, hadv⟩ <;> rw [hadv]
  · exact ⟨hregs, hshadow⟩
  · exact ⟨hregs, hshadow⟩
  · exact ⟨hregs, hshadow⟩
  · exact (regsLegal_of_free rfl).mpr hshadow

/-- Settles O56, by the cases of a step: an edge of the command in progress, a reset, an edge that leaves the registers
alone, and a word that runs whole or begins. -/
theorem stepKeepsTheRegistersLegal : Obligations.StepKeepsTheRegistersLegal := by
  intro s t hs hstep
  rcases step_cases s t hstep with ⟨f, u, hf, -, hregs, rfl⟩ | ⟨u, rfl⟩ | ⟨-, -, hregs, ht⟩ |
    ⟨w, u, -, hu, -, hregs, hrun | hbegin⟩
  · obtain ⟨hcommitted, hshadow⟩ := (regsLegal_of_busy hf).mp hs
    exact advance_regsLegal (hregs ▸ hcommitted) hshadow
  · exact (regsLegal_of_free rfl).mpr (Regs.resetOf_legal _)
  · exact (regsLegal_of_free ht).mpr (hregs ▸ hs.1)
  · obtain ⟨-, -, ht⟩ := runWord_waits hrun
    exact (regsLegal_of_free (ht.trans hu)).mpr (runWord_keeps_legal (hregs ▸ hs.1) hrun)
  · obtain ⟨v, hv, rfl⟩ := beginWord_eq_next hbegin
    have hu : u.regs.Legal := hregs ▸ hs.1
    exact (regsLegal_of_busy rfl).mpr ⟨hu, runWord_keeps_legal hu hv⟩

/-- Settles O58: both lines are released, every result is 0 and not ready, and the trace is empty. -/
theorem resetMeetsTheInvariants : Obligations.ResetMeetsTheInvariants :=
  ⟨⟨rfl, rfl⟩, (regsLegal_of_free rfl).mpr (Regs.resetOf_legal _),
    (waitsLongEnough_of_free rfl).mpr (waitsAtLeast_nil _)⟩

/-! ## A command edge by edge -/

/-- Some number of steps takes s to t. -/
def State.Leads (s t : State) : Prop := ∃ n, stepN n s = .next t

theorem State.Leads.refl (s : State) : s.Leads s := ⟨0, rfl⟩

theorem State.Leads.of_step {s u t : State} (hstep : step s = .next u) (h : u.Leads t) : s.Leads t := by
  obtain ⟨n, hn⟩ := h
  exact ⟨n + 1, by simpa only [stepN, hstep] using hn⟩

/-- Once the schedule has ended, a step with a command in progress is an edge of that command. -/
theorem step_advance {s : State} {f : InFlight} (hf : s.inFlight = some f) (hhost : s.host = []) :
    step s = .next (advance f s) := by
  have hnow : s.hostNow = .idle := by simp [State.hostNow, hhost]
  have htaken : s.hostTaken = s := by cases s; simp_all [State.hostTaken]
  rw [step_busy hf, hnow, htaken]
  rfl

/-- The state once the events of a command in progress have happened and it has committed. -/
def State.finished (s : State) (f : InFlight) : State :=
  { s with regs := f.shadow, bus := s.bus.playAll f.todo, inFlight := none }

/-- With no event left a command settles and commits. -/
theorem leads_finished_of_done {s : State} {f : InFlight} (hf : s.inFlight = some f) (hhost : s.host = [])
    (htodo : f.todo = []) : s.Leads (s.finished f) := by
  induction hsettle : f.settle generalizing s f with
  | zero =>
    have hstep : step s = .next (s.finished f) := by
      simp [step_advance hf hhost, advance, htodo, hsettle, State.commit, State.finished]
    exact .of_step hstep (.refl _)
  | succ k ih =>
    have hstep : step s = .next { s with inFlight := some { f with settle := k } } := by
      simp [step_advance hf hhost, advance, htodo, hsettle]
    exact .of_step hstep (ih (f := { f with settle := k }) rfl hhost htodo rfl)

/-- The next event of a command happens, after the edges of its wait: what the machine then leads to it leads to before.
The induction is on the cycles of the wait that are left. -/
theorem leads_of_event {s t : State} {f : InFlight} {e : Event} {es : List Event} (hf : s.inFlight = some f)
    (hhost : s.host = []) (htodo : f.todo = e :: es)
    (h : ∀ k, State.Leads { s.play e with inFlight := some { f with todo := es, waited := k } } t) : s.Leads t := by
  induction hleft : waitCycles [e] - f.waited using Nat.strong_induction_on generalizing s f with
  | _ left ih =>
    have hstep := step_advance hf hhost
    rcases advance_cases f s with ⟨n, es', hw, hlt, hadv⟩ | ⟨e', es', k, he, hadv⟩ | ⟨hnil, -⟩ | ⟨hnil, -⟩
    · obtain ⟨rfl, rfl⟩ : e = .w n ∧ es = es' := by simpa [htodo] using hw
      refine .of_step (hstep.trans (congrArg _ hadv)) (ih _ ?_ rfl hhost htodo h rfl)
      simp only [waitCycles] at hleft ⊢
      omega
    · obtain ⟨rfl, rfl⟩ : e = e' ∧ es = es' := by simpa [htodo] using he
      exact .of_step (hstep.trans (congrArg _ hadv)) (h k)
    · simp [htodo] at hnil
    · simp [htodo] at hnil

theorem leads_finished {s : State} {f : InFlight} (hf : s.inFlight = some f) (hhost : s.host = []) :
    s.Leads (s.finished f) := by
  induction htodo : f.todo generalizing s f with
  | nil => exact leads_finished_of_done hf hhost htodo
  | cons e es ih =>
    refine leads_of_event hf hhost htodo fun k => ?_
    have h := ih (s := { s.play e with inFlight := some { f with todo := es, waited := k } }) rfl hhost rfl
    simpa [State.finished, State.play, htodo] using h

/-- What a word leaves when it runs whole: the events of its trace on the bus, OVR cleared and no command in progress;
the schedule and `rd_data` stay. -/
theorem runWord_eq_next (w : Word) (s : State) : ∃ t, runWord Block.default w s = .next t ∧
    t = { s.accept with regs := t.regs, bus := s.accept.bus.playAll t.trace } := by
  obtain ⟨t, ht, ⟨es, hrun⟩ | ⟨d, -, rfl⟩⟩ := runWord_outcome w s
  · have htrace : t.trace = es := hrun.trace
    exact ⟨t, ht, State.ext_parts rfl hrun.ovr (htrace ▸ hrun.bus) hrun.inFlight hrun.host hrun.rdData⟩
  · exact ⟨_, ht, rfl⟩

theorem beginWord_of_runWord {k : Block} {w : Word} {s t : State} (h : runWord k w s = .next t) :
    beginWord k w s = .next { s.accept with inFlight := some (inFlightOf w s t) } := by
  rw [beginWord, h]

/-- A word that has begun ends in the state its whole run gives. -/
theorem finished_inFlightOf {w : Word} {s t : State} (hfree : s.inFlight = none)
    (ht : t = { s.accept with regs := t.regs, bus := s.accept.bus.playAll t.trace }) :
    State.finished { s.accept with inFlight := some (inFlightOf w s t) } (inFlightOf w s t) = t := by
  refine Eq.trans ?_ ht.symm
  exact State.ext_parts rfl rfl rfl hfree.symm rfl rfl

/-- Settles O13: the command in progress holds the events and the registers of its whole run, and each edge of the idle
host brings it nearer to its commit. -/
theorem edgeByEdgeRunEndsInTheMeaning : Obligations.EdgeByEdgeRunEndsInTheMeaning := by
  intro s w hfree
  obtain ⟨t, hrun, ht⟩ := runWord_eq_next w { s with host := [] }
  have hissue : step { s with host := [.issue w] } = .next t :=
    (step_free (s := { s with host := [.issue w] }) hfree).trans hrun
  have hstrobe := (step_free (s := { s with host := [.strobe w] }) hfree).trans (beginWord_of_runWord hrun)
  obtain ⟨n, hn⟩ := State.Leads.of_step hstrobe (leads_finished rfl rfl)
  exact ⟨n, t, hissue, hn.trans (congrArg _ (finished_inFlightOf hfree ht))⟩

end Sys2Proof.Machine

/-! PROOFS. The host's view of the machine and the slave's answers (20_memory.md): the address byte, what an edge of a
command in progress shows the host, the map of the host registers, and the outcome of WREG, RREG and POLL under given
answers. The facts about the model's functions come first in each part, then the theorems that settle O31, O11, O14,
O29 and O47. -/

namespace Sys2Proof.Machine

/-! ## The address byte -/

theorem addrByte_toNat (sa : SlaveAddr) (rw : Bool) : (addrByte sa rw).toNat = 2 * sa.toNat + rw.toNat := by
  have hbit : rw.toNat < 2 ^ 1 := by cases rw <;> decide
  calc (addrByte sa rw).toNat
    _ = sa.toNat <<< 1 ||| rw.toNat := by
      simp (disch := omega) only [addrByte, BitVec.toNat_or, BitVec.toNat_shiftLeft, BitVec.toNat_setWidth,
        BitVec.toNat_ofBool, Nat.shiftLeft_eq, Nat.mod_eq_of_lt]
    _ = 2 * sa.toNat + rw.toNat := by rw [← Nat.shiftLeft_add_eq_or_of_lt hbit, Nat.shiftLeft_eq, Nat.mul_comm]

/-- Settles O31: shifting left doubles the address and leaves bit 0 to the R/W bit. -/
theorem addressByteForms : Obligations.AddressByteForms :=
  fun sa => ⟨addrByte_toNat sa false, addrByte_toNat sa true⟩

/-! ## An edge of a command in progress -/

/-- `rd_data` plays no part in an edge of a command in progress. -/
theorem advance_rdData_update (f : InFlight) (s : State) (w : Word) :
    advance f { s with rdData := w } = { advance f s with rdData := w } := by
  rcases hcase : f.todo with _ | ⟨e, es⟩
  · simp only [advance, hcase]
    split <;> rfl
  · cases e <;> simp only [advance, hcase]
    case w => split <;> rfl
    all_goals rfl

@[simp] theorem advance_rdData (f : InFlight) (s : State) : (advance f s).rdData = s.rdData :=
  (congrArg State.rdData (advance_rdData_update f s s.rdData) :)

/-- An edge of a command in progress is its commit, or shows no register write and goes on with the same command and the
same shadow copy (R75). -/
theorem advance_commits_or_continues (f : InFlight) (s : State) :
    advance f s = s.commit f ∨
      ∃ g, (advance f s).inFlight = some g ∧ g.shadow = f.shadow ∧ g.word = f.word ∧ (advance f s).regs = s.regs := by
  rcases advance_cases f s with ⟨n, es, -, -, h⟩ | ⟨e, es, k, -, h⟩ | ⟨-, -, h⟩ | ⟨-, -, h⟩ <;>
    rw [h]
  · exact .inr ⟨_, rfl, rfl, rfl, rfl⟩
  · exact .inr ⟨_, rfl, rfl, rfl, rfl⟩
  · exact .inr ⟨_, rfl, rfl, rfl, rfl⟩
  · exact .inl rfl

theorem hostTaken_hostRead (s : State) (level : Bool) (i : BitVec 6) :
    s.hostTaken.hostRead level i = s.hostRead level i := rfl

/-- With a command in progress every act of the host but `rst` is an edge of that command, from a state with the same
registers; a read has by then put the register's value on `rd_data` (R76). -/
theorem busyEdge_advances (k : Block) (f : InFlight) (a : HostAct) (s : State) (ha : ∀ also, a ≠ .reset also) :
    ∃ u, busyEdge k f a s = advance f u ∧ u.regs = s.regs ∧
      ∀ i level, a = .read i level → u.rdData = s.hostRead level i := by
  cases a with
  | idle => exact ⟨s, rfl, rfl, by simp⟩
  | issue w => exact ⟨{ s with ovr := true }, rfl, rfl, by simp⟩
  | strobe w => exact ⟨{ s with ovr := true }, rfl, rfl, by simp⟩
  | read i level => exact ⟨s.readOut level i, rfl, rfl, by rintro _ _ ⟨⟩; rfl⟩
  | reset also => exact absurd rfl (ha also)

/-- Settles O11: the step is one edge of the command, and only the commit writes registers. -/
theorem resultsAppearWhenBusyFalls : Obligations.ResultsAppearWhenBusyFalls := by
  intro s f hf hact
  obtain ⟨u, hedge, hregs, hread⟩ := busyEdge_advances Block.default f s.hostNow s.hostTaken hact
  refine ⟨advance f u, (step_busy hf).trans (congrArg _ hedge), ?_, fun i level h => ?_⟩
  · rcases advance_commits_or_continues f u with hcommit | ⟨g, hg, hshadow, hword, hkept⟩
    · rw [hcommit]
      exact .inl ⟨rfl, rfl, rfl⟩
    · exact .inr ⟨g, hg, by simp [State.busy, hg], hshadow, hword, hkept.trans hregs⟩
  · rw [advance_rdData, hread i level h, hostTaken_hostRead]

/-! ## Host reads -/

theorem hostRead_vport (s : State) (level : Bool) (p : Port) :
    s.hostRead level (BitVec.ofNat 6 (0x0A + p.idx)) = s.regs.res.vport.get p := by cases p <;> rfl

theorem hostRead_iport (s : State) (level : Bool) (p : Port) :
    s.hostRead level (BitVec.ofNat 6 (0x0E + p.idx)) = s.regs.res.iport.get p := by cases p <;> rfl

theorem hostNow_of_host {s : State} {a : HostAct} {rest : List HostAct} (h : s.host = a :: rest) : s.hostNow = a := by
  simp [State.hostNow, h]

theorem hostTaken_of_host {s : State} {a : HostAct} {rest : List HostAct} (h : s.host = a :: rest) :
    s.hostTaken = { s with host := rest } := by
  simp [State.hostTaken, h]

theorem step_free_read {s : State} {i : BitVec 6} {level : Bool} {rest : List HostAct} (hfree : s.inFlight = none)
    (hhost : s.host = .read i level :: rest) :
    step s = .next { s with host := rest, rdData := s.hostRead level i } := by
  rw [step_free hfree, hostNow_of_host hhost, hostTaken_of_host hhost]
  rfl

theorem step_busy_read {s : State} {f : InFlight} {i : BitVec 6} {level : Bool} {rest : List HostAct}
    (hf : s.inFlight = some f) (hhost : s.host = .read i level :: rest) :
    step s = .next { advance f { s with host := rest } with rdData := s.hostRead level i } := by
  rw [step_busy hf, hostNow_of_host hhost, hostTaken_of_host hhost, ← advance_rdData_update]
  rfl

theorem step_busy_idle {s : State} {f : InFlight} (hf : s.inFlight = some f) (rest : List HostAct) :
    step { s with host := .idle :: rest } = .next (advance f { s with host := rest }) :=
  step_busy (s := { s with host := .idle :: rest }) hf

/-- Settles O14: a read puts its register on `rd_data` alone, and the map is read off index by index. -/
theorem hostReadHasNoSideEffect : Obligations.HostReadHasNoSideEffect := by
  refine ⟨fun s i level rest hhost => ⟨fun hfree => step_free_read hfree hhost,
    fun f hf => ⟨_, step_busy_idle hf rest, step_busy_read hf hhost⟩⟩, fun s level => ?_⟩
  refine ⟨reservedIndicesReadZero s level, ?_, ?_, ?_, ?_, rfl, rfl, rfl, rfl, rfl, fun p i hi => ?_, fun p i hi => ?_,
    rfl, rfl, rfl, rfl, rfl, rfl⟩
  case refine_5 => rw [← hostRead_vport s level, ← hi, BitVec.ofNat_toNat, BitVec.setWidth_eq]
  case refine_6 => rw [← hostRead_iport s level, ← hi, BitVec.ofNat_toNat, BitVec.setWidth_eq]
  all_goals exact BitVec.toNat_setWidth_of_le (by decide)

/-! ## WREG under given answers -/

@[simp] theorem sendAck_rxdata (b : Byte) (s : State) : (sendAck b s).regs.rxdata = s.regs.rxdata := by
  rw [sendAck_regs]

@[simp] theorem sendAck_cfgAckpoll (b : Byte) (s : State) :
    (sendAck b s).regs.cfgAckpoll = s.regs.cfgAckpoll := by
  rw [sendAck_regs]

/-- WREG's sequence after its START: bytes with their ACK slots, each with the code of a NACK in its slot, then STOP
(R140, R143). -/
def writeSlots : List (Byte × Err) → State → State
  | [], s => (stopBody s).done
  | (b, e) :: slots, s =>
    if (sendAck b s).regs.ackf then abortWrite e (sendAck b s) else writeSlots slots (sendAck b s)

theorem writeSlots_rxdata (slots : List (Byte × Err)) (s : State) :
    (writeSlots slots s).regs.rxdata = s.regs.rxdata := by
  induction slots generalizing s with
  | nil => rfl
  | cons slot slots ih =>
    obtain ⟨b, e⟩ := slot
    rw [writeSlots]
    split
    · exact sendAck_rxdata b s
    · rw [ih, sendAck_rxdata]

theorem writeSlots_acked (slots : List (Byte × Err)) (rest : List Bool) (s : State)
    (hl : s.bus.slave = List.replicate slots.length false ++ rest) :
    (writeSlots slots s).regs.err = .none ∧ (writeSlots slots s).bus.slave = rest := by
  induction slots generalizing s with
  | nil => exact ⟨rfl, hl⟩
  | cons slot slots ih =>
    obtain ⟨b, e⟩ := slot
    obtain ⟨hack, hslave, -⟩ := sendAck_ack s b _ hl
    simpa [writeSlots, hack] using ih _ hslave

theorem writeSlots_nackAt (slots : List (Byte × Err)) (j : Nat) (hj : j < slots.length) (rest : List Bool) (s : State)
    (hl : s.bus.slave =
      List.replicate j false ++ (List.replicate (max 1 s.regs.cfgAckpoll.toNat) true ++ rest)) :
    (writeSlots slots s).regs.err = slots[j].2 ∧ (writeSlots slots s).bus.slave = rest := by
  induction slots generalizing s j with
  | nil => simp at hj
  | cons slot slots ih =>
    obtain ⟨b, e⟩ := slot
    cases j with
    | zero =>
      obtain ⟨hnack, hslave⟩ := sendAck_nack s b rest hl
      simp [writeSlots, hnack, abortWrite, hslave]
    | succ j =>
      obtain ⟨hack, hslave, -⟩ := sendAck_ack s b _ hl
      simpa [writeSlots, hack] using ih j (by simpa using hj) _ (by rw [hslave, sendAck_cfgAckpoll]; rfl)

/-- WREG's three bytes with the codes of their slots (R140, R143). -/
def wregSlots (sa : SlaveAddr) (a v : Byte) : List (Byte × Err) :=
  [(addrByte sa false, .nackWaddr), (a, .nackReg), (v, .nackData)]

theorem wregBody_eq_writeSlots (a v : Byte) (s : State) :
    wregBody a v s = writeSlots (wregSlots s.regs.cfgSaddr a v) (startBody s) := rfl

/-- WREG keeps RXDATA, whatever the slaves answer (R143). -/
theorem wregBody_rxdata (a v : Byte) (s : State) : (wregBody a v s).regs.rxdata = s.regs.rxdata :=
  writeSlots_rxdata (wregSlots s.regs.cfgSaddr a v) (startBody s)

theorem wregBody_acked (a v : Byte) (rest : List Bool) (s : State)
    (hl : s.bus.slave = [false, false, false] ++ rest) :
    (wregBody a v s).regs.err = .none ∧ (wregBody a v s).bus.slave = rest :=
  writeSlots_acked (wregSlots s.regs.cfgSaddr a v) rest (startBody s) hl

theorem wregBody_nackAt (a v : Byte) (j : Nat) (hj : j < 3) (rest : List Bool) (s : State)
    (hl : s.bus.slave = List.replicate j false ++ List.replicate (max 1 s.regs.cfgAckpoll.toNat) true ++ rest) :
    (wregBody a v s).regs.err = (if j = 0 then .nackWaddr else if j = 1 then .nackReg else .nackData) ∧
      (wregBody a v s).bus.slave = rest := by
  obtain ⟨herr, hslave⟩ := writeSlots_nackAt (wregSlots s.regs.cfgSaddr a v) j hj rest (startBody s)
    (by rw [startBody_slave, hl, List.append_assoc]; rfl)
  refine ⟨?_, hslave⟩
  rw [wregBody_eq_writeSlots, herr]
  interval_cases j <;> rfl

/-! ## RREG under given answers -/

theorem rregBody_acked (a b : Byte) (rest : List Bool) (s : State)
    (hl : s.bus.slave = [false, false, false] ++ wireBits b ++ rest) :
    (rregBody a s).regs.err = .none ∧ (rregBody a s).regs.rxdata = b ∧ (rregBody a s).bus.slave = rest := by
  obtain ⟨t, hread, -, hslave, -, -, hregs⟩ := devRead_script s a b rest hl
  simp [rregBody, hread, hslave, hregs]

theorem rregBody_nackAt (a : Byte) (j : Nat) (hj : j < 3) (rest : List Bool) (s : State)
    (hl : s.bus.slave = List.replicate j false ++ List.replicate (max 1 s.regs.cfgAckpoll.toNat) true ++ rest) :
    (rregBody a s).regs.err = (if j = 0 then .nackWaddr else if j = 1 then .nackReg else .nackRaddr) ∧
      (rregBody a s).regs.rxdata = 0xFF#8 ∧ (rregBody a s).bus.slave = rest := by
  obtain ⟨t, hread, hslave⟩ := devRead_nackAt s a j hj rest hl
  simp [rregBody, hread, abortRead, hslave]

theorem exec_wreg_of_idle {s : State} (h : s.regs.phase = .idle) (a v : Byte) :
    exec (.wreg a v) s = .next (wregBody a v s) := congrArg _ (transact_of_idle h _)

theorem exec_rreg_of_idle {s : State} (h : s.regs.phase = .idle) (a : Byte) :
    exec (.rreg a) s = .next (rregBody a s) := congrArg _ (transact_of_idle h _)

/-- Settles O29: slot by slot for WREG, and from the device read for RREG. -/
theorem transactionOutcomeFollowsTheAnswers : Obligations.TransactionOutcomeFollowsTheAnswers := by
  intro a v s hidle
  have hwreg := exec_wreg_of_idle hidle a v
  have hrreg := exec_rreg_of_idle hidle a
  refine ⟨fun j rest hj hl => ?_, fun rest hl => ⟨_, hwreg, wregBody_acked a v rest s hl⟩,
    fun b rest hl => ⟨_, hrreg, rregBody_acked a b rest s hl⟩⟩
  obtain ⟨herr, hslave⟩ := wregBody_nackAt a v j hj rest s hl
  exact ⟨_, _, hwreg, hrreg, herr, wregBody_rxdata a v s, hslave, rregBody_nackAt a j hj rest s hl⟩

/-! ## POLL under given answers -/

/-- Device reads that all end with a byte leave the last byte in RXDATA. -/
theorem readAll_ok_rxdata {as bytes : List Byte} {s t : State} (hidle : s.regs.phase = .idle) (has : as ≠ [])
    (h : readAll as s = .ok bytes t) : t.regs.rxdata = bytes.getLastD 0#8 := by
  rcases readAll_cases as s hidle with ⟨bytes', -, t', hread, -, -, -, -, -, hend⟩ | ⟨-, -, -, e, -, t', -, -, hread, -⟩
  · obtain ⟨rfl, rfl⟩ : bytes = bytes' ∧ t = t' := by simpa [h] using hread
    rw [(hend has).2]
  · rw [h] at hread
    cases hread

theorem pollBody_acked_rxdata (c : Config) {s : State} {bytes : List Byte} {rest : List Bool}
    (hidle : s.regs.phase = .idle) (hn : bytes.length = 21)
    (hl : s.bus.slave = bytes.flatMap (fun b => [false, false, false] ++ wireBits b) ++ rest) :
    (pollBody c s).regs.rxdata = bytes.getD 20 0#8 := by
  obtain ⟨t, -, hread, -⟩ := readAll_script (pollAddrs c) bytes rest s (by simp [hn]) hl
  have hlast : bytes.getLastD 0#8 = bytes.getD 20 0#8 := by
    rw [List.getLastD_eq_getLast?, List.getLast?_eq_getElem?, hn, List.getD_eq_getElem?_getD]
  simp only [pollBody, hread]
  exact (readAll_ok_rxdata hidle (List.cons_ne_nil _ _) hread).trans hlast

theorem pollBody_nackAt (c : Config) (j : Nat) (hj : j < 3) {s : State} {bytes : List Byte} {rest : List Bool}
    (hn : bytes.length < 21)
    (hl : s.bus.slave = bytes.flatMap (fun b => [false, false, false] ++ wireBits b) ++
      (List.replicate j false ++ List.replicate (max 1 s.regs.cfgAckpoll.toNat) true ++ rest)) :
    (pollBody c s).bus.slave = rest ∧ (pollBody c s).regs.rxdata = 0xFF#8 ∧
      (pollBody c s).regs.res = Results.zero ∧
      (pollBody c s).regs.err = (if j = 0 then .nackWaddr else if j = 1 then .nackReg else .nackRaddr) := by
  obtain ⟨t, hread, hslave⟩ := readAll_nackAt (pollAddrs c) bytes j hj rest s hn hl
  simp [pollBody, hread, pollAbort, hslave]

theorem exec_poll_of_idle {s : State} (h : s.regs.phase = .idle) :
    exec .poll s = .next (pollBody Config.block s) := congrArg _ (transact_of_idle h _)

/-- Settles O47: the reads use up the answers one device read at a time, and the first NACK ends them. -/
theorem pollOutcomeFollowsTheAnswers : Obligations.PollOutcomeFollowsTheAnswers := by
  intro bytes rest s hidle
  refine ⟨fun hn hl => ⟨_, exec_poll_of_idle hidle, ?_⟩, fun j hn hj hl => ⟨_, exec_poll_of_idle hidle, ?_⟩⟩
  · obtain ⟨-, hslave, herr, hres⟩ := pollBody_script Config.block hidle hn hl
    exact ⟨herr, hslave, pollBody_acked_rxdata _ hidle hn hl, hres⟩
  · exact pollBody_nackAt _ j hj hn (by rw [hl]; simp only [List.append_assoc])

end Sys2Proof.Machine

/-! PROOFS. The command word of 30_encoding.md: a word and its fields, the decoder's checks, the rows of the opcode
table, and the acceptance of a word. The facts about the model's functions come first in each part, then the theorems
that settle O2, O3, O1, O4, O5, O6, O7 and O9. -/

namespace Sys2Proof

/-! ## A word and its fields -/

section word
variable {w : Word} {o b1 b0 : Byte} {s : BitVec 4}

theorem word_eq_append (w : Word) : w = w.opc ++ w.rsv ++ w.sel ++ w.b1 ++ w.b0 := by
  have happend (start len len' : Nat) : w.extractLsb' (start + len) len' ++ w.extractLsb' start len =
      w.extractLsb' start (len' + len) := BitVec.extractLsb'_append_extractLsb'_eq_extractLsb' rfl
  calc w = w.extractLsb' 0 32 := BitVec.extractLsb'_eq_self.symm
    _ = w.opc ++ w.rsv ++ w.sel ++ w.b1 ++ w.b0 := by
      rw [Word.opc, Word.rsv, Word.sel, Word.b1, Word.b0, happend 20 4, happend 16 4, happend 8 8, happend 0 8]

theorem word_eq_iff_fields (w v : Word) :
    w = v ↔ w.rsv = v.rsv ∧ w.opc = v.opc ∧ w.sel = v.sel ∧ w.b1 = v.b1 ∧ w.b0 = v.b0 := by
  refine ⟨by rintro rfl; simp, fun ⟨hrsv, hopc, hsel, hb1, hb0⟩ => ?_⟩
  rw [word_eq_append w, word_eq_append v, hrsv, hopc, hsel, hb1, hb0]

theorem packWord_eq (hrsv : w.rsv = 0#4) (hopc : w.opc.toNat = o.toNat) (hsel : w.sel = s) (hb1 : w.b1 = b1)
    (hb0 : w.b0 = b0) : packWord o s b1 b0 = w := by
  rw [← BitVec.eq_of_toNat_eq hopc, ← hsel, ← hb1, ← hb0, packWord_fields w hrsv]

theorem packRaw_eq (hrsv : w.rsv = 0#4) (hopc : w.opc.toNat = o.toNat) (hsel : w.sel = s) :
    packRaw o s w.raw16 = w := by
  rw [← BitVec.eq_of_toNat_eq hopc, ← hsel, raw16_packed w hrsv]

theorem saddrFits_eq_not_bit7 (b : Byte) : saddrFits b = !b.getLsbD 7 := by
  revert b; decide

theorem saddrFits_iff_and (b : Byte) : saddrFits b = true ↔ b &&& 0x80#8 = 0#8 := by
  revert b; decide

end word

/-! ## The decoder's checks -/

section checks
variable {w : Word} {d : Decoded} {i j : Instr}

@[simp] theorem noSel_eq_legal : noSel w d = .legal i ↔ w.sel = 0#4 ∧ d = .legal i := by
  unfold noSel; split <;> simp [*]

@[simp] theorem noBytes_eq_legal : noBytes w j = .legal i ↔ (w.b1 = 0#8 ∧ w.b0 = 0#8) ∧ j = i := by
  unfold noBytes; split
  · split <;> simp [*]
  · simp [*]

@[simp] theorem onlyB0_eq_legal : onlyB0 w j = .legal i ↔ w.b1 = 0#8 ∧ j = i := by
  unfold onlyB0; split <;> simp [*]

@[simp] theorem onlyB1_eq_legal : onlyB1 w j = .legal i ↔ w.b0 = 0#8 ∧ j = i := by
  unfold onlyB1; split <;> simp [*]

@[simp] theorem onlyLow7_eq_legal : onlyLow7 w j = .legal i ↔ w.b1 = 0#8 ∧ saddrFits w.b0 = true ∧ j = i := by
  unfold onlyLow7; split <;> simp [*]

theorem decode_eq_legal : decode w = .legal i ↔ w.rsv = 0#4 ∧ decodeOpc w = .legal i := by
  unfold decode; split <;> simp [*]

theorem exists_illegal_iff (d : Decoded) : (∃ why, d = .illegal why) ↔ ¬ ∃ i, d = .legal i := by
  cases d <;> simp

/-! The SEL values of R93. -/

theorem decodeDecv_legal_iff : (∃ i, decodeDecv w = .legal i) ↔ w.sel.toNat ≤ 1 := by
  unfold decodeDecv
  split <;> simp only [Decoded.legal.injEq, exists_eq', reduceCtorEq, exists_false, imp_false, true_iff, false_iff] at *
    <;> omega

theorem decodeDeci_legal_iff : (∃ i, decodeDeci w = .legal i) ↔ w.sel.toNat ≤ 4 := by
  unfold decodeDeci
  split <;> simp only [Decoded.legal.injEq, exists_eq', reduceCtorEq, exists_false, imp_false, true_iff, false_iff] at *
    <;> omega

theorem decodeDecs_legal_iff : (∃ i, decodeDecs w = .legal i) ↔ w.sel.toNat ≤ 4 ∧ w.b1 = 0#8 := by
  unfold decodeDecs
  split <;> simp only [onlyB0_eq_legal, exists_and_left, exists_eq', and_true, reduceCtorEq, exists_false, imp_false,
    false_iff, iff_and_self] at * <;> omega

end checks

/-! ## Decoding and encoding -/

/-- Settles O2: RSV of the packed word is 0, its OPC and SEL choose the command's arm of the decoder, and the arm's
checks hold of its other fields; SETADDR's is the operand's own well-formedness. -/
theorem decodeOfEncodeIsTheCommand : Obligations.DecodeOfEncodeIsTheCommand := by
  intro i hwf
  refine decode_eq_legal.mpr ⟨by cases i <;> simp [encode], ?_⟩
  cases i with
  | setaddr a =>
    have hfits : saddrFits a = true := hwf
    simp [encode, decodeOpc, hfits]
  | _ => simp [encode, decodeOpc, decodeDecv, decodeDeci, decodeDecs]

section decoded
variable {w : Word} {i : Instr}

theorem encode_of_decodeDecv (hrsv : w.rsv = 0#4) (hopc : w.opc.toNat = 0x20) (h : decodeDecv w = .legal i) :
    encode i = w ∧ i.wellFormed = true := by
  unfold decodeDecv at h
  split at h <;> cases h <;> exact ⟨packRaw_eq hrsv hopc (BitVec.eq_of_toNat_eq ‹_›), rfl⟩

theorem encode_of_decodeDeci (hrsv : w.rsv = 0#4) (hopc : w.opc.toNat = 0x21) (h : decodeDeci w = .legal i) :
    encode i = w ∧ i.wellFormed = true := by
  unfold decodeDeci at h
  split at h <;> cases h <;> exact ⟨packRaw_eq hrsv hopc (BitVec.eq_of_toNat_eq ‹_›), rfl⟩

theorem encode_of_decodeDecs (hrsv : w.rsv = 0#4) (hopc : w.opc.toNat = 0x23) (h : decodeDecs w = .legal i) :
    encode i = w ∧ i.wellFormed = true := by
  unfold decodeDecs at h
  split at h
  case h_6 => cases h
  all_goals
    obtain ⟨hb1, rfl⟩ := onlyB0_eq_legal.mp h
    exact ⟨packWord_eq hrsv hopc (BitVec.eq_of_toNat_eq ‹_›) hb1 rfl, rfl⟩

/-- In each arm of the opcode map the checks say what the fields without an operand hold. -/
theorem encode_of_decodeOpc (hrsv : w.rsv = 0#4) (h : decodeOpc w = .legal i) :
    encode i = w ∧ i.wellFormed = true := by
  unfold decodeOpc at h
  split at h <;> rename_i hopc
  case h_20 => cases h
  -- DECV, DECI, DECS
  case h_10 => exact encode_of_decodeDecv hrsv hopc h
  case h_11 => exact encode_of_decodeDeci hrsv hopc h
  case h_13 => exact encode_of_decodeDecs hrsv hopc h
  all_goals
    obtain ⟨hsel, h⟩ := noSel_eq_legal.mp h
    simp only [noBytes_eq_legal, onlyB0_eq_legal, onlyB1_eq_legal, onlyLow7_eq_legal, Decoded.legal.injEq] at h
  -- the operand is B0: SEND, SETPOLL
  case h_4 | h_19 =>
    obtain ⟨hb1, rfl⟩ := h
    exact ⟨packWord_eq hrsv hopc hsel hb1 rfl, rfl⟩
  -- WREG
  case h_8 =>
    subst h
    exact ⟨packWord_eq hrsv hopc hsel rfl rfl, rfl⟩
  -- RREG
  case h_9 =>
    obtain ⟨hb0, rfl⟩ := h
    exact ⟨packWord_eq hrsv hopc hsel rfl hb0, rfl⟩
  -- the operand is {B1, B0}: DECP, SETDLY
  case h_12 | h_17 =>
    subst h
    exact ⟨packRaw_eq hrsv hopc hsel, rfl⟩
  -- SETADDR
  case h_18 =>
    obtain ⟨hb1, hfits, rfl⟩ := h
    exact ⟨packWord_eq hrsv hopc hsel hb1 rfl, hfits⟩
  -- no operand
  all_goals
    obtain ⟨⟨hb1, hb0⟩, rfl⟩ := h
    exact ⟨packWord_eq hrsv hopc hsel hb1 hb0, rfl⟩

end decoded

/-- Settles O3: RSV is 0, and the arm of the word's opcode leaves no field open. -/
theorem encodeOfDecodeIsTheWord : Obligations.EncodeOfDecodeIsTheWord := by
  intro w i hw
  obtain ⟨hrsv, hopc⟩ := decode_eq_legal.mp hw
  exact encode_of_decodeOpc hrsv hopc

/-! ## The rows of the opcode table -/

/-- The bits of B1 that are 0 in every word of the command's row (R94). -/
def Instr.zerosB1 : Instr → Byte
  | .wreg _ _ | .rreg _ | .decvVbat _ | .decvOcv _ | .deciIbat _ | .deciOut1 _ | .deciOut2 _ | .deciTypec _
  | .deciVin _ | .decp _ | .setdly _ => 0x00#8
  | .nop | .start | .stop | .send _ | .wack | .recv | .nack | .decsSys _ | .decsChg _ | .decsNtc _ | .decsBoost _
  | .decsMos _ | .derv | .impute | .poll | .setaddr _ | .setpoll _ => 0xFF#8

/-- The bits of B0 that are 0 in every word of the command's row (R92, R94). -/
def Instr.zerosB0 : Instr → Byte
  | .send _ | .wreg _ _ | .decvVbat _ | .decvOcv _ | .deciIbat _ | .deciOut1 _ | .deciOut2 _ | .deciTypec _
  | .deciVin _ | .decp _ | .decsSys _ | .decsChg _ | .decsNtc _ | .decsBoost _ | .decsMos _ | .setdly _
  | .setpoll _ => 0x00#8
  | .setaddr _ => 0x80#8
  | .nop | .start | .stop | .wack | .recv | .nack | .rreg _ | .derv | .impute | .poll => 0xFF#8

theorem row_mask_fields (i : Instr) : Word.rsv i.row.mask = 0xF#4 ∧ Word.opc i.row.mask = 0xFF#8 ∧
    Word.sel i.row.mask = 0xF#4 ∧ Word.b1 i.row.mask = i.zerosB1 ∧ Word.b0 i.row.mask = i.zerosB0 := by
  cases i <;> simp only [Instr.row, Instr.zerosB1, Instr.zerosB0] <;> decide

theorem row_pat (i : Instr) : i.row.pat = packWord (Word.opc (encode i)) (Word.sel (encode i)) 0#8 0#8 := by
  cases i <;> simp only [encode, packWord_opc, packWord_sel, packRaw_opc, packRaw_sel, Instr.row] <;> decide

theorem covers_iff_fields (r : OpRow) (w : Word) : r.covers w = true ↔
    w.rsv &&& Word.rsv r.mask = Word.rsv r.pat ∧ w.opc &&& Word.opc r.mask = Word.opc r.pat ∧
      w.sel &&& Word.sel r.mask = Word.sel r.pat ∧ w.b1 &&& Word.b1 r.mask = Word.b1 r.pat ∧
      w.b0 &&& Word.b0 r.mask = Word.b0 r.pat := by
  simp only [OpRow.covers, beq_iff_eq, word_eq_iff_fields (w &&& r.mask), Word.opc, Word.rsv, Word.sel, Word.b1,
    Word.b0, BitVec.extractLsb'_and]

theorem byte_and_ones (x : Byte) : x &&& 0xFF#8 = x := BitVec.and_allOnes

theorem nibble_and_ones (x : BitVec 4) : x &&& 0xF#4 = x := BitVec.and_allOnes

section rows
variable {w : Word} {i : Instr}

/-- A word of a command's row has the command's OPC and SEL, and 0 where the row has no operand. -/
theorem fields_of_covers (h : i.row.covers w = true) :
    w.rsv = 0#4 ∧ w.opc = Word.opc (encode i) ∧ w.sel = Word.sel (encode i) ∧
      w.b1 &&& i.zerosB1 = 0#8 ∧ w.b0 &&& i.zerosB0 = 0#8 := by
  obtain ⟨hrsv, hopc, hsel, hb1, hb0⟩ := row_mask_fields i
  simpa [covers_iff_fields, row_pat, hrsv, hopc, hsel, hb1, hb0, byte_and_ones, nibble_and_ones] using h

/-- Those fields are what the decoder's arm of the row checks. -/
theorem decodes_of_covers (h : i.row.covers w = true) : ∃ j, decode w = .legal j ∧ j.row = i.row := by
  obtain ⟨hrsv, hopc, hsel, hb1, hb0⟩ := fields_of_covers h
  cases i
  all_goals
    simp only [encode, packWord_opc, packWord_sel, packRaw_opc, packRaw_sel, Instr.zerosB1, Instr.zerosB0,
      byte_and_ones] at hopc hsel hb1 hb0
    simp [decode_eq_legal, decodeOpc, decodeDecv, decodeDeci, decodeDecs, hrsv, hopc, hsel, hb1, hb0,
      saddrFits_iff_and] <;> rfl

open Laws in
theorem row_covers_encode : ∀ i : Instr, Covered.Statement i
  | .nop => Covered.nop | .start => Covered.start | .stop => Covered.stop | .send b => Covered.send b
  | .wack => Covered.wack | .recv => Covered.recv | .nack => Covered.nack | .wreg a v => Covered.wreg a v
  | .rreg a => Covered.rreg a | .decvVbat r => Covered.decvVbat r | .decvOcv r => Covered.decvOcv r
  | .deciIbat r => Covered.deciIbat r | .deciOut1 r => Covered.deciOut1 r | .deciOut2 r => Covered.deciOut2 r
  | .deciTypec r => Covered.deciTypec r | .deciVin r => Covered.deciVin r | .decp r => Covered.decp r
  | .decsSys b => Covered.decsSys b | .decsChg b => Covered.decsChg b | .decsNtc b => Covered.decsNtc b
  | .decsBoost b => Covered.decsBoost b | .decsMos b => Covered.decsMos b | .derv => Covered.derv
  | .impute => Covered.impute | .poll => Covered.poll | .setdly d => Covered.setdly d
  | .setaddr a => Covered.setaddr a | .setpoll n => Covered.setpoll n

theorem row_mem_opRows (i : Instr) : i.row ∈ opRows := by
  cases i <;> simp [opRows, rowInstrs, Instr.row]

/-- A row of the table holds exactly the words that decode to one of its commands. -/
theorem covers_iff_decodes {r : OpRow} (hr : r ∈ opRows) :
    r.covers w = true ↔ ∃ i, decode w = .legal i ∧ i.row = r := by
  constructor
  · obtain ⟨i, -, rfl⟩ := List.mem_map.mp hr
    exact decodes_of_covers
  · rintro ⟨i, hw, rfl⟩
    obtain ⟨rfl, hwf⟩ := encodeOfDecodeIsTheWord w i hw
    exact row_covers_encode i hwf

end rows

/-- Settles O1: a word decodes to at most one command, so it lies in at most that command's row. -/
theorem legalWordsLieInExactlyOneRow : Obligations.LegalWordsLieInExactlyOneRow := by
  refine ⟨fun w i hw => ⟨row_mem_opRows i, fun r hr => ?_⟩, fun w why hw r hr => ?_⟩
  · simp [covers_iff_decodes hr, hw, eq_comm]
  · simp [← Bool.not_eq_true, covers_iff_decodes hr, hw]

/-! ## Illegal words -/

/-- Settles O4: a word is illegal when it decodes to no command, and each arm of the opcode map gives a command exactly
when its checks hold. -/
theorem wordIsIllegalExactlyAsListed : Obligations.WordIsIllegalExactlyAsListed := by
  intro w
  have hopcIff (k : Byte) : w.opc = k ↔ w.opc.toNat = k.toNat := BitVec.toNat_inj.symm
  simp only [exists_illegal_iff, decode_eq_legal, exists_and_left, hopcIff]
  by_cases hrsv : w.rsv = 0#4
  · simp only [hrsv, true_and]
    unfold decodeOpc
    split
    case h_20 => simp_all
    all_goals
      rename_i hopc
      simp [hopc, saddrFits_eq_not_bit7, decodeDecv_legal_iff, decodeDeci_legal_iff, decodeDecs_legal_iff, -not_and,
        not_and_or]
  · simp [hrsv]

/-- Settles O5: no opcode of R97's ranges is in the map. -/
theorem reservedOpcodesAreIllegal : Obligations.ReservedOpcodesAreIllegal := by
  intro w hopc
  refine (wordIsIllegalExactlyAsListed w).mpr (.inl ?_)
  simp only [List.mem_cons, List.not_mem_nil, or_false]
  omega

/-- Settles O6, by running the decoder and the assembler on the sixteen examples. -/
theorem exampleWordsDecodeAsGiven : Obligations.ExampleWordsDecodeAsGiven := by
  unfold Obligations.ExampleWordsDecodeAsGiven
  decide

end Sys2Proof

namespace Sys2Proof.Machine

/-! ## The acceptance of a word -/

/-- Settles O7: the step is that of the block with the defaults of R7. -/
theorem stepRunsTheDecodedCommand : Obligations.StepRunsTheDecodedCommand := by
  intro s w rest i hfree hhost hw
  rw [← stepOf_block, stepOf_issue _ hfree hhost hw, execOf_block]

/-- Settles O9: the whole run of the word goes into the command in progress, and of the rest of the state only the
acceptance has happened. -/
theorem acceptanceRaisesBusyAndClearsOvr : Obligations.AcceptanceRaisesBusyAndClearsOvr := by
  intro s w rest hfree hhost
  obtain ⟨t, hrun, -⟩ := runWord_eq_next w { s with host := rest }
  have hstep : step s = .next { State.accept { s with host := rest } with
      inFlight := some (inFlightOf w { s with host := rest } t) } := by
    rw [step_free hfree, hostNow_of_host hhost, hostTaken_of_host hhost]
    exact beginWord_of_runWord hrun
  exact ⟨_, _, hstep, rfl, rfl, rfl, rfl, rfl, rfl, rfl, rfl, rfl, rfl⟩

end Sys2Proof.Machine

/-! PROOFS. The I2C engine (40_i2c_engine.md): the pins fit the phase at every command boundary (R119), what each of the
six engine commands does from its legal phases and that it is SEQ from the others (R112 to R118), and the data line that
moves only while the clock is low. The facts about the model's functions come first in each part, then the theorems that
settle O55, O17, O18, O19, O23, O20, O21, O22 and O24. -/

namespace Sys2Proof.Machine

/-! ## The pins fit the phase -/

/-- The committed phase and the pins fit, as at a command boundary (R119). -/
def State.PinsFitNow (s : State) : Prop := pinsFit s.regs.phase s.bus

theorem pinsFit_of_free {s : State} (h : s.inFlight = none) : s.PinsFit ↔ s.PinsFitNow := by
  simp [State.PinsFit, State.PinsFitNow, h]

theorem pinsFit_of_busy {s : State} {f : InFlight} (h : s.inFlight = some f) :
    s.PinsFit ↔ pinsFit f.shadow.phase (s.bus.playAll f.todo) := by
  simp [State.PinsFit, h]

theorem pinsFit_withInFlight (s : State) (f : InFlight) :
    State.PinsFit { s with inFlight := some f } ↔ pinsFit f.shadow.phase (s.bus.playAll f.todo) :=
  pinsFit_of_busy rfl

theorem pinsFitNow_of_released {s : State} (hp : s.regs.phase = .idle) (hb : s.bus.Released) : s.PinsFitNow := by
  rw [State.PinsFitNow, hp]
  exact hb

theorem startBody_pinsFitNow (s : State) : (startBody s).PinsFitNow := startBody_scl s

theorem stopBody_pinsFitNow (s : State) : (stopBody s).PinsFitNow := ⟨stopBody_scl s, stopBody_sda s⟩

theorem sendBody_pinsFitNow (b : Byte) (s : State) : (sendBody b s).PinsFitNow := sendBody_scl s b

theorem wackBody_pinsFitNow (s : State) : (wackBody s).PinsFitNow := wackBody_scl s

theorem recvBody_pinsFitNow (s : State) : (recvBody s).PinsFitNow := recvBody_scl s

theorem nackBody_pinsFitNow (s : State) : (nackBody s).PinsFitNow := nackBody_scl s

/-- WREG ends with a STOP, whichever slot reads NACK. -/
theorem writeSlots_pinsFitNow (slots : List (Byte × Err)) (s : State) : (writeSlots slots s).PinsFitNow := by
  induction slots generalizing s with
  | nil => exact stopBody_pinsFitNow s
  | cons slot slots ih =>
    rw [writeSlots]
    split
    · exact stopBody_pinsFitNow _
    · exact ih _

theorem rregBody_pinsFitNow (a : Byte) (s : State) : (rregBody a s).PinsFitNow := by
  unfold rregBody
  rcases devRead_cases s a with ⟨t, b, -, hread, -, -, -, hreleased, hregs⟩ | ⟨t, e, -, hread, -⟩ <;> rw [hread]
  · exact pinsFitNow_of_released (by simp [hregs]) hreleased
  · exact stopBody_pinsFitNow t

theorem pollBody_pinsFitNow (c : Config) {s : State} (hidle : s.regs.phase = .idle) : (pollBody c s).PinsFitNow := by
  unfold pollBody
  rcases readAll_cases (pollAddrs c) s hidle with ⟨bytes, -, t, hread, -, -, -, -, -, hend⟩ |
    ⟨-, -, -, e, -, t, -, -, hread, -⟩ <;> rw [hread]
  · obtain ⟨hreleased, hregs⟩ := hend (List.cons_ne_nil _ _)
    exact pinsFitNow_of_released (by simp [hregs, hidle]) hreleased
  · exact stopBody_pinsFitNow t

theorem checked_pinsFitNow {s : State} (h : s.PinsFitNow) (ok : Bool) {body : State → State}
    (hbody : (body s).PinsFitNow) : (checked ok body s).PinsFitNow := by
  unfold checked
  split
  · exact hbody
  · exact h

theorem transact_pinsFitNow {s : State} (h : s.PinsFitNow) {body : State → State}
    (hbody : s.regs.phase = .idle → (body s).PinsFitNow) : (transact body s).PinsFitNow := by
  unfold transact
  split
  · exact hbody ((mayTransact_iff _).mp ‹_›)
  · exact h

/-- Every command keeps the pins fitting the phase: the bus commands end with fitting pins, and the others touch neither
(R119, R214). -/
theorem execOf_pinsFitNow (c : Config) (i : Instr) {s : State} (h : s.PinsFitNow) :
    ∃ t, execOf c i s = .next t ∧ t.PinsFitNow := by
  cases i with
  | start => exact ⟨_, rfl, checked_pinsFitNow h _ (startBody_pinsFitNow s)⟩
  | stop => exact ⟨_, rfl, checked_pinsFitNow h _ (stopBody_pinsFitNow s)⟩
  | send b => exact ⟨_, rfl, checked_pinsFitNow h _ (sendBody_pinsFitNow b s)⟩
  | wack => exact ⟨_, rfl, checked_pinsFitNow h _ (wackBody_pinsFitNow s)⟩
  | recv => exact ⟨_, rfl, checked_pinsFitNow h _ (recvBody_pinsFitNow s)⟩
  | nack => exact ⟨_, rfl, checked_pinsFitNow h _ (nackBody_pinsFitNow s)⟩
  | wreg a v =>
    exact ⟨_, rfl, transact_pinsFitNow h fun _ => writeSlots_pinsFitNow (wregSlots s.regs.cfgSaddr a v) _⟩
  | rreg a => exact ⟨_, rfl, transact_pinsFitNow h fun _ => rregBody_pinsFitNow a s⟩
  | poll => exact ⟨_, rfl, transact_pinsFitNow h fun hidle => pollBody_pinsFitNow c hidle⟩
  | setaddr a =>
    refine ⟨_, rfl, ?_⟩
    split
    · exact h
    · exact h
  | _ => exact ⟨_, rfl, h⟩

theorem runWord_pinsFitNow {w : Word} {s t : State} (h : s.PinsFitNow) (hrun : runWord Block.default w s = .next t) :
    t.PinsFitNow := by
  cases hw : decode w with
  | legal i =>
    obtain ⟨u, hu, hfit⟩ := execOf_pinsFitNow Config.block i (s := s.accept) h
    rw [runWord_legal hw] at hrun
    have : Host.Outcome.next u = .next t := hu.symm.trans ((execOf_block i _).trans hrun)
    obtain rfl : u = t := by simpa using this
    exact hfit
  | illegal why =>
    rw [runWord_illegal hw] at hrun
    obtain rfl : s.accept.raise .illegal = t := by simpa using hrun
    exact h

/-- A command that has begun holds the events that lead to the pins of its whole run. -/
theorem beginWord_pinsFit {w : Word} {s t : State} (h : s.PinsFitNow) (hbegin : beginWord Block.default w s = .next t) :
    t.PinsFit := by
  obtain ⟨u, hu, rfl⟩ := beginWord_eq_next hbegin
  obtain ⟨u', hu', hbus⟩ := runWord_eq_next w s
  obtain rfl : u' = u := by simpa [hu] using hu'.symm
  have hfit : pinsFit u'.regs.phase u'.bus := runWord_pinsFitNow h hu
  rw [hbus] at hfit
  exact (pinsFit_withInFlight s.accept _).mpr hfit

/-- An edge of a command in progress plays the next of its events, or commits once none is left. -/
theorem advance_pinsFit {f : InFlight} {s : State} (h : pinsFit f.shadow.phase (s.bus.playAll f.todo)) :
    (advance f s).PinsFit := by
  rcases advance_cases f s with ⟨n, es, -, -, hadv⟩ | ⟨e, es, k, htodo, hadv⟩ | ⟨-, -, hadv⟩ | ⟨htodo, -, hadv⟩ <;>
    rw [hadv]
  · exact (pinsFit_withInFlight s _).mpr h
  · rw [htodo] at h
    exact (pinsFit_withInFlight (s.play e) _).mpr h
  · exact (pinsFit_withInFlight s _).mpr h
  · rw [htodo] at h
    exact (pinsFit_of_free rfl).mpr h

/-- Settles O55, by the cases of a step: an edge of the command in progress, a reset, an edge that leaves pins and phase
alone, and a word that runs whole or begins. -/
theorem stepKeepsPinsFittingThePhase : Obligations.StepKeepsPinsFittingThePhase := by
  intro s t hs hstep
  rcases step_cases s t hstep with ⟨f, u, hf, hbus, -, rfl⟩ | ⟨u, rfl⟩ | ⟨hf, hbus, hregs, ht⟩ |
    ⟨w, u, hf, hu, hbus, hregs, hrun⟩
  · exact advance_pinsFit (hbus ▸ (pinsFit_of_busy hf).mp hs)
  · exact (pinsFit_of_free rfl).mpr ⟨rfl, rfl⟩
  · rw [pinsFit_of_free ht, State.PinsFitNow, hbus, hregs]
    exact (pinsFit_of_free hf).mp hs
  · have hfit : u.PinsFitNow := by
      rw [State.PinsFitNow, hbus, hregs]
      exact (pinsFit_of_free hf).mp hs
    rcases hrun with hrun | hbegin
    · obtain ⟨-, -, ht⟩ := runWord_waits hrun
      exact (pinsFit_of_free (ht.trans hu)).mpr (runWord_pinsFitNow hfit hrun)
    · exact beginWord_pinsFit hfit hbegin

/-! ## The phase checks -/

section check
variable {ok : Bool} {body : State → State} {s : State}

theorem checked_of_ok (h : ok = true) : checked ok body s = (body s).done := if_pos h

theorem checked_of_not_ok (h : ¬ ok = true) : checked ok body s = s.setErr .seq := if_neg h

end check

theorem mayStart_iff (r : Regs) : r.mayStart = true ↔ r.phase = .idle ∨ r.phase = .acked ∨ r.phase = .nacked := by
  unfold Regs.mayStart
  cases r.phase <;> decide

theorem mayStop_iff (r : Regs) : r.mayStop = true ↔ r.phase = .acked ∨ r.phase = .nacked := by
  unfold Regs.mayStop
  cases r.phase <;> decide

theorem maySend_iff (r : Regs) : r.maySend = true ↔ r.phase = .started ∨ (r.phase = .acked ∧ r.dir = false) := by
  unfold Regs.maySend
  cases r.phase <;> simp

theorem mayWack_iff (r : Regs) : r.mayWack = true ↔ r.phase = .sent := by
  unfold Regs.mayWack
  cases r.phase <;> decide

theorem mayRecv_iff (r : Regs) : r.mayRecv = true ↔ r.phase = .acked ∧ r.dir = true := by
  unfold Regs.mayRecv
  cases r.phase <;> simp

theorem mayNack_iff (r : Regs) : r.mayNack = true ↔ r.phase = .rcvd := by
  unfold Regs.mayNack
  cases r.phase <;> decide

/-! Each engine command in its legal phases, and in the others (R118). -/

section commands
variable {s : State}

theorem exec_start_of_legal (h : s.regs.phase = .idle ∨ s.regs.phase = .acked ∨ s.regs.phase = .nacked) :
    exec .start s = .next (startBody s).done :=
  congrArg Host.Outcome.next (checked_of_ok ((mayStart_iff _).mpr h))

theorem exec_start_of_illegal (h : ¬ (s.regs.phase = .idle ∨ s.regs.phase = .acked ∨ s.regs.phase = .nacked)) :
    exec .start s = .next (s.setErr .seq) :=
  congrArg Host.Outcome.next (checked_of_not_ok (mt (mayStart_iff _).mp h))

theorem exec_stop_of_legal (h : s.regs.phase = .acked ∨ s.regs.phase = .nacked) :
    exec .stop s = .next (stopBody s).done :=
  congrArg Host.Outcome.next (checked_of_ok ((mayStop_iff _).mpr h))

theorem exec_stop_of_illegal (h : ¬ (s.regs.phase = .acked ∨ s.regs.phase = .nacked)) :
    exec .stop s = .next (s.setErr .seq) :=
  congrArg Host.Outcome.next (checked_of_not_ok (mt (mayStop_iff _).mp h))

theorem exec_send_of_legal (b : Byte) (h : s.regs.phase = .started ∨ (s.regs.phase = .acked ∧ s.regs.dir = false)) :
    exec (.send b) s = .next (sendBody b s).done :=
  congrArg Host.Outcome.next (checked_of_ok ((maySend_iff _).mpr h))

theorem exec_send_of_illegal (b : Byte)
    (h : ¬ (s.regs.phase = .started ∨ (s.regs.phase = .acked ∧ s.regs.dir = false))) :
    exec (.send b) s = .next (s.setErr .seq) :=
  congrArg Host.Outcome.next (checked_of_not_ok (mt (maySend_iff _).mp h))

theorem exec_wack_of_legal (h : s.regs.phase = .sent) : exec .wack s = .next (wackBody s).done :=
  congrArg Host.Outcome.next (checked_of_ok ((mayWack_iff _).mpr h))

theorem exec_wack_of_illegal (h : s.regs.phase ≠ .sent) : exec .wack s = .next (s.setErr .seq) :=
  congrArg Host.Outcome.next (checked_of_not_ok (mt (mayWack_iff _).mp h))

theorem exec_recv_of_legal (h : s.regs.phase = .acked ∧ s.regs.dir = true) :
    exec .recv s = .next (recvBody s).done :=
  congrArg Host.Outcome.next (checked_of_ok ((mayRecv_iff _).mpr h))

theorem exec_recv_of_illegal (h : ¬ (s.regs.phase = .acked ∧ s.regs.dir = true)) :
    exec .recv s = .next (s.setErr .seq) :=
  congrArg Host.Outcome.next (checked_of_not_ok (mt (mayRecv_iff _).mp h))

theorem exec_nack_of_legal (h : s.regs.phase = .rcvd) : exec .nack s = .next (nackBody s).done :=
  congrArg Host.Outcome.next (checked_of_ok ((mayNack_iff _).mpr h))

theorem exec_nack_of_illegal (h : s.regs.phase ≠ .rcvd) : exec .nack s = .next (s.setErr .seq) :=
  congrArg Host.Outcome.next (checked_of_not_ok (mt (mayNack_iff _).mp h))

end commands

/-! ## The six commands -/

theorem Reaches.outsideSame {s t : State} (h : Reaches s t) : s.OutsideSame t :=
  let ⟨_, hrun⟩ := h
  ⟨hrun.ovr, hrun.inFlight, hrun.host, hrun.rdData⟩

theorem done_regs (s : State) : s.done.regs = { s.regs with err := .none } := rfl

theorem done_outsideSame {s t : State} (h : Reaches s t) : s.OutsideSame t.done := (h.setErr .none).outsideSame

/-- Settles O17: from a legal phase START runs its body and completes. -/
theorem startSendsTheCondition : Obligations.StartSendsTheCondition := by
  refine ⟨by decide, fun s => ⟨fun h => ⟨_, exec_start_of_legal h, ?_⟩, fun h => exec_start_of_illegal ?_⟩⟩
  · exact ⟨rfl, startBody_shape s, startBody_scl s, startBody_sda s, startBody_slave s,
      done_outsideSame (startBody_reaches s)⟩
  · rcases h with h | h | h <;> simp [h]

/-- Settles O18: from a legal phase STOP runs its body and completes. -/
theorem stopReleasesTheBus : Obligations.StopReleasesTheBus := by
  refine ⟨by decide, fun s => ⟨fun h => ⟨_, exec_stop_of_legal h, ?_⟩, fun h => exec_stop_of_illegal ?_⟩⟩
  · exact ⟨rfl, stopBody_shape s, ⟨stopBody_scl s, stopBody_sda s⟩, stopBody_slave s,
      done_outsideSame (stopBody_reaches s)⟩
  · rcases h with h | h | h | h <;> simp [h]

/-- Settles O23: from RCVD NACK runs its body and completes. -/
theorem nackReleasesOneClock : Obligations.NackReleasesOneClock := by
  refine ⟨by decide, fun s => ⟨fun h => ⟨_, exec_nack_of_legal h, ?_⟩, exec_nack_of_illegal⟩⟩
  exact ⟨rfl, nackBody_shape s, nackBody_scl s, nackBody_sda s, nackBody_slave s,
    done_outsideSame (nackBody_reaches s)⟩

theorem encode_send (b : Byte) : encode (.send b) = 0x03000000#32 ||| b.zeroExtend 32 := by
  revert b; decide

theorem traceByte_eq (b : Byte) : traceByte b = traceCell (b.getLsbD 7) ++ traceCell (b.getLsbD 6) ++
    traceCell (b.getLsbD 5) ++ traceCell (b.getLsbD 4) ++ traceCell (b.getLsbD 3) ++ traceCell (b.getLsbD 2) ++
    traceCell (b.getLsbD 1) ++ traceCell (b.getLsbD 0) := rfl

theorem traceRead_eq (b : Byte) : traceRead b = traceSlot (b.getLsbD 7) ++ traceSlot (b.getLsbD 6) ++
    traceSlot (b.getLsbD 5) ++ traceSlot (b.getLsbD 4) ++ traceSlot (b.getLsbD 3) ++ traceSlot (b.getLsbD 2) ++
    traceSlot (b.getLsbD 1) ++ traceSlot (b.getLsbD 0) := rfl

/-- Settles O19: from a legal phase SEND runs its body, whose trace is that of the byte's wire bits, and completes. -/
theorem sendPutsTheByteOnTheLine : Obligations.SendPutsTheByteOnTheLine := by
  refine ⟨fun b => ?_, fun b s => ⟨fun h => ⟨_, exec_send_of_legal b h, ?_, ?_, ?_⟩, exec_send_of_illegal b⟩⟩
  · rw [← encode_send]
    exact decodeOfEncodeIsTheCommand (.send b) rfl
  · rw [done_regs, sendBody_regs]
  · rw [shape_done, sendBody_shape, traceByte_eq]
    simp only [List.append_assoc]
  · exact ⟨sendBody_scl s b, sendBody_sda s b, sendBody_slave s b, done_outsideSame (sendBody_reaches s b)⟩

/-- Settles O20: the slot that WACK's body takes is bounded on every environment. -/
theorem wackTakesOneBoundedSlot : Obligations.WackTakesOneBoundedSlot := by
  refine ⟨by decide, fun s => ⟨fun h => ?_, exec_wack_of_illegal⟩⟩
  obtain ⟨-, ⟨k, hbound, hlast, rfl⟩, hshape⟩ := wackBody_slot s
  refine ⟨_, k, _, exec_wack_of_legal h, hbound, hlast, ?_, ?_, wackBody_scl s, wackBody_sda s,
    done_outsideSame (wackBody_reaches s)⟩
  · rw [done_regs, wackBody_regs]
  · rw [shape_done, hshape, traceAck]
    simp only [List.append_assoc]

theorem extraSamples_succ (n : Byte) : extraSamples n + 1 = max 1 n.toNat := by
  unfold extraSamples
  omega

/-- WACK, when the slave answers ACK after k samples of 1, within the limit (R115). -/
theorem wackBody_ackAfter (s : State) {k : Nat} (hk : k < max 1 s.regs.cfgAckpoll.toNat) {rest : List Bool}
    (hl : s.bus.slave = List.replicate k true ++ false :: rest) :
    (wackBody s).regs.ackf = false ∧ (wackBody s).bus.slave = rest := by
  have hle : k ≤ extraSamples s.regs.cfgAckpoll := by
    have := extraSamples_succ s.regs.cfgAckpoll
    omega
  obtain ⟨hvalue, hslave, -⟩ := ackSamples_ack (ackHigh s) k _ hle rest (ackHigh_sda s) hl
  exact ⟨hvalue, hslave⟩

/-- Settles O21: the samples of the slot are the levels given, one by one. -/
theorem wackReportsWhatTheSlaveGives : Obligations.WackReportsWhatTheSlaveGives := by
  intro s hsent
  have hexec := exec_wack_of_legal hsent
  refine ⟨fun k rest hk hl => ⟨_, hexec, ?_⟩, fun rest hl => ⟨_, hexec, ?_⟩⟩
  · obtain ⟨hackf, hslave⟩ := wackBody_ackAfter s hk hl
    exact ⟨hackf, rfl, hslave⟩
  · rw [← extraSamples_succ] at hl
    obtain ⟨hackf, hslave⟩ := wackBody_nack s rest hl
    exact ⟨hackf, rfl, hslave⟩

/-- Settles O22: on every environment RECV's trace is that of the byte left in RXDATA, and that byte is the one the
levels spell. -/
theorem recvAssemblesTheByte : Obligations.RecvAssemblesTheByte := by
  refine ⟨by decide, fun s => ⟨fun h => ?_, exec_recv_of_illegal⟩⟩
  refine ⟨_, (recvBody s).regs.rxdata, exec_recv_of_legal h, ?_, ?_, recvBody_scl s, recvBody_sda s,
    done_outsideSame (recvBody_reaches s), fun c rest hl => ?_⟩
  · rw [done_regs, recvBody_regs]
  · rw [shape_done, recvBody_some, traceRead_eq]
    simp only [List.append_assoc]
  · obtain ⟨hrx, hslave, -⟩ := recvBody_script s c rest hl
    exact ⟨hrx, hslave⟩

/-! ## The data line moves only while the clock is low -/

/-- From a low clock and this level of the data line, some events move the data line only while the clock is low, and
have a wait between any two clock events (R119). -/
def KeepsToLowClock (sda : Bool) (es : List Event) : Prop :=
  dataStill false sda es = true ∧ clockPhasesWaited false es = true

theorem keepsToLowClock_nil (sda : Bool) : KeepsToLowClock sda [] := ⟨rfl, rfl⟩

theorem dataStill_untimed (scl sda : Bool) (es : List Event) :
    dataStill scl sda (es.map Event.untimed) = dataStill scl sda es := by
  induction es generalizing scl sda with
  | nil => rfl
  | cons e es ih => cases e <;> simp [Event.untimed, dataStill, ih]

theorem clockPhasesWaited_untimed (seen : Bool) (es : List Event) :
    clockPhasesWaited seen (es.map Event.untimed) = clockPhasesWaited seen es := by
  induction es generalizing seen with
  | nil => rfl
  | cons e es ih => cases e <;> simp [Event.untimed, clockPhasesWaited, ih]

/-- The lengths of the waits make no difference. -/
theorem keepsToLowClock_shape (sda : Bool) (s : State) : KeepsToLowClock sda s.shape ↔ KeepsToLowClock sda s.trace := by
  rw [KeepsToLowClock, State.shape, dataStill_untimed, clockPhasesWaited_untimed, KeepsToLowClock]

/-- A write cell leaves the clock low. -/
theorem keepsToLowClock_cell (sda v : Bool) (es : List Event) :
    KeepsToLowClock sda (traceCell v ++ es) ↔ KeepsToLowClock v es := by
  simp [KeepsToLowClock, traceCell, dataStill, clockPhasesWaited]

/-- A read cell leaves the clock low and the data line released. -/
theorem keepsToLowClock_slot (sda b : Bool) (es : List Event) :
    KeepsToLowClock sda (traceSlot b ++ es) ↔ KeepsToLowClock true es := by
  simp [KeepsToLowClock, traceSlot, dataStill, clockPhasesWaited]

theorem keepsToLowClock_cells (sda : Bool) (bs : List Bool) : KeepsToLowClock sda (bs.flatMap traceCell) := by
  induction bs generalizing sda with
  | nil => exact keepsToLowClock_nil sda
  | cons b bs ih => exact (keepsToLowClock_cell sda b _).mpr (ih b)

theorem keepsToLowClock_slots (sda : Bool) (bs : List Bool) : KeepsToLowClock sda (bs.flatMap traceSlot) := by
  induction bs generalizing sda with
  | nil => exact keepsToLowClock_nil sda
  | cons b bs ih => exact (keepsToLowClock_slot sda b _).mpr (ih true)

/-- The further samples of an ACK slot touch neither line. -/
theorem dataStill_samples (scl sda : Bool) (k : Nat) (es : List Event) :
    dataStill scl sda ((List.replicate k [Event.s true, .w 0]).flatten ++ es) = dataStill scl sda es := by
  induction k with
  | zero => rfl
  | succ k ih => simpa [List.replicate_succ, dataStill] using ih

theorem clockPhasesWaited_samples (k : Nat) (es : List Event) :
    clockPhasesWaited true ((List.replicate k [Event.s true, .w 0]).flatten ++ es) = clockPhasesWaited true es := by
  induction k with
  | zero => rfl
  | succ k ih => simpa [List.replicate_succ, clockPhasesWaited] using ih

theorem keepsToLowClock_ack (sda : Bool) (k : Nat) (last : Bool) : KeepsToLowClock sda (traceAck k last) := by
  simp [KeepsToLowClock, traceAck, dataStill, clockPhasesWaited, dataStill_samples, clockPhasesWaited_samples]

section fresh
variable {s : State} (hs : s.shape = []) (sda : Bool)
include hs

theorem sendBody_keepsToLowClock (b : Byte) : KeepsToLowClock sda (sendBody b s).shape := by
  rw [sendBody_shape, hs]
  exact keepsToLowClock_cells sda (wireBits b)

theorem wackBody_keepsToLowClock : KeepsToLowClock sda (wackBody s).shape := by
  obtain ⟨-, ⟨k, -, -, rfl⟩, hshape⟩ := wackBody_slot s
  rw [hshape, hs]
  exact keepsToLowClock_ack sda k _

theorem recvBody_keepsToLowClock : KeepsToLowClock sda (recvBody s).shape := by
  rw [recvBody_some, hs]
  exact keepsToLowClock_slots sda (wireBits _)

theorem nackBody_keepsToLowClock : KeepsToLowClock sda (nackBody s).shape := by
  rw [nackBody_shape, hs]
  exact keepsToLowClock_cells sda [true]

/-- A command that is refused makes no event. -/
theorem checked_keepsToLowClock (ok : Bool) {body : State → State} (hbody : KeepsToLowClock sda (body s).shape) :
    KeepsToLowClock sda (checked ok body s).shape := by
  unfold checked
  split
  · exact hbody
  · rw [shape_raise, hs]
    exact keepsToLowClock_nil sda

end fresh

/-- Settles O24, command by command: each body is a sequence of cells that begin and end with the clock low. -/
theorem dataMovesOnlyWhileTheClockIsLow : Obligations.DataMovesOnlyWhileTheClockIsLow := by
  intro i s t hi _ hexec
  have hs : s.accept.shape = [] := rfl
  have hcommand : ∃ u, exec i s.accept = .next u ∧ KeepsToLowClock s.bus.sda u.shape := by
    rcases hi with ⟨b, rfl⟩ | rfl | rfl | rfl
    · exact ⟨_, rfl, checked_keepsToLowClock hs _ _ (sendBody_keepsToLowClock hs _ b)⟩
    · exact ⟨_, rfl, checked_keepsToLowClock hs _ _ (wackBody_keepsToLowClock hs _)⟩
    · exact ⟨_, rfl, checked_keepsToLowClock hs _ _ (recvBody_keepsToLowClock hs _)⟩
    · exact ⟨_, rfl, checked_keepsToLowClock hs _ _ (nackBody_keepsToLowClock hs _)⟩
  obtain ⟨u, hu, hkeeps⟩ := hcommand
  obtain rfl : u = t := by simpa [hu] using hexec
  exact (keepsToLowClock_shape _ _).mp hkeeps

end Sys2Proof.Machine

/-! PROOFS. The register transactions (41_register_access.md): WREG and RREG event by event, how each ends, WREG as the
engine commands it is made of, the lengths of the transactions, and the ideal device of 20_memory.md R68 that watches
them. The facts about the model's functions come first in each part, then the theorems that settle O27, O28, O26, O30,
O33 and O32. -/

namespace Sys2Proof.Machine

/-! ## WREG, event by event -/

/-- How a run of bytes with their ACK slots ends, with CFG_ACKPOLL = n: its events, whether its last slot read NACK, and
the code. The first slot that reads NACK ends it with STOP and that slot's code (R140, R143). -/
def SlotsEnd (n : Byte) : List (Byte × Err) → Bool → Err → List Event → Prop
  | [], nacked, code, es => nacked = false ∧ code = .none ∧ es = traceStop
  | (b, e) :: slots, nacked, code, es =>
    (∃ e1, SlotOf n true e1 ∧ nacked = true ∧ code = e ∧ es = traceByte b ++ e1 ++ traceStop) ∨
      (∃ e1 fs, SlotOf n false e1 ∧ SlotsEnd n slots nacked code fs ∧ es = traceByte b ++ e1 ++ fs)

theorem sendAck_phase (b : Byte) (s : State) : (sendAck b s).regs.phase = .acked := by rw [sendAck_regs]

theorem sendAck_dir_of_started {s : State} (h : s.regs.phase = .started) (b : Byte) :
    (sendAck b s).regs.dir = b.getLsbD 0 := by rw [sendAck_regs]; exact if_pos h

theorem sendAck_dir_of_acked {s : State} (h : s.regs.phase = .acked) (b : Byte) :
    (sendAck b s).regs.dir = s.regs.dir := by rw [sendAck_regs]; simp [h]

theorem writeSlots_nil (s : State) : writeSlots [] s = (stopBody s).done := rfl

theorem writeSlots_of_nack {b : Byte} {s : State} (h : (sendAck b s).regs.ackf = true) (e : Err)
    (slots : List (Byte × Err)) : writeSlots ((b, e) :: slots) s = abortWrite e (sendAck b s) := if_pos h

theorem writeSlots_of_ack {b : Byte} {s : State} (h : (sendAck b s).regs.ackf = false) (e : Err)
    (slots : List (Byte × Err)) : writeSlots ((b, e) :: slots) s = writeSlots slots (sendAck b s) :=
  if_neg (by simp [h])

/-- On any environment: the events, ACKF, PHASE and ERR. DIR is left open, since only a byte after a START writes it. -/
theorem writeSlots_ends (slots : List (Byte × Err)) (s : State) (hackf : slots = [] → s.regs.ackf = false) :
    ∃ nacked code es, SlotsEnd s.regs.cfgAckpoll slots nacked code es ∧
      (writeSlots slots s).shape = s.shape ++ es ∧
      (writeSlots slots s).regs = { s.regs with
        ackf := nacked, dir := (writeSlots slots s).regs.dir, phase := .idle, err := code } := by
  induction slots generalizing s with
  | nil =>
    refine ⟨false, .none, traceStop, ⟨rfl, rfl, rfl⟩, stopBody_shape s, ?_⟩
    rw [writeSlots_nil, done_regs, stopBody_regs, ← hackf rfl]
  | cons slot slots ih =>
    obtain ⟨b, e⟩ := slot
    obtain ⟨e1, hslot, hshape⟩ := sendAck_shape s b
    have hregs := sendAck_regs s b
    cases hack : (sendAck b s).regs.ackf with
    | true =>
      rw [hack] at hslot hregs
      refine ⟨true, e, _, .inl ⟨e1, hslot, rfl, rfl, rfl⟩, ?_, ?_⟩ <;> rw [writeSlots_of_nack hack, abortWrite]
      · rw [shape_raise, stopBody_shape, hshape]
        simp only [List.append_assoc]
      · rw [State.raise_dir, State.raise_eq, State.setErr, stopBody_regs, hregs]
    | false =>
      rw [hack] at hslot hregs
      obtain ⟨nacked, code, fs, hend, hshape', hregs'⟩ := ih (sendAck b s) fun _ => hack
      rw [sendAck_cfgAckpoll] at hend
      refine ⟨nacked, code, _, .inr ⟨e1, fs, hslot, hend, rfl⟩, ?_, ?_⟩ <;> rw [writeSlots_of_ack hack]
      · rw [hshape', hshape]
        simp only [List.append_assoc]
      · rw [hregs', hregs]

/-- After the first byte no byte writes DIR (R114). -/
theorem writeSlots_dir_of_acked (slots : List (Byte × Err)) {s : State} (h : s.regs.phase = .acked) :
    (writeSlots slots s).regs.dir = s.regs.dir := by
  induction slots generalizing s with
  | nil => rfl
  | cons slot slots ih =>
    obtain ⟨b, e⟩ := slot
    have hdir := sendAck_dir_of_acked h b
    rw [writeSlots]
    split
    · exact hdir
    · exact (ih (sendAck_phase b s)).trans hdir

/-- The write-form address leaves DIR = 0 (10_state.md R27). -/
theorem wregBody_dir (a v : Byte) (s : State) : (wregBody a v s).regs.dir = false := by
  have hdir : (sendAck (addrByte s.regs.cfgSaddr false) (startBody s)).regs.dir = false :=
    (sendAck_dir_of_started rfl _).trans (addrByte_bit0 _ _)
  rw [wregBody_eq_writeSlots, wregSlots, writeSlots]
  split
  · exact hdir
  · exact (writeSlots_dir_of_acked _ (sendAck_phase _ _)).trans hdir

/-- WREG from any phase and on any environment. -/
theorem wregBody_ends (a v : Byte) (s : State) :
    ∃ nacked code es, SlotsEnd s.regs.cfgAckpoll (wregSlots s.regs.cfgSaddr a v) nacked code es ∧
      (wregBody a v s).shape = s.shape ++ traceStart ++ es ∧
      (wregBody a v s).regs = { s.regs with ackf := nacked, dir := false, phase := .idle, err := code } := by
  obtain ⟨nacked, code, es, hend, hshape, hregs⟩ :=
    writeSlots_ends (wregSlots s.regs.cfgSaddr a v) (startBody s) (by simp [wregSlots])
  rw [← wregBody_eq_writeSlots] at hshape hregs
  rw [wregBody_dir] at hregs
  exact ⟨nacked, code, es, hend, by rw [hshape, startBody_shape], hregs⟩

theorem wregBody_phase (a v : Byte) (s : State) : (wregBody a v s).regs.phase = .idle := by
  obtain ⟨_, _, _, _, _, hregs⟩ := wregBody_ends a v s
  rw [hregs]

/-- In IDLE the pins that fit the phase are both released (R119). -/
theorem released_of_pinsFitNow {s : State} (hp : s.regs.phase = .idle) (h : s.PinsFitNow) : s.bus.Released := by
  rw [State.PinsFitNow, hp] at h
  exact h

theorem wregBody_released (a v : Byte) (s : State) : (wregBody a v s).bus.Released :=
  released_of_pinsFitNow (wregBody_phase a v s) (writeSlots_pinsFitNow (wregSlots s.regs.cfgSaddr a v) _)

theorem encode_wreg (a v : Byte) :
    encode (.wreg a v) = 0x10000000#32 ||| (a.zeroExtend 32 <<< 8) ||| v.zeroExtend 32 := by
  apply BitVec.eq_of_getLsbD_eq; intro i hi
  interval_cases i <;> simp [encode, packWord]

theorem encode_rreg (a : Byte) : encode (.rreg a) = 0x11000000#32 ||| (a.zeroExtend 32 <<< 8) := by
  revert a; decide

/-- Settles O27: the four ends of WREG are those of its three slots. -/
theorem wregWritesOrStopsAtTheFirstNack : Obligations.WregWritesOrStopsAtTheFirstNack := by
  refine ⟨fun a v => ?_, fun a v s hidle => ⟨_, exec_wreg_of_idle hidle a v, wregBody_released a v s,
    (wregBody_reaches a v s).outsideSame, ?_⟩⟩
  · rw [← encode_wreg]
    exact decodeOfEncodeIsTheCommand (.wreg a v) rfl
  · obtain ⟨nacked, code, es, hend, hshape, hregs⟩ := wregBody_ends a v s
    simp only [← hidle] at hregs
    rw [hshape, hregs]
    rcases hend with ⟨e1, k1, rfl, rfl, rfl⟩ | ⟨e1, fs, k1, hend, rfl⟩
    · exact .inl ⟨e1, k1, rfl, by simp only [List.append_assoc]⟩
    rcases hend with ⟨e2, k2, rfl, rfl, rfl⟩ | ⟨e2, fs, k2, hend, rfl⟩
    · exact .inr (.inl ⟨e1, e2, k1, k2, rfl, by simp only [List.append_assoc]⟩)
    rcases hend with ⟨e3, k3, rfl, rfl, rfl⟩ | ⟨e3, fs, k3, ⟨rfl, rfl, rfl⟩, rfl⟩
    · exact .inr (.inr (.inl ⟨e1, e2, e3, k1, k2, k3, rfl, by simp only [List.append_assoc]⟩))
    · exact .inr (.inr (.inr ⟨e1, e2, e3, k1, k2, k3, rfl, by simp only [List.append_assoc]⟩))

/-! ## RREG, event by event -/

theorem abortRead_regs (e : Err) (s : State) :
    (abortRead e s).regs = { s.regs with phase := .idle, rxdata := 0xFF#8, err := e } := rfl

/-- RREG from IDLE on any environment: the byte that came in, or the abort at the first slot that read NACK (R141,
R143). -/
theorem rregBody_ends (a : Byte) {s : State} (hidle : s.regs.phase = .idle) :
    (∃ b es, ReadOf s.regs a b es ∧ (rregBody a s).shape = s.shape ++ es ∧
      (rregBody a s).regs = { s.regs with ackf := false, dir := true, rxdata := b, err := .none }) ∨
    (∃ e es, FailedReadOf s.regs a e es ∧ (rregBody a s).shape = s.shape ++ es ∧
      (rregBody a s).regs = { s.regs with ackf := true, dir := failedDir e, rxdata := 0xFF#8, err := e }) := by
  unfold rregBody
  rcases devRead_cases s a with ⟨t, b, es, hread, -, hes, hshape, -, hregs⟩ |
    ⟨t, e, es, hread, -, hes, hshape, hregs⟩ <;> rw [hread]
  · refine .inl ⟨b, es, hes, hshape, ?_⟩
    rw [done_regs, hregs, ← hidle]
  · refine .inr ⟨e, es, hes, hshape, ?_⟩
    exact (abortRead_regs e t).trans (by rw [hregs, ← hidle])

theorem rregBody_phase (a : Byte) {s : State} (hidle : s.regs.phase = .idle) : (rregBody a s).regs.phase = .idle := by
  rcases rregBody_ends a hidle with ⟨_, _, _, _, hregs⟩ | ⟨_, _, _, _, hregs⟩ <;> rw [hregs] <;> exact hidle

theorem rregBody_released (a : Byte) {s : State} (hidle : s.regs.phase = .idle) : (rregBody a s).bus.Released :=
  released_of_pinsFitNow (rregBody_phase a hidle) (rregBody_pinsFitNow a s)

/-- Settles O28: RREG is one device read with its commit. -/
theorem rregReadsOrStopsAtTheFirstNack : Obligations.RregReadsOrStopsAtTheFirstNack := by
  refine ⟨fun a => ?_, fun a s hidle => ⟨_, exec_rreg_of_idle hidle a, rregBody_released a hidle,
    (rregBody_reaches a s).outsideSame, rregBody_ends a hidle⟩⟩
  rw [← encode_rreg]
  exact decodeOfEncodeIsTheCommand (.rreg a) rfl

/-! ## The transactions start and end in IDLE -/

theorem transact_of_not_idle {s : State} (h : s.regs.phase ≠ .idle) (body : State → State) :
    transact body s = s.setErr .seq := if_neg (mt (mayTransact_iff _).mp h)

theorem pollBody_phase (c : Config) {s : State} (hidle : s.regs.phase = .idle) :
    (pollBody c s).regs.phase = .idle := by
  unfold pollBody
  rcases readAll_cases (pollAddrs c) s hidle with ⟨bytes, -, t, hread, -, -, -, -, -, hend⟩ |
    ⟨-, -, -, e, -, t, -, -, hread, -⟩ <;> rw [hread]
  · obtain ⟨-, hregs⟩ := hend (List.cons_ne_nil _ _)
    simp [hregs, hidle]
  · rfl

theorem pollBody_released (c : Config) {s : State} (hidle : s.regs.phase = .idle) : (pollBody c s).bus.Released :=
  released_of_pinsFitNow (pollBody_phase c hidle) (pollBody_pinsFitNow c hidle)

/-- Settles O26, command by command: each is its body behind the phase check. -/
theorem transactionsStartAndEndIdle : Obligations.TransactionsStartAndEndIdle := by
  rintro i s (⟨a, v, rfl⟩ | ⟨a, rfl⟩ | rfl)
  · exact ⟨fun h => congrArg _ (transact_of_not_idle h _), fun h =>
      ⟨_, exec_wreg_of_idle h a v, wregBody_phase a v s, wregBody_released a v s⟩⟩
  · exact ⟨fun h => congrArg _ (transact_of_not_idle h _), fun h =>
      ⟨_, exec_rreg_of_idle h a, rregBody_phase a h, rregBody_released a h⟩⟩
  · exact ⟨fun h => congrArg _ (transact_of_not_idle h _), fun h =>
      ⟨_, exec_poll_of_idle h, pollBody_phase _ h, pollBody_released _ h⟩⟩

/-! ## WREG is its engine commands -/

/-! The commit of one engine command leaves the next one's body as it was: ERR is not read by any. -/

theorem done_done (s : State) : s.done.done = s.done := rfl

theorem wcells_done (bs : List Bool) (s : State) : wcells bs s.done = (wcells bs s).done := by
  induction bs generalizing s with
  | nil => rfl
  | cons b bs ih => exact ih (wcell b s)

theorem takeDir_done (b : Byte) (s : State) : takeDir b s.done = (takeDir b s).done := by
  rw [takeDir_cases, takeDir_cases, State.done_phase]
  split <;> rfl

theorem sendBody_done (b : Byte) (s : State) : sendBody b s.done = (sendBody b s).done := by
  rw [sendBody, takeDir_done, wcells_done]
  rfl

theorem ackSamples_done (n : Nat) (s : State) : ackSamples n s.done = (ackSamples n s).done := by
  induction n generalizing s with
  | zero => rfl
  | succ n ih =>
    rw [ackSamples, ackSamples, State.done_bus]
    split
    · exact ih (wait (sample s))
    · rfl

theorem ackValue_done (n : Nat) (s : State) : ackValue n s.done = ackValue n s := by
  induction n generalizing s with
  | zero => rfl
  | succ n ih =>
    rw [ackValue, ackValue, State.done_bus]
    split
    · exact ih (wait (sample s))
    · rfl

theorem wackBody_done (s : State) : wackBody s.done = (wackBody s).done := by
  have hhigh : ackHigh s.done = (ackHigh s).done := rfl
  rw [wackBody, hhigh, ackSamples_done, ackValue_done]
  rfl

/-- A byte and its slot, as two engine commands (R142). -/
theorem exec_send_wack {s : State} (b : Byte)
    (h : s.regs.phase = .started ∨ (s.regs.phase = .acked ∧ s.regs.dir = false)) :
    exec (.send b) s.done = .next (sendBody b s).done ∧
      exec .wack (sendBody b s).done = .next (sendAck b s).done := by
  constructor
  · rw [exec_send_of_legal (s := s.done) b h, sendBody_done, done_done]
  · rw [exec_wack_of_legal (by rw [State.done_phase, sendBody_regs]), wackBody_done, done_done]
    rfl

/-- Settles O30: WREG and the eight commands run the same bodies, and the commits between them write ERR only. -/
theorem wregIsItsEngineCommands : Obligations.WregIsItsEngineCommands := by
  intro a v s rest hidle hl
  set s1 := sendAck (addrByte s.regs.cfgSaddr false) (startBody s)
  set s2 := sendAck a s1
  set s3 := sendAck v s2
  obtain ⟨hack1, hslave1, -⟩ := sendAck_ack (startBody s) (addrByte s.regs.cfgSaddr false) _ hl
  obtain ⟨hack2, hslave2, -⟩ := sendAck_ack s1 a _ hslave1
  obtain ⟨hack3, -, -⟩ := sendAck_ack s2 v _ hslave2
  have hdir1 : s1.regs.dir = false := (sendAck_dir_of_started rfl _).trans (addrByte_bit0 _ _)
  have hdir2 : s2.regs.dir = false := (sendAck_dir_of_acked (sendAck_phase _ _) a).trans hdir1
  obtain ⟨hsend1, hwack1⟩ := exec_send_wack (s := startBody s) (addrByte s.regs.cfgSaddr false) (.inl rfl)
  obtain ⟨hsend2, hwack2⟩ := exec_send_wack (s := s1) a (.inr ⟨sendAck_phase _ _, hdir1⟩)
  obtain ⟨hsend3, hwack3⟩ := exec_send_wack (s := s2) v (.inr ⟨sendAck_phase _ _, hdir2⟩)
  have hstop : exec .stop s3.done = .next (stopBody s3).done :=
    exec_stop_of_legal (s := s3.done) (.inl (sendAck_phase v s2))
  refine ⟨_, _, _, _, _, _, _, _, exec_start_of_legal (.inl hidle), hsend1, hwack1, hsend2, hwack2, hsend3, hwack3,
    hstop, ?_⟩
  rw [exec_wreg_of_idle hidle, wregBody_eq_writeSlots, wregSlots, writeSlots_of_ack hack1, writeSlots_of_ack hack2,
    writeSlots_of_ack hack3, writeSlots_nil]

/-! ## The lengths of the transactions -/

/-- The events of WREG's bytes, when every slot ACKs at once. -/
theorem writeSlots_shape_of_acks (slots : List (Byte × Err)) (rest : List Bool) (s : State)
    (hl : s.bus.slave = List.replicate slots.length false ++ rest) :
    (writeSlots slots s).shape =
      s.shape ++ (slots.flatMap fun slot => traceByte slot.1 ++ traceSlot false) ++ traceStop := by
  induction slots generalizing s with
  | nil => simp [writeSlots_nil]
  | cons slot slots ih =>
    obtain ⟨b, e⟩ := slot
    obtain ⟨hack, hslave, hshape⟩ := sendAck_ack s b _ hl
    rw [writeSlots_of_ack hack, ih _ hslave, hshape]
    simp

theorem wregBody_shape_of_acks (a v : Byte) (rest : List Bool) (s : State)
    (hl : s.bus.slave = [false, false, false] ++ rest) :
    (wregBody a v s).shape = s.shape ++ traceStart ++ traceByte (addrByte s.regs.cfgSaddr false) ++ traceSlot false ++
      traceByte a ++ traceSlot false ++ traceByte v ++ traceSlot false ++ traceStop := by
  rw [wregBody_eq_writeSlots, writeSlots_shape_of_acks (wregSlots s.regs.cfgSaddr a v) rest (startBody s) hl,
    startBody_shape]
  simp [wregSlots]

theorem rregBody_shape_of_acks (a b : Byte) (rest : List Bool) (s : State)
    (hl : s.bus.slave = [false, false, false] ++ wireBits b ++ rest) :
    (rregBody a s).shape = s.shape ++ traceStart ++ traceByte (addrByte s.regs.cfgSaddr false) ++ traceSlot false ++
      traceByte a ++ traceSlot false ++ traceStart ++ traceByte (addrByte s.regs.cfgSaddr true) ++ traceSlot false ++
      traceRead b ++ traceCell true ++ traceStop := by
  obtain ⟨t, hread, -, -, -, hshape, -⟩ := devRead_script s a b rest hl
  rw [rregBody, hread]
  exact hshape

theorem pollBody_lengths (c : Config) {bytes : List Byte} (rest : List Bool) (s : State) (hn : bytes.length = 21)
    (hl : s.bus.slave = bytes.flatMap (fun b => [false, false, false] ++ wireBits b) ++ rest) :
    ∃ es, (pollBody c s).shape = s.shape ++ es ∧ countWaits es = 1701 ∧ countSamples es = 231 := by
  obtain ⟨t, es, hread, -, hshape, hwaits, hsamples⟩ := readAll_script (pollAddrs c) bytes rest s (by simp [hn]) hl
  refine ⟨es, ?_, hwaits, hsamples⟩
  rw [pollBody, hread]
  exact hshape

@[simp] theorem accept_shape (s : State) : s.accept.shape = [] := rfl

/-- Settles O33: the counts of the pieces of each transaction add up. -/
theorem transactionLengths : Obligations.TransactionLengths := by
  intro s hphase
  have hidle : s.accept.regs.phase = .idle := hphase
  refine ⟨fun a v rest hl => ⟨_, exec_wreg_of_idle hidle a v, ?_⟩,
    fun a b rest hl => ⟨_, exec_rreg_of_idle hidle a, ?_⟩,
    fun bytes rest hn hl => ⟨_, exec_poll_of_idle hidle, ?_⟩⟩ <;>
    rw [← countWaits_shape, ← countSamples_shape]
  · rw [wregBody_shape_of_acks a v rest s.accept hl, accept_shape]
    exact ⟨by simp [countWaits_append], by simp [countSamples_append]⟩
  · rw [rregBody_shape_of_acks a b rest s.accept hl, accept_shape]
    exact ⟨by simp [countWaits_append], by simp [countSamples_append]⟩
  · obtain ⟨es, hshape, hcounts⟩ := pollBody_lengths Config.block rest s.accept hn hl
    rw [hshape]
    exact hcounts

/-! ## The ideal device: what it makes of some events -/

/-- The device does not see how long a wait lasts. -/
theorem watch_untimed (e : Event) (d : Dev) : d.watch e.untimed = d.watch e := by cases e <;> rfl

theorem watchAll_shape (s : State) (d : Dev) : d.watchAll s.shape = d.watchAll s.trace := by
  unfold State.shape
  generalize s.trace = es
  induction es generalizing d with
  | nil => rfl
  | cons e es ih => simp [Dev.watchAll, watch_untimed, ih]

/-- The device with the clock low, the data line at this level, in this mode. -/
def Dev.low (d : Dev) (sda : Bool) (mode : DevMode) : Dev := { d with scl := false, sda := sda, mode := mode }

/-- The device outside a transaction, with both lines released. -/
def Dev.released (d : Dev) : Dev := { d with scl := true, sda := true, mode := .off }

@[simp] theorem low_addr (d : Dev) (x : Bool) (m : DevMode) : (d.low x m).addr = d.addr := rfl

/-! The pin events: outside a cell only the pins and the mode change. -/

theorem dataTo_eq (d : Dev) (v : Bool) : ∃ m, d.dataTo v = { d with sda := v, mode := m } := by
  unfold Dev.dataTo
  split
  · exact ⟨_, rfl⟩
  · split
    · exact ⟨_, rfl⟩
    · exact ⟨d.mode, rfl⟩

theorem rise_eq (d : Dev) : ∃ m, d.rise = { d with scl := true, mode := m } := by
  unfold Dev.rise
  split
  · exact ⟨_, rfl⟩
  all_goals exact ⟨d.mode, rfl⟩

theorem clockTo_true_eq (d : Dev) : ∃ m, d.clockTo true = { d with scl := true, mode := m } := by
  cases h : d.scl with
  | false => simpa [Dev.clockTo, h] using rise_eq d
  | true => exact ⟨d.mode, by cases d; simp_all [Dev.clockTo]⟩

/-- A START, first or repeated, finds the device in any mode and makes it take in an address. -/
theorem watchAll_start (d : Dev) (es : List Event) :
    d.watchAll (traceStart ++ es) = (d.low false (.taking .address 0 0#8)).watchAll es := by
  obtain ⟨m1, h1⟩ := dataTo_eq d true
  obtain ⟨m2, h2⟩ := clockTo_true_eq { d with sda := true, mode := m1 }
  calc d.watchAll (traceStart ++ es)
    _ = Dev.watchAll es ((((d.dataTo true).clockTo true).dataTo false).clockTo false) := rfl
    _ = (d.low false (.taking .address 0 0#8)).watchAll es := by rw [h1, h2]; rfl

/-- A STOP ends the transaction, whatever the mode. -/
theorem watchAll_stop (d : Dev) (x : Bool) (m : DevMode) : (d.low x m).watchAll traceStop = some d.released := by
  obtain ⟨k, hk⟩ := rise_eq (d.low false m)
  calc (d.low x m).watchAll traceStop
    _ = some ((d.low false m).rise.dataTo true) := rfl
    _ = some d.released := by rw [hk]; rfl

/-- One bit of a byte is taken in, and after the eighth the byte. -/
theorem watchAll_cell_taking (d : Dev) (x v : Bool) (what : DevByte) (n : Nat) (acc : Byte) (es : List Event) :
    (d.low x (.taking what n acc)).watchAll (traceCell v ++ es) =
      Dev.watchAll es (if n = 7 then (d.low v .off).taken what (shiftIn acc v)
        else d.low v (.taking what (n + 1) (shiftIn acc v))) := by
  calc (d.low x (.taking what n acc)).watchAll (traceCell v ++ es)
    _ = Dev.watchAll es ({ d with scl := true, sda := v, mode := .taking what (n + 1) (shiftIn acc v) }).fall := rfl
    _ = _ := by
      congr 1
      by_cases hn : n = 7
      · subst hn
        cases what <;> rfl
      · simp [Dev.fall, Dev.low, hn]

theorem watchAll_byte (d : Dev) (x : Bool) (what : DevByte) (b : Byte) (es : List Event) :
    (d.low x (.taking what 0 0#8)).watchAll (traceByte b ++ es) =
      Dev.watchAll es ((d.low (b.getLsbD 0) .off).taken what b) := by
  have hfold := foldl_wireBits b
  simp only [wireBits, List.foldl_cons, List.foldl_nil] at hfold
  simp only [traceByte_eq, List.append_assoc, watchAll_cell_taking, Nat.reduceAdd, Nat.reduceEqDiff, if_false, if_true,
    hfold]

/-! The bytes a transaction sends. -/

theorem addrByte_high (sa : SlaveAddr) (rw : Bool) : (addrByte sa rw).extractLsb' 1 7 = sa := by
  apply BitVec.eq_of_toNat_eq
  rw [BitVec.extractLsb'_toNat, addrByte_toNat, Nat.shiftRight_eq_div_pow]
  have := rw.toNat_lt
  omega

theorem watchAll_address {d : Dev} {sa : SlaveAddr} (hd : d.addr = sa) (x rw : Bool) (es : List Event) :
    (d.low x (.taking .address 0 0#8)).watchAll (traceByte (addrByte sa rw) ++ es) =
      (d.low rw (if rw then .ackThenGive else .ackThenTake .pointer)).watchAll es := by
  rw [watchAll_byte, addrByte_bit0, Dev.taken, low_addr, addrByte_high, if_pos hd.symm, addrByte_bit0]
  rfl

theorem watchAll_pointer (d : Dev) (x : Bool) (a : Byte) (es : List Event) :
    (d.low x (.taking .pointer 0 0#8)).watchAll (traceByte a ++ es) =
      (({ d with ptr := a }).low (a.getLsbD 0) (.ackThenTake .data)).watchAll es := watchAll_byte d x .pointer a es

theorem watchAll_data (d : Dev) (x : Bool) (v : Byte) (es : List Event) :
    (d.low x (.taking .data 0 0#8)).watchAll (traceByte v ++ es) =
      ((d.store v).low (v.getLsbD 0) (.ackThenTake .data)).watchAll es := watchAll_byte d x .data v es

/-! The slots the device answers, and the byte it gives. -/

/-- What the device does after an ACK slot that it answers. -/
def DevMode.afterAck : DevMode → Option DevMode
  | .ackThenTake what => some (.taking what 0 0#8)
  | .ackThenGive => some (.giving 0)
  | .off | .taking _ _ _ | .foreignSlot | .giving _ | .masterSlot => none

section answered
variable {m k : DevMode} (hm : m.afterAck = some k) (d : Dev) (x : Bool) (es : List Event)
include hm

theorem watchAll_answered : (d.low x m).watchAll (traceSlot false ++ es) = (d.low true k).watchAll es := by
  cases m <;> cases hm <;> rfl

theorem watchAll_answered_eq_none :
    (d.low x m).watchAll ([.sda true, .w 0, .scl true, .w 0, .s true] ++ es) = none := by
  cases m <;> cases hm <;> rfl

end answered

/-- The first sample of a slot is 0, and the only one, or it is 1 (R115). -/
theorem slot_first_sample {n : Byte} {last : Bool} {es : List Event} (h : SlotOf n last es) :
    (last = false ∧ es = traceSlot false) ∨ ∃ fs, es = [.sda true, .w 0, .scl true, .w 0, .s true] ++ fs := by
  obtain ⟨k, -, -, rfl⟩ := h
  cases k with
  | zero =>
    cases last with
    | false => exact .inl ⟨rfl, rfl⟩
    | true => exact .inr ⟨[.scl false], rfl⟩
  | succ k => exact .inr ⟨_, by rw [traceAck, List.replicate_succ]; rfl⟩

/-- A device that answers an ACK slot gives 0 at once, so a trace it agrees with has a slot of one sample there, 0. -/
theorem watchAll_slot {n : Byte} {last : Bool} {e1 : List Event} (hslot : SlotOf n last e1) {m k : DevMode}
    (hm : m.afterAck = some k) (d d' : Dev) (x : Bool) (es : List Event) :
    (d.low x m).watchAll (e1 ++ es) = some d' ↔
      last = false ∧ e1 = traceSlot false ∧ (d.low true k).watchAll es = some d' := by
  rcases slot_first_sample hslot with ⟨rfl, rfl⟩ | ⟨fs, rfl⟩
  · simp [watchAll_answered hm]
  · rw [List.append_assoc, watchAll_answered_eq_none hm]
    simp [traceSlot]

theorem watchAll_slot_giving (d : Dev) (x b : Bool) (n : Nat) (es : List Event) :
    (d.low x (.giving n)).watchAll (traceSlot b ++ es) =
      if b = (d.reg d.ptr).getLsbD (7 - n) then
        (d.low true (if n = 7 then .masterSlot else .giving (n + 1))).watchAll es
      else none := by
  set c := (d.reg d.ptr).getLsbD (7 - n)
  calc (d.low x (.giving n)).watchAll (traceSlot b ++ es)
    _ = (if b = c then some { d with scl := true, sda := true, mode := .giving n } else none).bind
          (fun d => Dev.watchAll es (d.clockTo false)) := rfl
    _ = _ := by split <;> rfl

theorem wireBits_inj {b c : Byte} : wireBits b = wireBits c ↔ b = c :=
  ⟨fun h => by rw [← foldl_wireBits b, h, foldl_wireBits], congrArg _⟩

/-- A device that gives a byte agrees with that byte only. -/
theorem watchAll_read (d d' : Dev) (x : Bool) (b : Byte) (es : List Event) :
    (d.low x (.giving 0)).watchAll (traceRead b ++ es) = some d' ↔
      b = d.reg d.ptr ∧ (d.low true .masterSlot).watchAll es = some d' := by
  simp only [traceRead_eq, List.append_assoc, watchAll_slot_giving, Nat.reduceAdd, Nat.reduceSub,
    Nat.reduceEqDiff, if_false, if_true, Option.ite_none_right_eq_some, ← wireBits_inj, wireBits,
    List.cons.injEq, and_true, and_assoc]

theorem watchAll_masterSlot (d : Dev) (x v : Bool) (es : List Event) :
    (d.low x .masterSlot).watchAll (traceCell v ++ es) = (d.low v .off).watchAll es := rfl

/-! A byte with its slot, as the device takes it. -/

section slots
variable {n : Byte} {last : Bool} {e1 : List Event} (hslot : SlotOf n last e1) (d d' : Dev) (x : Bool)
  (es : List Event)
include hslot

theorem watchAll_writeAddress {sa : SlaveAddr} (hd : d.addr = sa) :
    d.watchAll (traceStart ++ (traceByte (addrByte sa false) ++ (e1 ++ es))) = some d' ↔
      last = false ∧ e1 = traceSlot false ∧ (d.low true (.taking .pointer 0 0#8)).watchAll es = some d' := by
  rw [watchAll_start, watchAll_address hd]
  exact watchAll_slot hslot rfl d d' false es

theorem watchAll_readAddress {sa : SlaveAddr} (hd : d.addr = sa) :
    d.watchAll (traceStart ++ (traceByte (addrByte sa true) ++ (e1 ++ es))) = some d' ↔
      last = false ∧ e1 = traceSlot false ∧ (d.low true (.giving 0)).watchAll es = some d' := by
  rw [watchAll_start, watchAll_address hd]
  exact watchAll_slot hslot rfl d d' true es

theorem watchAll_pointerSlot (a : Byte) :
    (d.low x (.taking .pointer 0 0#8)).watchAll (traceByte a ++ (e1 ++ es)) = some d' ↔
      last = false ∧ e1 = traceSlot false ∧
        ({ d with ptr := a }.low true (.taking .data 0 0#8)).watchAll es = some d' := by
  rw [watchAll_pointer]
  exact watchAll_slot hslot rfl { d with ptr := a } d' _ es

theorem watchAll_dataSlot (v : Byte) :
    (d.low x (.taking .data 0 0#8)).watchAll (traceByte v ++ (e1 ++ es)) = some d' ↔
      last = false ∧ e1 = traceSlot false ∧ ((d.store v).low true (.taking .data 0 0#8)).watchAll es = some d' := by
  rw [watchAll_data]
  exact watchAll_slot hslot rfl (d.store v) d' _ es

end slots

/-! ## The ideal device: what it makes of WREG and RREG -/

/-- The device after a write of v to register a. -/
def Dev.written (d : Dev) (a v : Byte) : Dev := ({ d with ptr := a }.store v).released

theorem written_reg (d : Dev) (a v : Byte) : (d.written a v).reg a = v := by
  simp [Dev.written, Dev.released, Dev.store, Dev.reg]

theorem watchAll_slotsEnd {n a v : Byte} {sa : SlaveAddr} {nacked : Bool} {code : Err} {es : List Event} {d d' : Dev}
    (hd : d.addr = sa) (hend : SlotsEnd n (wregSlots sa a v) nacked code es)
    (hw : d.watchAll (traceStart ++ es) = some d') : code = .none ∧ d' = d.written a v := by
  rcases hend with ⟨e1, k1, rfl, rfl, rfl⟩ | ⟨e1, fs, k1, hend, rfl⟩
  · simp [watchAll_writeAddress k1 _ _ _ hd] at hw
  rcases hend with ⟨e2, k2, rfl, rfl, rfl⟩ | ⟨e2, fs, k2, hend, rfl⟩
  · simp [watchAll_writeAddress k1 _ _ _ hd, watchAll_pointerSlot k2] at hw
  rcases hend with ⟨e3, k3, rfl, rfl, rfl⟩ | ⟨e3, fs, k3, ⟨rfl, rfl, rfl⟩, rfl⟩
  · simp [watchAll_writeAddress k1 _ _ _ hd, watchAll_pointerSlot k2, watchAll_dataSlot k3] at hw
  · simp only [List.append_assoc, watchAll_writeAddress k1 _ _ _ hd, watchAll_pointerSlot k2, watchAll_dataSlot k3,
      watchAll_stop, Option.some.injEq] at hw
    obtain ⟨-, -, -, -, -, -, rfl⟩ := hw
    exact ⟨rfl, rfl⟩

theorem watchAll_readOf {r : Regs} {a b : Byte} {es : List Event} {d d' : Dev} (hd : d.addr = r.cfgSaddr)
    (hread : ReadOf r a b es) (hw : d.watchAll es = some d') : b = d.reg a := by
  obtain ⟨e1, e2, e3, k1, k2, k3, rfl⟩ := hread
  simp only [List.append_assoc, watchAll_writeAddress k1 _ _ _ hd, watchAll_pointerSlot k2] at hw
  obtain ⟨-, -, -, -, hw⟩ := hw
  rw [watchAll_readAddress k3 _ _ _ (by exact hd), watchAll_read] at hw
  obtain ⟨-, -, hb, -⟩ := hw
  exact hb

theorem watchAll_failedReadOf {r : Regs} {a : Byte} {e : Err} {es : List Event} {d : Dev} (hd : d.addr = r.cfgSaddr)
    (hread : FailedReadOf r a e es) : d.watchAll es = none := by
  rw [Option.eq_none_iff_forall_ne_some]
  intro d' hw
  rcases hread with ⟨-, e1, k1, rfl⟩ | ⟨-, e1, e2, k1, k2, rfl⟩ | ⟨-, e1, e2, e3, k1, k2, k3, rfl⟩
  · simp [watchAll_writeAddress k1 _ _ _ hd] at hw
  · simp [watchAll_writeAddress k1 _ _ _ hd, watchAll_pointerSlot k2] at hw
  · simp only [List.append_assoc, watchAll_writeAddress k1 _ _ _ hd, watchAll_pointerSlot k2] at hw
    obtain ⟨-, -, -, -, hw⟩ := hw
    rw [watchAll_readAddress k3 _ _ _ (by exact hd)] at hw
    exact absurd hw.1 (by decide)

/-- The slot of one sample, 0, is one at every limit. -/
theorem slotOf_ack (n : Byte) : SlotOf n false (traceSlot false) :=
  ⟨0, by omega, by simp, rfl⟩

theorem watchAll_wreg_acked {d : Dev} {sa : SlaveAddr} (hd : d.addr = sa) (a v : Byte) :
    d.watchAll (traceStart ++ traceByte (addrByte sa false) ++ traceSlot false ++ traceByte a ++ traceSlot false ++
      traceByte v ++ traceSlot false ++ traceStop) = some (d.written a v) := by
  have k := slotOf_ack 1#8
  simp only [List.append_assoc, watchAll_writeAddress k _ _ _ hd, watchAll_pointerSlot k, watchAll_dataSlot k,
    watchAll_stop, true_and]
  rfl

theorem watchAll_rreg_acked {d : Dev} {sa : SlaveAddr} (hd : d.addr = sa) (a : Byte) :
    d.watchAll (traceStart ++ traceByte (addrByte sa false) ++ traceSlot false ++ traceByte a ++ traceSlot false ++
      traceStart ++ traceByte (addrByte sa true) ++ traceSlot false ++ traceRead (d.reg a) ++ traceCell true ++
      traceStop) = some { d with ptr := a }.released := by
  have k := slotOf_ack 1#8
  simp only [List.append_assoc, watchAll_writeAddress k _ _ _ hd, watchAll_pointerSlot k, true_and]
  rw [watchAll_readAddress k _ _ _ (by exact hd), watchAll_read, watchAll_masterSlot, watchAll_stop]
  exact ⟨rfl, rfl, rfl, rfl⟩

/-- A WREG that the device agrees with ends with no error, and the device holds the value. -/
theorem wregBody_watched (a v : Byte) {s : State} {d d' : Dev} (hs : s.shape = []) (hd : d.addr = s.regs.cfgSaddr)
    (hw : d.watchAll (wregBody a v s).trace = some d') :
    (wregBody a v s).regs.err = .none ∧ d' = d.written a v := by
  obtain ⟨nacked, code, es, hend, hshape, hregs⟩ := wregBody_ends a v s
  rw [← watchAll_shape, hshape, hs] at hw
  rw [hregs]
  exact watchAll_slotsEnd hd hend hw

/-- An RREG that the device agrees with ends with no error and the device's byte. -/
theorem rregBody_watched (a : Byte) {s : State} {d d' : Dev} (hidle : s.regs.phase = .idle) (hs : s.shape = [])
    (hd : d.addr = s.regs.cfgSaddr) (hw : d.watchAll (rregBody a s).trace = some d') :
    (rregBody a s).regs.err = .none ∧ (rregBody a s).regs.rxdata = d.reg a := by
  rw [← watchAll_shape] at hw
  rcases rregBody_ends a hidle with ⟨b, es, hread, hshape, hregs⟩ | ⟨e, es, hread, hshape, -⟩ <;>
    rw [hshape, hs, List.nil_append] at hw
  · rw [hregs]
    exact ⟨rfl, watchAll_readOf hd hread hw⟩
  · rw [watchAll_failedReadOf hd hread] at hw
    cases hw

/-! With the levels the device gives, it agrees. -/

theorem wregBody_acked_watched (a v : Byte) {rest : List Bool} {s : State} {d : Dev} (hs : s.shape = [])
    (hd : d.addr = s.regs.cfgSaddr) (hl : s.bus.slave = [false, false, false] ++ rest) :
    d.watchAll (wregBody a v s).trace = some (d.written a v) := by
  rw [← watchAll_shape, wregBody_shape_of_acks a v rest s hl, hs]
  exact watchAll_wreg_acked hd a v

theorem rregBody_acked_watched (a : Byte) {rest : List Bool} {s : State} {d : Dev} (hs : s.shape = [])
    (hd : d.addr = s.regs.cfgSaddr) (hl : s.bus.slave = [false, false, false] ++ wireBits (d.reg a) ++ rest) :
    d.watchAll (rregBody a s).trace = some { d with ptr := a }.released := by
  rw [← watchAll_shape, rregBody_shape_of_acks a _ rest s hl, hs]
  exact watchAll_rreg_acked hd a

/-- Settles O32: a trace the device agrees with has no NACK and the device's byte; and with the levels the device gives
the two commands make the traces it agrees with. -/
theorem idealDeviceRoundTrip : Obligations.IdealDeviceRoundTrip := by
  intro a v s m p hphase _
  set d := Dev.idle s.regs.cfgSaddr m p
  set t := wregBody a v s.accept with ht
  have hwreg : exec (.wreg a v) s.accept = .next t := exec_wreg_of_idle (s := s.accept) hphase a v
  have hidle : t.accept.regs.phase = .idle := wregBody_phase a v s.accept
  have hrreg := exec_rreg_of_idle hidle a
  have hsaddr : t.accept.regs.cfgSaddr = s.regs.cfgSaddr := by
    obtain ⟨_, _, _, _, _, hregs⟩ := wregBody_ends a v s.accept
    rw [State.accept_regs, ht, hregs]
    rfl
  refine ⟨fun t' u d1 d2 ht' hu hw1 hw2 => ?_, fun rest hl => ?_⟩
  · obtain rfl : t = t' := by simpa [hwreg] using ht'
    obtain rfl : rregBody a t.accept = u := by simpa [hrreg] using hu
    obtain ⟨herr1, rfl⟩ := wregBody_watched a v (accept_shape s) (d := d) rfl hw1
    obtain ⟨herr2, hbyte⟩ := rregBody_watched a hidle (accept_shape t) hsaddr.symm hw2
    exact ⟨herr1, written_reg d a v, herr2, hbyte.trans (written_reg d a v)⟩
  · have hl1 : s.accept.bus.slave = [false, false, false] ++ ([false, false, false] ++ wireBits v ++ rest) := by
      rw [State.accept_slave, hl]
      simp only [List.append_assoc]
    have hl2 : t.accept.bus.slave = [false, false, false] ++ wireBits ((d.written a v).reg a) ++ rest := by
      rw [written_reg]
      exact (wregBody_acked a v _ s.accept hl1).2
    exact ⟨t, _, _, _, hwreg, hrreg, wregBody_acked_watched a v (accept_shape s) rfl hl1,
      rregBody_acked_watched a (accept_shape t) hsaddr.symm hl2⟩

end Sys2Proof.Machine

/-! PROOFS. The decoder (42_decoder.md): the words of the decode commands, the values their readings hold, and where the
status fields sit. The facts about the model's functions come first in each part, then the theorems that settle O34,
O35, O36, O37, O38, O39, O40 and O41. -/

namespace Sys2Proof

/-! ## The words of the decode commands -/

section words
variable {i : Instr} {o : Byte} {sel : BitVec 4}

theorem packWord_low_byte (o : Byte) (sel : BitVec 4) (b : Byte) :
    packWord o sel 0#8 b = b.zeroExtend 32 ||| packWord o sel 0#8 0#8 := by
  simp [packWord, BitVec.or_comm]

theorem packRaw_low_half (o : Byte) (sel : BitVec 4) (r : Raw16) :
    packRaw o sel r = packRaw o sel 0#16 ||| r.zeroExtend 32 := by
  apply BitVec.eq_of_getLsbD_eq
  intro n hn
  interval_cases n <;> simp [packRaw, packWord]

/-- A word whose low half is the command's raw value (R92). -/
theorem decode_raw_word {r : Raw16} {base : Word} (henc : encode i = packRaw o sel r) (hwf : i.wellFormed = true)
    (hbase : packRaw o sel 0#16 = base) : decode (base ||| r.zeroExtend 32) = .legal i := by
  rw [← hbase, ← packRaw_low_half, ← henc]
  exact decodeOfEncodeIsTheCommand i hwf

/-- A word whose B0 is the command's byte (R92). -/
theorem decode_byte_word {b : Byte} {base : Word} (henc : encode i = packWord o sel 0#8 b) (hwf : i.wellFormed = true)
    (hbase : packWord o sel 0#8 0#8 = base) : decode (b.zeroExtend 32 ||| base) = .legal i := by
  rw [← hbase, ← packWord_low_byte, ← henc]
  exact decodeOfEncodeIsTheCommand i hwf

end words

/-- A word whose SEL names none of its opcode's channels or kinds is illegal (R93). -/
theorem illegal_of_sel {w : Word} (h : if w.opc = 0x20#8 then 1 < w.sel.toNat
    else if w.opc = 0x21#8 ∨ w.opc = 0x23#8 then 4 < w.sel.toNat else w.sel ≠ 0#4) :
    ∃ why, decode w = .illegal why :=
  (wordIsIllegalExactlyAsListed w).mpr (.inr (.inr (.inl h)))

end Sys2Proof

namespace Sys2Proof.Machine

/-! ## The values of the readings -/

/-- A transform that stays below 32 bits does not saturate. -/
theorem Reading.isLin.toNat {x : Reading} {r : Raw16} {m : Nat} {k : Scale} (h : x.isLin r m k)
    (hfits : m * k.num / k.den + k.off < 2 ^ 32) :
    x.value.toNat = if r = 0xFFFF#16 then 0 else m * k.num / k.den + k.off := by
  rw [h.2, min_eq_left (by omega)]

/-- A voltage with the defaults of R7. -/
theorem dv_block_toNat (ch : VChan) (r : Raw16) :
    (dv Config.block ch r).value.toNat = if r = 0xFFFF#16 then 0 else r.toNat * 26855 / 100000 + 2600 := by
  have hr := r.isLt
  have hfits : r.toNat * 26855 / 100000 + 2600 < 2 ^ 32 := by omega
  exact (dv_isLin Config.block ch r).toNat hfits

/-- The battery current with the defaults of R7. -/
theorem di_block_ibat_toNat (r : Raw16) :
    (di Config.block .ibat r).value.toNat = if r = 0xFFFF#16 then 0 else fold r * 127883 / 100000 := by
  have hr := fold_le r
  have hfits : fold r * 127883 / 100000 + 0 < 2 ^ 32 := by omega
  exact (di_isLin Config.block .ibat r).toNat hfits

/-- A port's current with the defaults of R7. -/
theorem di_block_port_toNat (p : Port) (r : Raw16) :
    (di Config.block (.port p) r).value.toNat = if r = 0xFFFF#16 then 0 else fold r * 6394 / 10000 := by
  have hr := fold_le r
  have hfits : fold r * 6394 / 10000 + 0 < 2 ^ 32 := by omega
  exact (di_isLin Config.block (.port p) r).toNat hfits

/-- The power with the default offset 0 of R7. -/
theorem dp_block_toNat (r : Raw16) : (dp Config.block r).value.toNat =
    if r = 0xFFFF#16 then 0 else min (r.toNat * Config.block.power.num / Config.block.power.den) (2 ^ 32 - 1) := by
  have hoff : Config.block.power.off = 0 := rfl
  rw [(dp_isLin Config.block r).2, hoff, Nat.add_zero]

/-! Each decode command writes its reading's register (R170 to R173). -/

theorem decv_writes (c : Config) (ch : VChan) (r : Raw16) (s : State) :
    writesResults s (.next (decv c ch r s)) (s.regs.res.put (.volt ch) (dv c ch r)) :=
  setRes_done_writesResults s _

theorem deci_writes (c : Config) (ch : IChan) (r : Raw16) (s : State) :
    writesResults s (.next (deci c ch r s)) (s.regs.res.put (.curr ch) (di c ch r)) :=
  setRes_done_writesResults s _

theorem decp_writes (c : Config) (r : Raw16) (s : State) :
    writesResults s (.next (decp c r s)) (s.regs.res.put .power (dp c r)) :=
  setRes_done_writesResults s _

theorem decs_writes (c : Config) (k : StatusKind) (b : Byte) (s : State) :
    writesResults s (.next (decs c k b s)) (s.regs.res.put (.status k) (ds c k b)) :=
  setRes_done_writesResults s _

/-- Every VALID bit after a reading is written. -/
theorem valid_put_getLsbD (r : Results) (a : ResultReg) {x : Reading} {b : Bool} (hx : x.valid = b) (n : Nat) :
    (r.put a x).valid.getLsbD n = if n = a.validBit then b else r.valid.getLsbD n :=
  hx ▸ ready_put r a x n

/-- Settles O34: both channels have the same transform, and their words differ in SEL. -/
theorem decvDecodesTheVoltage : Obligations.DecvDecodesTheVoltage := by
  refine ⟨fun r => ⟨decode_raw_word rfl rfl rfl, decode_raw_word rfl rfl rfl⟩,
    fun w hopc hsel => illegal_of_sel (by rwa [if_pos hopc]), fun r s => ⟨?_, ?_⟩⟩
  · obtain ⟨t, ht, hbus, hout, hregs⟩ := decv_writes Config.block .vbat r s
    exact ⟨t, _, _, ht, hbus, hout, hregs, dv_block_toNat .vbat r,
      valid_put_getLsbD s.regs.res (.volt .vbat) (dv_isLin _ _ r).1⟩
  · obtain ⟨t, ht, hbus, hout, hregs⟩ := decv_writes Config.block .ocv r s
    exact ⟨t, _, _, ht, hbus, hout, hregs, dv_block_toNat .ocv r,
      valid_put_getLsbD s.regs.res (.volt .ocv) (dv_isLin _ _ r).1⟩

/-- Settles O35: the battery's channel and the ports', which differ in their scale and their register. -/
theorem deciDecodesTheCurrent : Obligations.DeciDecodesTheCurrent := by
  refine ⟨fun w hopc hsel => illegal_of_sel (by simpa [hopc] using hsel),
    fun r s => ⟨decode_raw_word rfl rfl rfl, ?_⟩, fun p r s => ⟨?_, ?_⟩⟩
  · obtain ⟨t, ht, hbus, hout, hregs⟩ := deci_writes Config.block .ibat r s
    exact ⟨t, _, _, ht, hbus, hout, hregs, di_block_ibat_toNat r,
      valid_put_getLsbD s.regs.res (.curr .ibat) (di_isLin _ _ r).1⟩
  · rw [BitVec.or_comm]
    cases p <;> exact decode_raw_word rfl rfl rfl
  · obtain ⟨t, ht, hbus, hout, hregs⟩ := deci_writes Config.block (.port p) r s
    exact ⟨t, _, _, _, by cases p <;> exact ht, hbus, hout, hregs, fun q => Ports.get_set _ p q _,
      di_block_port_toNat p r, valid_put_getLsbD s.regs.res (.curr (.port p)) (di_isLin _ _ r).1⟩

/-- Settles O36: the transform of the power is the record's, with no fold and no offset. -/
theorem decpDecodesThePower : Obligations.DecpDecodesThePower := by
  refine ⟨fun r => decode_raw_word rfl rfl rfl, fun r s => ?_⟩
  obtain ⟨t, ht, hbus, hout, hregs⟩ := decp_writes Config.block r s
  exact ⟨t, _, _, ht, hbus, hout, hregs, dp_block_toNat r, valid_put_getLsbD s.regs.res .power (dp_isLin _ r).1⟩

/-- Settles O41: a raw value is below 2^16, and a folded one below 2^15. -/
theorem defaultResultsAreBounded : Obligations.DefaultResultsAreBounded := by
  refine ⟨fun ch r => ?_, fun ch r => ?_⟩
  · have hr := r.isLt
    rw [dv_block_toNat]
    split <;> omega
  · have hr := fold_le r
    cases ch with
    | ibat =>
      rw [di_block_ibat_toNat]
      split <;> omega
    | port p =>
      rw [di_block_port_toNat]
      split <;> omega

/-- Settles O40: only the sentinel's reading is no transform, and with no offset it holds the transform of 0, which is
65535 less the sentinel. -/
theorem currentFoldProperty : Obligations.CurrentFoldProperty := by
  intro c ch r hr hoff
  by_cases hsent : r = 0xFFFF#16
  · have hzero : (c.curr ch).off = 0 := hoff.resolve_right (not_not_intro hsent)
    subst hsent
    simp [di, Reading.notReady, lin, sat32, hzero]
  · have hfold : fold r = 65535 - r.toNat := if_pos hr
    rw [di, if_neg hsent, hfold]

/-! ## The status fields -/

theorem statusReading_valid (b : Byte) (out : Word) : (statusReading b out).valid = decide (b ≠ 0xFF#8) := by
  unfold statusReading
  split <;> simp [Reading.notReady, *]

theorem statusReading_value {b : Byte} (hb : b ≠ 0xFF#8) (out : Word) : (statusReading b out).value = out := by
  rw [statusReading, if_neg hb]

theorem ds_valid (c : Config) (k : StatusKind) (b : Byte) : (ds c k b).valid = decide (b ≠ 0xFF#8) := by
  cases k <;> exact statusReading_valid b _

theorem ds_sentinel (c : Config) (k : StatusKind) : ds c k 0xFF#8 = .notReady := by
  cases k <;> rfl

/-- The set bits of a byte, given as a condition on the bit's place. -/
theorem mask_getLsbD {m : Byte} {p : Nat → Prop} [DecidablePred p] (hlow : ∀ n < 8, m.getLsbD n = decide (p n))
    (hhigh : ∀ n, p n → n < 8) (n : Nat) : m.getLsbD n = decide (p n) := by
  by_cases hn : n < 8
  · exact hlow n hn
  · rw [BitVec.getLsbD_of_ge _ _ (by omega), decide_eq_false fun hp => hn (hhigh n hp)]

theorem mask3_getLsbD (n : Nat) : (7#8).getLsbD n = decide (n ≤ 2) :=
  mask_getLsbD (m := 7#8) (p := (· ≤ 2)) (by decide) (fun _ _ => by omega) n

theorem mask4_getLsbD (n : Nat) : (0xF#8).getLsbD n = decide (n ≤ 3) :=
  mask_getLsbD (m := 0xF#8) (p := (· ≤ 3)) (by decide) (fun _ _ => by omega) n

theorem sysMask_getLsbD (n : Nat) : (0x17#8).getLsbD n = decide (n ≤ 2 ∨ n = 4) :=
  mask_getLsbD (m := 0x17#8) (p := fun n => n ≤ 2 ∨ n = 4) (by decide) (fun _ _ => by omega) n

theorem zeroExtend_byte_getLsbD (x : Byte) (n : Nat) : (x.zeroExtend 32).getLsbD n = x.getLsbD n := by
  by_cases hn : n < 32
  · simp [hn]
  · simp [hn, BitVec.getLsbD_of_ge x n (by omega)]

/-- A field of a byte, moved down to bit 0 and masked. -/
theorem field_getLsbD (b m : Byte) (lsb n : Nat) :
    (((b >>> lsb) &&& m).zeroExtend 32).getLsbD n = (b.getLsbD (lsb + n) && m.getLsbD n) := by
  rw [zeroExtend_byte_getLsbD, BitVec.getLsbD_and, BitVec.getLsbD_ushiftRight]

theorem shifted_byte_getLsbD (x : Byte) {k : Nat} (hk : k ≤ 24) (n : Nat) :
    (x.zeroExtend 32 <<< k).getLsbD n = (decide (k ≤ n) && x.getLsbD (n - k)) := by
  by_cases hn : n < 32
  · exact zeroExtend_shiftLeft_getLsbD x k hn
  · rw [BitVec.getLsbD_of_ge _ _ (by omega), BitVec.getLsbD_of_ge x _ (by omega), Bool.and_false]

theorem dsChg_getLsbD (c : Config) {b : Byte} (hb : b ≠ 0xFF#8) (n : Nat) : (dsChg c b).value.getLsbD n =
    if n ≤ 2 then b.getLsbD (c.chgPhaseLsb + n)
    else if 8 ≤ n ∧ n ≤ 15 then (b &&& c.chgToMask).getLsbD (n - 8) else false := by
  rw [dsChg, statusReading_value hb, BitVec.getLsbD_or, field_getLsbD, mask3_getLsbD,
    shifted_byte_getLsbD _ (by omega)]
  by_cases hphase : n ≤ 2
  · have hto : ¬ 8 ≤ n := by omega
    simp [hphase, hto]
  · by_cases hto : n ≤ 15
    · simp [hphase, hto]
    · simp [hphase, hto, BitVec.getLsbD_of_ge b (n - 8) (by omega)]

theorem dsNtc_getLsbD (c : Config) {b : Byte} (hb : b ≠ 0xFF#8) (n : Nat) : (dsNtc c b).value.getLsbD n =
    if n = 0 then b.getLsbD c.ntcValidPos
    else if 4 ≤ n ∧ n ≤ 6 then b.getLsbD (c.ntcZoneLsb + (n - 4)) else false := by
  rw [dsNtc, statusReading_value hb, BitVec.getLsbD_or, bitAt_getLsbD _ _ _ (by omega),
    shifted_byte_getLsbD _ (by omega), BitVec.getLsbD_and, BitVec.getLsbD_ushiftRight, mask3_getLsbD]
  by_cases hvalid : n = 0
  · simp [hvalid]
  · have hzone : n - 4 ≤ 2 ↔ n ≤ 6 := by omega
    by_cases hlow : 4 ≤ n <;> simp [hvalid, hlow, hzone, Bool.and_comm]

theorem dsBoost_getLsbD (c : Config) {b : Byte} (hb : b ≠ 0xFF#8) (n : Nat) : (dsBoost c b).value.getLsbD n =
    if n ≤ 3 then b.getLsbD (c.boostLsb + n) else false := by
  rw [dsBoost, statusReading_value hb, field_getLsbD, mask4_getLsbD]
  by_cases hn : n ≤ 3 <;> simp [hn]

theorem dsMos_getLsbD (c : Config) {b : Byte} (hb : b ≠ 0xFF#8) (n : Nat) : (dsMos c b).value.getLsbD n =
    if n = 0 then b.getLsbD (c.mosPos .out1) else if n = 1 then b.getLsbD (c.mosPos .out2)
    else if n = 2 then b.getLsbD (c.mosPos .typec) else if n = 3 then b.getLsbD (c.mosPos .vin) else false := by
  rw [dsMos, statusReading_value hb]
  simp only [BitVec.getLsbD_or, bitAt_getLsbD, Nat.reduceLT]
  split_ifs <;> simp [*]

/-- Settles O38, kind by kind. -/
theorem statusFieldsSitWhereTheySay : Obligations.StatusFieldsSitWhereTheySay := by
  refine fun c b => ⟨ds_sentinel c, fun hb k => ?_, fun hb n =>
    ⟨dsChg_getLsbD c hb n, dsNtc_getLsbD c hb n, dsBoost_getLsbD c hb n, dsMos_getLsbD c hb n⟩⟩
  rw [ds_valid, decide_eq_true hb]

/-- Settles O39: the fields stay in place under the mask 0x17. -/
theorem systemStatusFieldsAreInPlace : Obligations.SystemStatusFieldsAreInPlace := by
  refine fun b => ⟨fun hb => if_pos hb, fun hb => ⟨?_, fun n => ?_⟩⟩
  · rw [dsSys, statusReading_valid, decide_eq_true hb]
  · rw [dsSys, statusReading_value hb, zeroExtend_byte_getLsbD, BitVec.getLsbD_and, sysMask_getLsbD]
    by_cases hn : n ≤ 2 ∨ n = 4 <;> simp [hn]

/-- Settles O37: the kinds differ in SEL and in the register they write. -/
theorem decsDecodesTheStatusByte : Obligations.DecsDecodesTheStatusByte := by
  refine ⟨fun w hopc hbad => ?_, fun k b s => ?_⟩
  · rcases hbad with hsel | hb1
    · exact illegal_of_sel (by simpa [hopc] using hsel)
    · exact (wordIsIllegalExactlyAsListed w).mpr (.inr (.inr (.inr (.inl ⟨by simp [hopc], hb1⟩))))
  · obtain ⟨t, ht, hbus, hout, hregs⟩ := decs_writes Config.block k b s
    refine ⟨t, _, _, by cases k <;> exact ht, hbus, hout, by cases k <;> exact hregs, rfl,
      by cases k <;> exact decode_byte_word rfl rfl rfl,
      valid_put_getLsbD s.regs.res (.status k) (ds_valid _ k b)⟩

end Sys2Proof.Machine

/-! PROOFS. Port voltages, the imputation and POLL (43_port_and_poll.md): the facts about the model's functions first in
each part, then the theorems that settle O42, O43, O44, O45, O46, O48 and O50. -/

namespace Sys2Proof.Machine

/-! ## DERV -/

theorem portV_eq_ite {c : Config} (hc : c.WF) (p : Port) (en : Bool) (f : BitVec 4) :
    c.portV p en f = if en then c.portV p true f else 0#32 := by
  cases en with
  | false => exact hc.portV_disabled p f
  | true => rfl

/-- Settles O42: the voltages are `vport`'s, and a disabled port's PORTV is 0 (R7). -/
theorem dervDerivesThePortVoltages : Obligations.DervDerivesThePortVoltages := by
  refine ⟨decodeOfEncodeIsTheCommand .derv rfl, fun s => ?_⟩
  obtain ⟨t, ht, hbus, hout, hregs⟩ := setRes_done_writesResults s (deriveAll Config.block s.regs.res)
  refine ⟨t, (deriveAll Config.block s.regs.res).vport, _, ht, hbus, hout, hregs, fun p => ?_,
    deriveAll_ready Config.block s.regs.res⟩
  rw [deriveAll_vport, vport_value, portV_eq_ite Config.block_wf, ← ite_and]
  simp only [and_assoc]

/-! ## The imputation -/

section imputation
variable (r : Results) (p : Port)

/-- The condition of R192, conjunct by conjunct. -/
theorem imputable_iff : imputable r p = true ↔
    r.ready 16 = true ∧ r.mos.getLsbD p.idx = true ∧ r.ready (8 + p.idx) = true ∧ r.iport.get p = 0#32 ∧
      r.ready 3 = true ∧ r.pwr ≠ 0#32 ∧ r.ready (4 + p.idx) = true := by
  simp only [imputable, Bool.and_eq_true, beq_iff_eq, bne_iff_ne, and_assoc]
  rfl

theorem imputed_iff : imputed r p = true ↔ imputable r p = true ∧ r.vport.get p ≠ 0#32 := by
  simp [imputed]

theorem div0_iff : div0 r p = true ↔ imputable r p = true ∧ r.vport.get p = 0#32 := by
  simp [div0]

theorem imputeAll_iport : (imputeAll r).iport.get p = imputedCurrent r p := Ports.get_ofFn _ p

theorem imputeAll_imputed : (imputeAll r).imp.getLsbD p.idx = imputed r p := impWord_imputed _ _ p

theorem imputeAll_div0 : (imputeAll r).imp.getLsbD (4 + p.idx) = div0 r p := impWord_div0 _ _ p

theorem imputeAll_imp_high {n : Nat} (hn : 8 ≤ n) : (imputeAll r).imp.getLsbD n = false := impWord_high _ _ n hn

variable {r p}

theorem iport_of_imputable (h : imputable r p = true) : r.iport.get p = 0#32 := by
  obtain ⟨-, -, -, hzero, -⟩ := (imputable_iff r p).mp h
  exact hzero

theorem imputedCurrent_of_imputed (h : imputed r p = true) :
    imputedCurrent r p = sat32 (r.pwr.toNat * 1000 / (r.vport.get p).toNat) := if_pos h

theorem imputedCurrent_of_not_imputed (h : ¬ imputed r p = true) : imputedCurrent r p = r.iport.get p := if_neg h

/-- A current other than 0 is none to impute again. -/
theorem not_imputed_of_iport_ne (h : r.iport.get p ≠ 0#32) : ¬ imputed r p = true :=
  fun himp => h (iport_of_imputable ((imputed_iff r p).mp himp).1)

end imputation

/-- What the imputation does to one port (R192, R193). -/
theorem imputeAll_port (r : Results) (p : Port) :
    let met := imputable r p = true ∧ r.vport.get p ≠ 0#32
    (met → (imputeAll r).iport.get p = sat32 (r.pwr.toNat * 1000 / (r.vport.get p).toNat)) ∧
      (¬ met → (imputeAll r).iport.get p = r.iport.get p) ∧
      ((imputeAll r).imp.getLsbD p.idx = true ↔ met) ∧
      ((imputeAll r).imp.getLsbD (4 + p.idx) = true ↔ imputable r p = true ∧ r.vport.get p = 0#32) := by
  rw [imputeAll_iport, imputeAll_imputed, imputeAll_div0, ← imputed_iff, ← div0_iff]
  exact ⟨imputedCurrent_of_imputed, imputedCurrent_of_not_imputed, .rfl, .rfl⟩

/-- Settles O43: a port that meets the condition is imputed or, with a voltage of 0, has DIV0. -/
theorem imputeCorrectsThePortCurrents : Obligations.ImputeCorrectsThePortCurrents := by
  intro s r cond
  have hcond (p : Port) : cond p ↔ imputable r p = true := (imputable_iff r p).symm
  obtain ⟨t, ht, hbus, hout, hregs⟩ := setRes_done_writesResults s (imputeAll r)
  refine ⟨t, (imputeAll r).iport, (imputeAll r).imp, ht, hbus, hout, hregs, fun p hp hv => ?_, fun p hp hv => ?_,
    fun p hp => ?_, fun n => imputeAll_imp_high r⟩ <;>
    rw [hcond] at hp <;> obtain ⟨hgets, hkeeps, himp, hdiv⟩ := imputeAll_port r p
  · have hnotDiv := mt hdiv.mp fun ⟨_, hzero⟩ => hv hzero
    exact ⟨by rw [hgets ⟨hp, hv⟩, sat32_toNat], himp.mpr ⟨hp, hv⟩, Bool.eq_false_iff.mpr hnotDiv⟩
  · have hnotMet : ¬ (imputable r p = true ∧ r.vport.get p ≠ 0#32) := fun ⟨_, hne⟩ => hne hv
    exact ⟨(hkeeps hnotMet).trans (iport_of_imputable hp), Bool.eq_false_iff.mpr (mt himp.mp hnotMet),
      hdiv.mpr ⟨hp, hv⟩⟩
  · exact ⟨hkeeps fun ⟨hmet, _⟩ => hp hmet, Bool.eq_false_iff.mpr (mt himp.mp fun ⟨hmet, _⟩ => hp hmet),
      Bool.eq_false_iff.mpr (mt hdiv.mp fun ⟨hmet, _⟩ => hp hmet)⟩

/-- After an imputation that gave no port the current 0 there is nothing left to impute (R193). -/
theorem not_imputed_imputeAll {r : Results} {p : Port}
    (h : imputed r p = true → (imputeAll r).iport.get p ≠ 0#32) : ¬ imputed (imputeAll r) p = true := by
  by_cases himp : imputed r p = true
  · exact not_imputed_of_iport_ne (h himp)
  · have hsame : (imputeAll r).iport.get p = r.iport.get p :=
      (imputeAll_iport r p).trans (imputedCurrent_of_not_imputed himp)
    intro hagain
    simp only [imputed_iff, imputable_iff, hsame] at himp hagain
    exact himp hagain

/-- Settles O44: the second imputation meets no port, so it keeps every current. -/
theorem secondImputeImputesNothing : Obligations.SecondImputeImputesNothing := by
  rintro s t u ⟨⟩ ⟨⟩ hnonzero
  have hnone (p : Port) : ¬ imputed (imputeAll s.regs.res) p = true :=
    not_imputed_imputeAll fun h => hnonzero p ((imputeAll_imputed _ p).trans h)
  refine ⟨Ports.ext_get fun p => (imputeAll_iport _ p).trans (imputedCurrent_of_not_imputed (hnone p)), fun p => ?_⟩
  exact (imputeAll_imputed _ p).trans (Bool.eq_false_iff.mpr (hnone p))

/-! ## POLL, read by read -/

/-- Settles O46: the list is written out in that order. -/
theorem pollAddressOrder : Obligations.PollAddressOrder := fun _ => rfl

theorem pollAbort_regs (e : Err) (s : State) : (pollAbort e s).regs =
    { s.regs with phase := .idle, rxdata := 0xFF#8, err := e, res := Results.zero } := rfl

theorem getLastD_eq_getD {α : Type*} {l : List α} {n : Nat} (h : l.length = n + 1) (d : α) :
    l.getLastD d = l.getD n d := by
  rw [List.getLastD_eq_getLast?, List.getLast?_eq_getElem?, h, List.getD_eq_getElem?_getD, Nat.add_sub_cancel]

/-- The events of POLL's reads, each with the byte it took in (R141, R194). -/
def ReadsOf (r : Regs) (as bytes : List Byte) (traces : List (List Event)) : Prop :=
  List.Forall₂ (fun (ab : Byte × Byte) es => ReadOf r ab.1 ab.2 es) (as.zip bytes) traces

/-- POLL from IDLE on any environment: all 21 reads and their results, or the reads up to the first slot that read NACK
and everything cleared (R194, R196). -/
theorem pollBody_ends (c : Config) {s : State} (hidle : s.regs.phase = .idle) :
    (∃ bytes traces, bytes.length = 21 ∧ ReadsOf s.regs (pollAddrs c) bytes traces ∧
      (pollBody c s).shape = s.shape ++ traces.flatten ∧
      (pollBody c s).regs = { s.regs with
        ackf := false
        dir := true
        rxdata := bytes.getD 20 0#8
        err := .none
        res := pollResults c bytes s.regs.res }) ∨
    (∃ k bytes traces e es, k < 21 ∧ bytes.length = k ∧ ReadsOf s.regs ((pollAddrs c).take k) bytes traces ∧
      FailedReadOf s.regs ((pollAddrs c).getD k 0#8) e es ∧
      (pollBody c s).shape = s.shape ++ traces.flatten ++ es ∧
      (pollBody c s).regs = { s.regs with
        ackf := true, dir := failedDir e, rxdata := 0xFF#8, err := e, res := Results.zero }) := by
  unfold pollBody
  rcases readAll_cases (pollAddrs c) s hidle with ⟨bytes, traces, t, hread, hn, -, hes, hshape, -, hend⟩ |
    ⟨k, bytes, traces, e, es, t, hk, hn, hread, -, hes, hfail, hshape, x, hregs⟩ <;> rw [hread]
  · obtain ⟨-, hregs⟩ := hend (List.cons_ne_nil _ _)
    rw [getLastD_eq_getD (n := 20) hn] at hregs
    refine .inl ⟨bytes, traces, hn, hes, hshape, ?_⟩
    simp only [done_regs, State.setRes, hregs]
  · refine .inr ⟨k, bytes, traces, e, es, hk, hn, hes, hfail, hshape, ?_⟩
    exact (pollAbort_regs e t).trans (by rw [hregs, ← hidle])

/-- Settles O45: POLL is its device reads, with its commit or its abort. -/
theorem pollReadsAllOrClearsAll : Obligations.PollReadsAllOrClearsAll :=
  ⟨decodeOfEncodeIsTheCommand .poll rfl, fun s hidle => ⟨_, exec_poll_of_idle hidle, pollBody_released _ hidle,
    (pollBody_reaches _ s).outsideSame, pollBody_ends _ hidle⟩⟩

/-! ## POLL's results -/

/-- A register that is not written keeps its reading. -/
theorem reading_putAll_of_notMem {l : List (ResultReg × Reading)} {a : ResultReg} (h : a ∉ l.map Prod.fst)
    (r : Results) : (r.putAll l).reading a = r.reading a := by
  induction l generalizing r with
  | nil => rfl
  | cons ax l ih =>
    rw [List.map_cons, List.mem_cons, not_or] at h
    obtain ⟨hne, hmem⟩ := h
    exact (ih hmem _).trans (reading_put_of_ne hne r ax.2)

/-- A register that is written once holds what was written. -/
theorem reading_putAll_of_mem {l : List (ResultReg × Reading)} (hl : (l.map Prod.fst).Nodup) (r : Results) :
    ∀ ax ∈ l, (r.putAll l).reading ax.1 = ax.2 := by
  induction l generalizing r with
  | nil => exact nofun
  | cons bx l ih =>
    obtain ⟨hnotMem, hl⟩ := List.nodup_cons.mp hl
    refine List.forall_mem_cons.mpr ⟨?_, ih hl _⟩
    exact (reading_putAll_of_notMem hnotMem _).trans (reading_put_self r _ _)

/-- The registers POLL decodes: all but the port voltages. -/
theorem pollWrites_keys (c : Config) (bytes : List Byte) : (pollWrites c bytes).map Prod.fst =
    ResultReg.all.filter (fun a => ∀ p ∈ allPorts, a ≠ .vport p) := rfl

theorem pollWrites_nodup (c : Config) (bytes : List Byte) : ((pollWrites c bytes).map Prod.fst).Nodup := by
  rw [pollWrites_keys]
  decide

/-- No port voltage is among the registers POLL decodes. -/
theorem notMem_vportWrites (c : Config) (bytes : List Byte) (r : Results) :
    ∀ ax ∈ pollWrites c bytes, ax.1 ∉ (vportWrites c r).map Prod.fst := by
  simp [pollWrites, vportWrites, allPorts]

/-- After POLL's decodes and DERV every decoded register holds its own decode. -/
theorem derived_readings (c : Config) (bytes : List Byte) (r : Results) :
    ∀ ax ∈ pollWrites c bytes, (deriveAll c (pollDecode c bytes r)).reading ax.1 = ax.2 := by
  intro ax hmem
  rw [deriveAll_eq_putAll, reading_putAll_of_notMem (notMem_vportWrites c bytes _ ax hmem), pollDecode_eq]
  exact reading_putAll_of_mem (pollWrites_nodup c bytes) r ax hmem

/-- DERV's voltage of a port, by the MOS and BOOST it leaves as they were (R190). -/
theorem deriveAll_vport_value (c : Config) (r : Results) (p : Port) : (deriveAll c r).vport.get p =
    if (deriveAll c r).ready 16 && (deriveAll c r).ready 15 then
      c.portV p ((deriveAll c r).mos.getLsbD p.idx) ((deriveAll c r).boost.extractLsb' 0 4)
    else 0#32 := by
  rw [deriveAll_vport, vport_value]
  simp only [deriveAll_ready, Bool.and_eq_true]
  rfl

theorem deriveAll_vport_ready (c : Config) (r : Results) (p : Port) :
    (deriveAll c r).ready (4 + p.idx) = ((deriveAll c r).ready 16 && (deriveAll c r).ready 15) := by
  simp only [deriveAll_ready]
  cases p <;> rfl

/-- R192's condition after DERV, whose voltages are ready when MOS and BOOST are. -/
theorem imputable_deriveAll_iff (c : Config) (r : Results) (p : Port) : imputable (deriveAll c r) p = true ↔
    let d := deriveAll c r
    d.ready 16 = true ∧ d.mos.getLsbD p.idx = true ∧ d.ready (8 + p.idx) = true ∧ d.iport.get p = 0#32 ∧
      d.ready 3 = true ∧ d.pwr ≠ 0#32 ∧ d.ready 15 = true := by
  rw [imputable_iff, deriveAll_vport_ready, Bool.and_eq_true]
  tauto

theorem reading_eq_iff {x y : Reading} : x = y ↔ x.value = y.value ∧ x.valid = y.valid := by
  cases x
  cases y
  simp

theorem port_mem_pollWrites (c : Config) (bytes : List Byte) (p : Port) :
    (.curr (.port p), di c (.port p) (rawAt bytes (4 + p.idx))) ∈ pollWrites c bytes := by
  cases p <;> simp [pollWrites, Port.idx]

/-- Settles O48: every decoded register holds its own decode after DERV, and the imputation writes only IMP and the
currents of the ports it meets. -/
theorem pollResultsComeFromTheBytes : Obligations.PollResultsComeFromTheBytes := by
  intro c b r raw u mos boost pwr
  let d := deriveAll c (pollDecode c b r)
  have hread : ∀ ax ∈ pollWrites c b, (d.reading ax.1).value = ax.2.value ∧ (d.reading ax.1).valid = ax.2.valid :=
    fun ax hmem => reading_eq_iff.mp (derived_readings c b r ax hmem)
  have hport (p : Port) := hread _ (port_mem_pollWrites c b p)
  simp only [pollWrites, List.forall_mem_cons] at hread
  obtain ⟨hvbat, hocv, hibat, hpwr, -, -, -, -, hsys, hchg, hntc, hboost, hmos, -⟩ := hread
  refine ⟨hvbat.1, hvbat.2, hocv.1, hocv.2, hibat.1, hibat.2, hpwr.1, hpwr.2, hsys.1, hsys.2, hchg.1, hchg.2,
    hntc.1, hntc.2, hboost.1, hboost.2, hmos.1, hmos.2, fun n => imputeAll_imp_high _, fun p => ?_⟩
  intro i v cond
  obtain ⟨hpwr, hpwrReady⟩ : d.pwr = pwr.value ∧ d.ready 3 = pwr.valid := hpwr
  obtain ⟨hboost, hboostReady⟩ : d.boost = boost.value ∧ d.ready 15 = boost.valid := hboost
  obtain ⟨hmos, hmosReady⟩ : d.mos = mos.value ∧ d.ready 16 = mos.valid := hmos
  obtain ⟨hi, hiReady⟩ : d.iport.get p = i.value ∧ d.ready (8 + p.idx) = i.valid := hport p
  have hv : d.vport.get p = v := by
    simp only [v, ← hmos, ← hboost, ← hmosReady, ← hboostReady]
    exact deriveAll_vport_value c _ p
  have hcond : imputable d p = true ↔ cond := by
    simp only [cond, ← hmos, ← hpwr, ← hmosReady, ← hboostReady, ← hpwrReady, ← hi, ← hiReady]
    exact imputable_deriveAll_iff c _ p
  have himpute := imputeAll_port d p
  simp only [hv, hcond, hpwr, hi] at himpute
  rw [← hmosReady, ← hboostReady]
  exact ⟨hv, deriveAll_vport_ready c _ p, hiReady, himpute⟩

/-! ## POLL of a device that is not initialised -/

/-- Writing "not ready" changes nothing where no result is ready. -/
theorem zero_put_notReady (a : ResultReg) : Results.zero.put a .notReady = Results.zero := by
  rcases a with ch | (_ | p) | _ | p | k
  · cases ch <;> decide
  · decide
  · cases p <;> decide
  · decide
  · cases p <;> decide
  · cases k <;> decide

theorem zero_putAll_notReady {l : List (ResultReg × Reading)} (h : ∀ ax ∈ l, ax.2 = .notReady) :
    Results.zero.putAll l = Results.zero := by
  induction l with
  | nil => rfl
  | cons ax l ih =>
    obtain ⟨hax, hl⟩ := List.forall_mem_cons.mp h
    calc Results.zero.putAll (ax :: l) = (Results.zero.put ax.1 ax.2).putAll l := rfl
      _ = Results.zero.putAll l := by rw [hax, zero_put_notReady]
      _ = Results.zero := ih hl

theorem dv_sentinel (c : Config) (ch : VChan) : dv c ch 0xFFFF#16 = .notReady := if_pos rfl

theorem di_sentinel (c : Config) (ch : IChan) : di c ch 0xFFFF#16 = .notReady := if_pos rfl

theorem dp_sentinel (c : Config) : dp c 0xFFFF#16 = .notReady := if_pos rfl

/-- Bytes that hold the sentinels of all decodes give no reading (R164 to R169). -/
theorem pollWrites_notReady (c : Config) {bytes : List Byte} (hraw : ∀ k < 8, rawAt bytes k = 0xFFFF#16)
    (hstatus : ∀ k < 5, statusAt bytes k = 0xFF#8) : ∀ ax ∈ pollWrites c bytes, ax.2 = Reading.notReady := by
  simp [pollWrites, hraw, hstatus, dv_sentinel, di_sentinel, dp_sentinel, ds_sentinel]

theorem vportWrites_zero (c : Config) : ∀ ax ∈ vportWrites c Results.zero, ax.2 = Reading.notReady := by
  simp only [vportWrites, List.forall_mem_map]
  exact fun p _ => rfl

/-- Settles O50: the old results make no difference (O49), and from no result every write is "not ready". -/
theorem uninitialisedDeviceIsNotReady : Obligations.UninitialisedDeviceIsNotReady := by
  intro c r hr
  calc pollResults c (List.replicate 21 0xFF#8) r
      = pollResults c (List.replicate 21 0xFF#8) Results.zero := pollForgetsTheOldResults c _ r Results.zero hr rfl
    _ = imputeAll (deriveAll c Results.zero) := by
      rw [pollResults, pollDecode_eq, zero_putAll_notReady (pollWrites_notReady c (by decide) (by decide))]
    _ = imputeAll Results.zero := by rw [deriveAll_eq_putAll, zero_putAll_notReady (vportWrites_zero c)]
    _ = Results.zero := by decide

end Sys2Proof.Machine

/-! PROOFS. The configuration commands (45_config.md): what NOP, SETDLY, SETADDR and SETPOLL write, and what a command
of each kind leaves alone. The facts about the model's functions come first in each part, then the theorems that settle
O51, O52 and O53. -/

namespace Sys2Proof

/-- The nine bus commands (45_config.md R214). -/
def Instr.usesBus : Instr → Bool
  | .start | .stop | .send _ | .wack | .recv | .nack | .wreg _ _ | .rreg _ | .poll => true
  | .nop | .decvVbat _ | .decvOcv _ | .deciIbat _ | .deciOut1 _ | .deciOut2 _ | .deciTypec _ | .deciVin _
  | .decp _ | .decsSys _ | .decsChg _ | .decsNtc _ | .decsBoost _ | .decsMos _ | .derv | .impute
  | .setdly _ | .setaddr _ | .setpoll _ => false

theorem Instr.usesBus_eq_false {i : Instr} (hsend : ∀ b, i ≠ .send b) (hwreg : ∀ a v, i ≠ .wreg a v)
    (hrreg : ∀ a, i ≠ .rreg a) (hstart : i ≠ .start) (hstop : i ≠ .stop) (hwack : i ≠ .wack) (hrecv : i ≠ .recv)
    (hnack : i ≠ .nack) (hpoll : i ≠ .poll) : i.usesBus = false := by
  cases i with
  | send b => exact absurd rfl (hsend b)
  | wreg a v => exact absurd rfl (hwreg a v)
  | rreg a => exact absurd rfl (hrreg a)
  | start => exact absurd rfl hstart
  | stop => exact absurd rfl hstop
  | wack => exact absurd rfl hwack
  | recv => exact absurd rfl hrecv
  | nack => exact absurd rfl hnack
  | poll => exact absurd rfl hpoll
  | _ => rfl

theorem saddrFits_iff_lt (a : Byte) : saddrFits a = true ↔ a.toNat < 128 := decide_eq_true_iff

end Sys2Proof

namespace Sys2Proof.Machine

/-! ## NOP and the configuration commands -/

/-- Settles O51: the word 0 decodes to NOP, which runs on the accepted state. -/
theorem nopClearsErr : Obligations.NopClearsErr :=
  ⟨fun _ => rfl, fun s rest hfree hhost =>
    ⟨_, stepRunsTheDecodedCommand s _ rest .nop hfree hhost (by decide), rfl, rfl, rfl, rfl, rfl⟩⟩

theorem saddr7_eq {a : Byte} {x : SlaveAddr} (h : a.toNat = x.toNat) : saddr7 a = x := by
  have hx := x.isLt
  apply BitVec.eq_of_toNat_eq
  rw [saddr7, BitVec.extractLsb'_toNat, Nat.shiftRight_zero, h, Nat.mod_eq_of_lt hx]

/-- SETADDR with an address that fits stores it (R212). -/
theorem exec_setaddr_of_fits {a : Byte} (h : saddrFits a = true) (s : State) :
    exec (.setaddr a) s = .next (s.setSaddr (saddr7 a)).done := congrArg _ (if_pos h)

/-- SETADDR with B0[7] = 1 is ILLEGAL (Log 16). -/
theorem exec_setaddr_of_not_fits {a : Byte} (h : ¬ saddrFits a = true) (s : State) :
    exec (.setaddr a) s = .next (s.setErr .illegal) := congrArg _ (if_neg h)

theorem exec_setpoll (n : Byte) (s : State) : exec (.setpoll n) s = .next (s.setAckpoll (ackpollValue n)).done := rfl

/-- Settles O52: each word is its command's byte or half under its opcode, and each command one register write with its
commit. -/
theorem configurationCommandsSetTheirRegister : Obligations.ConfigurationCommandsSetTheirRegister := by
  refine ⟨fun d => decode_raw_word rfl rfl rfl, fun a => ?_, fun n => ?_, fun s => ⟨fun d => ?_, fun a x h => ?_,
    fun a h => ?_, fun n h => ?_, ?_⟩⟩
  · have hlt : (a.zeroExtend 8).toNat < 128 := (BitVec.toNat_setWidth_of_le (by decide)).trans_lt a.isLt
    have hfits : saddrFits (a.zeroExtend 8) = true := (saddrFits_iff_lt _).mpr hlt
    have hword : (a.zeroExtend 8).zeroExtend 32 = a.zeroExtend 32 := by simp
    rw [BitVec.or_comm, ← hword]
    exact decode_byte_word rfl hfits rfl
  · rw [BitVec.or_comm]
    exact decode_byte_word rfl rfl rfl
  · exact ⟨_, rfl, rfl, ⟨rfl, rfl, rfl, rfl⟩, rfl⟩
  · have hfits : saddrFits a = true := (saddrFits_iff_lt a).mpr (h ▸ x.isLt)
    rw [← saddr7_eq h]
    exact ⟨_, exec_setaddr_of_fits hfits s, rfl, ⟨rfl, rfl, rfl, rfl⟩, rfl⟩
  · exact exec_setaddr_of_not_fits (by rw [saddrFits_iff_lt]; omega) s
  · have hn : ackpollValue n = n := if_neg h
    exact ⟨_, exec_setpoll n s, rfl, ⟨rfl, rfl, rfl, rfl⟩, by rw [hn, done_regs, State.setAckpoll]⟩
  · exact ⟨_, exec_setpoll 0#8 s, rfl, ⟨rfl, rfl, rfl, rfl⟩, rfl⟩

/-! ## The bus commands keep the configuration -/

/-- The configuration registers are the same (R33 to R35). -/
def Regs.SameConfig (r q : Regs) : Prop :=
  q.cfgDelay = r.cfgDelay ∧ q.cfgSaddr = r.cfgSaddr ∧ q.cfgAckpoll = r.cfgAckpoll

theorem sendBody_sameConfig (b : Byte) (s : State) : s.regs.SameConfig (sendBody b s).regs := by
  rw [sendBody_regs]
  exact ⟨rfl, rfl, rfl⟩

theorem wackBody_sameConfig (s : State) : s.regs.SameConfig (wackBody s).regs := by
  rw [wackBody_regs]
  exact ⟨rfl, rfl, rfl⟩

theorem recvBody_sameConfig (s : State) : s.regs.SameConfig (recvBody s).regs := by
  rw [recvBody_regs]
  exact ⟨rfl, rfl, rfl⟩

theorem wregBody_sameConfig (a v : Byte) (s : State) : s.regs.SameConfig (wregBody a v s).regs := by
  obtain ⟨_, _, _, _, _, hregs⟩ := wregBody_ends a v s
  rw [hregs]
  exact ⟨rfl, rfl, rfl⟩

theorem rregBody_sameConfig (a : Byte) {s : State} (hidle : s.regs.phase = .idle) :
    s.regs.SameConfig (rregBody a s).regs := by
  rcases rregBody_ends a hidle with ⟨_, _, _, _, hregs⟩ | ⟨_, _, _, _, hregs⟩ <;> rw [hregs] <;> exact ⟨rfl, rfl, rfl⟩

theorem pollBody_sameConfig (c : Config) {s : State} (hidle : s.regs.phase = .idle) :
    s.regs.SameConfig (pollBody c s).regs := by
  rcases pollBody_ends c hidle with ⟨_, _, _, _, _, hregs⟩ | ⟨_, _, _, _, _, _, _, _, _, _, hregs⟩ <;> rw [hregs] <;>
    exact ⟨rfl, rfl, rfl⟩

theorem checked_sameConfig (ok : Bool) {body : State → State} {s : State} (h : s.regs.SameConfig (body s).regs) :
    s.regs.SameConfig (checked ok body s).regs := by
  unfold checked
  split
  · exact h
  · exact ⟨rfl, rfl, rfl⟩

theorem transact_sameConfig {body : State → State} {s : State}
    (h : s.regs.phase = .idle → s.regs.SameConfig (body s).regs) : s.regs.SameConfig (transact body s).regs := by
  by_cases hidle : s.regs.phase = .idle
  · rw [transact_of_idle hidle]
    exact h hidle
  · rw [transact_of_not_idle hidle]
    exact ⟨rfl, rfl, rfl⟩

/-! ## What a command of each kind writes -/

/-- What a command writes: a bus command anything but the configuration, a configuration command its register and ERR,
any other command, and SETADDR when it is ILLEGAL, results and ERR. -/
inductive Writes (s t : State) : Instr → Prop
  | bus {i : Instr} (hi : i.usesBus = true) (hconfig : s.regs.SameConfig t.regs) : Writes s t i
  | results {i : Instr} (u : Results) (e : Err) (hbus : t.bus = s.bus)
      (hregs : t.regs = { s.regs with err := e, res := u }) : Writes s t i
  | delay (d : BitVec 16) (hbus : t.bus = s.bus)
      (hregs : t.regs = { s.regs with cfgDelay := d, err := .none }) : Writes s t (.setdly d)
  | saddr (a : Byte) (x : SlaveAddr) (hbus : t.bus = s.bus)
      (hregs : t.regs = { s.regs with cfgSaddr := x, err := .none }) : Writes s t (.setaddr a)
  | ackpoll (n m : Byte) (hbus : t.bus = s.bus)
      (hregs : t.regs = { s.regs with cfgAckpoll := m, err := .none }) : Writes s t (.setpoll n)

theorem writes_setRes_done (s : State) (u : Results) (i : Instr) : Writes s (s.setRes u).done i :=
  .results u .none rfl rfl

/-- The frame of every command, from its body's. -/
theorem exec_writes (i : Instr) (s : State) : ∃ t, exec i s = .next t ∧ Writes s t i := by
  cases i with
  | start => exact ⟨_, rfl, .bus rfl (checked_sameConfig _ ⟨rfl, rfl, rfl⟩)⟩
  | stop => exact ⟨_, rfl, .bus rfl (checked_sameConfig _ ⟨rfl, rfl, rfl⟩)⟩
  | send b => exact ⟨_, rfl, .bus rfl (checked_sameConfig _ (sendBody_sameConfig b s))⟩
  | wack => exact ⟨_, rfl, .bus rfl (checked_sameConfig _ (wackBody_sameConfig s))⟩
  | recv => exact ⟨_, rfl, .bus rfl (checked_sameConfig _ (recvBody_sameConfig s))⟩
  | nack => exact ⟨_, rfl, .bus rfl (checked_sameConfig _ ⟨rfl, rfl, rfl⟩)⟩
  | wreg a v => exact ⟨_, rfl, .bus rfl (transact_sameConfig fun _ => wregBody_sameConfig a v s)⟩
  | rreg a => exact ⟨_, rfl, .bus rfl (transact_sameConfig (rregBody_sameConfig a))⟩
  | poll => exact ⟨_, rfl, .bus rfl (transact_sameConfig (pollBody_sameConfig _))⟩
  | setdly d => exact ⟨_, rfl, .delay d rfl rfl⟩
  | setaddr a =>
    by_cases h : saddrFits a = true
    · exact ⟨_, exec_setaddr_of_fits h s, .saddr a _ rfl rfl⟩
    · exact ⟨_, exec_setaddr_of_not_fits h s, .results s.regs.res .illegal rfl rfl⟩
  | setpoll n => exact ⟨_, rfl, .ackpoll n (ackpollValue n) rfl rfl⟩
  | nop => exact ⟨_, rfl, writes_setRes_done s s.regs.res _⟩
  -- The decode commands, DERV and IMPUTE.
  | _ => exact ⟨_, rfl, writes_setRes_done s _ _⟩

theorem Writes.sameBus {i : Instr} {s t : State} (h : Writes s t i) (hi : i.usesBus = false) :
    t.bus = s.bus ∧ t.regs.phase = s.regs.phase ∧ t.regs.dir = s.regs.dir ∧ t.regs.ackf = s.regs.ackf ∧
      t.regs.rxdata = s.regs.rxdata := by
  cases h with
  | bus hbus _ => rw [hi] at hbus; cases hbus
  | results u e hbus hregs => rw [hregs]; exact ⟨hbus, rfl, rfl, rfl, rfl⟩
  | delay d hbus hregs => rw [hregs]; exact ⟨hbus, rfl, rfl, rfl, rfl⟩
  | saddr a x hbus hregs => rw [hregs]; exact ⟨hbus, rfl, rfl, rfl, rfl⟩
  | ackpoll n m hbus hregs => rw [hregs]; exact ⟨hbus, rfl, rfl, rfl, rfl⟩

/-- A configuration register changes by its own command only. -/
theorem Writes.config {i : Instr} {s t : State} (h : Writes s t i) :
    ((∀ d, i ≠ .setdly d) → t.regs.cfgDelay = s.regs.cfgDelay) ∧
    ((∀ a, i ≠ .setaddr a) → t.regs.cfgSaddr = s.regs.cfgSaddr) ∧
    ((∀ n, i ≠ .setpoll n) → t.regs.cfgAckpoll = s.regs.cfgAckpoll) := by
  cases h with
  | bus _ hconfig =>
    obtain ⟨hdelay, hsaddr, hackpoll⟩ := hconfig
    exact ⟨fun _ => hdelay, fun _ => hsaddr, fun _ => hackpoll⟩
  | results u e _ hregs => rw [hregs]; exact ⟨fun _ => rfl, fun _ => rfl, fun _ => rfl⟩
  | delay d _ hregs => rw [hregs]; exact ⟨fun hne => absurd rfl (hne d), fun _ => rfl, fun _ => rfl⟩
  | saddr a x _ hregs => rw [hregs]; exact ⟨fun _ => rfl, fun hne => absurd rfl (hne a), fun _ => rfl⟩
  | ackpoll n m _ hregs => rw [hregs]; exact ⟨fun _ => rfl, fun _ => rfl, fun hne => absurd rfl (hne n)⟩

/-- Settles O53: the frame is read off what each kind of command writes. -/
theorem onlyBusCommandsTouchTheBus : Obligations.OnlyBusCommandsTouchTheBus := by
  intro i s t hexec
  obtain ⟨u, hu, hwrites⟩ := exec_writes i s
  obtain rfl : u = t := by simpa [hexec] using hu.symm
  exact ⟨fun hsend hwreg hrreg hstart hstop hwack hrecv hnack hpoll =>
    hwrites.sameBus (Instr.usesBus_eq_false hsend hwreg hrreg hstart hstop hwack hrecv hnack hpoll), hwrites.config⟩

end Sys2Proof.Machine

/-! PROOFS. Exceptions (60_exceptions.md): the end of an illegal word, a word written while BUSY = 1, and how many
events a command can take. The facts about the model's functions come first in each part, then the theorems that settle O8, O10
and O54. -/

namespace Sys2Proof.Machine

/-! ## Illegal words and lost words -/

/-- An illegal word that the host issues is accepted and ends at once (R223). -/
theorem step_illegal {s : State} {w : Word} {rest : List HostAct} {why : Illegal} (hfree : s.inFlight = none)
    (hhost : s.host = .issue w :: rest) (hw : decode w = .illegal why) :
    step s = .next ((State.accept { s with host := rest }).raise .illegal) := by
  rw [step_free hfree, hostNow_of_host hhost, hostTaken_of_host hhost]
  exact runWord_illegal hw _ _

/-- Settles O8: the acceptance clears OVR and begins a trace, and `raise` writes ERR alone. -/
theorem illegalWordOnlySetsErr : Obligations.IllegalWordOnlySetsErr := fun _ _ _ _ hfree hhost hw =>
  ⟨_, step_illegal hfree hhost hw, rfl, rfl, hfree, rfl, rfl, rfl, rfl, rfl, rfl⟩

/-- A word written on an edge of a command in progress sets OVR, and the edge goes on without it (R222). -/
theorem step_busy_word {s : State} {f : InFlight} {w : Word} {rest : List HostAct} (hf : s.inFlight = some f)
    (hhost : s.host = .strobe w :: rest ∨ s.host = .issue w :: rest) :
    step s = .next { advance f { s with host := rest } with ovr := true } := by
  rw [← advance_ovr, step_busy hf]
  rcases hhost with hhost | hhost <;> rw [hostNow_of_host hhost, hostTaken_of_host hhost] <;> rfl

/-- Settles O10: OVR plays no part in the edge, so it can be set before the edge or after it. -/
theorem busyWordIsDiscardedWithOvr : Obligations.BusyWordIsDiscardedWithOvr := fun _ _ _ rest hf hhost =>
  ⟨_, step_busy_idle hf rest, step_busy_word hf hhost⟩

/-! ## The lengths of the pieces of a command -/

@[simp] theorem traceStart_length : traceStart.length = 7 := rfl

@[simp] theorem traceStop_length : traceStop.length = 6 := rfl

@[simp] theorem traceCell_length (v : Bool) : (traceCell v).length = 5 := rfl

@[simp] theorem traceByte_length (b : Byte) : (traceByte b).length = 40 := rfl

@[simp] theorem traceRead_length (b : Byte) : (traceRead b).length = 48 := rfl

theorem traceAck_length (k : Nat) (last : Bool) : (traceAck k last).length = 2 * k + 6 := by
  simp [traceAck]
  omega

/-- An ACK slot takes at most 255 samples, since CFG_ACKPOLL is a byte (10_state.md R35). -/
theorem SlotOf.length_le {n : Byte} {last : Bool} {es : List Event} (h : SlotOf n last es) : es.length ≤ 514 := by
  obtain ⟨k, hk, -, rfl⟩ := h
  have hn := n.isLt
  rw [traceAck_length]
  omega

/-- WREG's bytes with their slots, and the STOP. -/
theorem SlotsEnd.length_le {n : Byte} {slots : List (Byte × Err)} {nacked : Bool} {code : Err} {es : List Event}
    (h : SlotsEnd n slots nacked code es) : es.length ≤ 554 * slots.length + 6 := by
  induction slots generalizing es with
  | nil =>
    obtain ⟨-, -, rfl⟩ := h
    exact le_rfl
  | cons slot slots ih =>
    rcases h with ⟨e1, hslot, -, -, rfl⟩ | ⟨e1, fs, hslot, hend, rfl⟩
    · have := hslot.length_le
      simp only [List.length_append, traceByte_length, traceStop_length, List.length_cons]
      omega
    · have := hslot.length_le
      have := ih hend
      simp only [List.length_append, traceByte_length, List.length_cons]
      omega

theorem ReadOf.length_le {r : Regs} {a b : Byte} {es : List Event} (h : ReadOf r a b es) : es.length ≤ 1735 := by
  obtain ⟨e1, e2, e3, hslot1, hslot2, hslot3, rfl⟩ := h
  have := hslot1.length_le
  have := hslot2.length_le
  have := hslot3.length_le
  simp only [List.length_append, traceStart_length, traceByte_length, traceRead_length, traceCell_length,
    traceStop_length]
  omega

theorem FailedReadOf.length_le {r : Regs} {a : Byte} {e : Err} {es : List Event} (h : FailedReadOf r a e es) :
    es.length ≤ 1735 := by
  rcases h with ⟨-, e1, hslot1, rfl⟩ | ⟨-, e1, e2, hslot1, hslot2, rfl⟩ | ⟨-, e1, e2, e3, hslot1, hslot2, hslot3, rfl⟩
  · have := hslot1.length_le
    simp only [List.length_append, traceStart_length, traceByte_length, traceStop_length]
    omega
  · have := hslot1.length_le
    have := hslot2.length_le
    simp only [List.length_append, traceStart_length, traceByte_length, traceStop_length]
    omega
  · have := hslot1.length_le
    have := hslot2.length_le
    have := hslot3.length_le
    simp only [List.length_append, traceStart_length, traceByte_length, traceStop_length]
    omega

/-- Some traces, each of at most m events, one for each entry of a list. -/
theorem flatten_length_le {α : Type*} {R : α → List Event → Prop} {m : Nat} (hR : ∀ x es, R x es → es.length ≤ m)
    {l : List α} {traces : List (List Event)} (h : List.Forall₂ R l traces) :
    traces.flatten.length ≤ m * l.length := by
  induction h with
  | nil => exact Nat.zero_le _
  | cons hx _ ih =>
    rw [List.flatten_cons, List.length_append, List.length_cons, Nat.mul_succ, Nat.add_comm]
    exact Nat.add_le_add ih (hR _ _ hx)

theorem ReadsOf.length_le {r : Regs} {as bytes : List Byte} {traces : List (List Event)}
    (h : ReadsOf r as bytes traces) : traces.flatten.length ≤ 1735 * as.length :=
  calc traces.flatten.length
    _ ≤ 1735 * (as.zip bytes).length := flatten_length_le (fun _ _ => ReadOf.length_le) h
    _ ≤ 1735 * as.length := by
      rw [List.length_zip]
      omega

/-! ## How many events a command adds -/

/-- `t` has the trace of `s` and at most 36435 more events, POLL's most: 21 reads of 1735 events. -/
def State.AddsEvents (s t : State) : Prop := ∃ es, t.shape = s.shape ++ es ∧ es.length ≤ 36435

theorem shape_length (s : State) : s.shape.length = s.trace.length := List.length_map ..

theorem State.AddsEvents.trace_length {s t : State} (h : s.AddsEvents t) :
    s.trace.length ≤ t.trace.length ∧ t.trace.length ≤ s.trace.length + 36435 := by
  obtain ⟨es, hshape, hlen⟩ := h
  rw [← shape_length, ← shape_length, hshape, List.length_append]
  omega

/-- Register writes add no event. -/
theorem addsEvents_of_shape {s t : State} (h : t.shape = s.shape) : s.AddsEvents t := ⟨[], by simp [h], by simp⟩

theorem startBody_addsEvents (s : State) : s.AddsEvents (startBody s) := ⟨_, startBody_shape s, by decide⟩

theorem stopBody_addsEvents (s : State) : s.AddsEvents (stopBody s) := ⟨_, stopBody_shape s, by decide⟩

theorem sendBody_addsEvents (b : Byte) (s : State) : s.AddsEvents (sendBody b s) :=
  ⟨_, sendBody_shape s b, by rw [traceByte_length]; decide⟩

theorem wackBody_addsEvents (s : State) : s.AddsEvents (wackBody s) :=
  let ⟨_, hslot, hshape⟩ := wackBody_slot s
  ⟨_, hshape, hslot.length_le.trans (by decide)⟩

theorem recvBody_addsEvents (s : State) : s.AddsEvents (recvBody s) :=
  ⟨_, recvBody_some s, by rw [traceRead_length]; decide⟩

theorem nackBody_addsEvents (s : State) : s.AddsEvents (nackBody s) := ⟨_, nackBody_shape s, by decide⟩

theorem wregBody_addsEvents (a v : Byte) (s : State) : s.AddsEvents (wregBody a v s) := by
  obtain ⟨_, _, es, hend, hshape, -⟩ := wregBody_ends a v s
  have hlen : es.length ≤ 554 * 3 + 6 := hend.length_le
  refine ⟨traceStart ++ es, by rw [hshape, List.append_assoc], ?_⟩
  rw [List.length_append, traceStart_length]
  omega

theorem rregBody_addsEvents (a : Byte) {s : State} (hidle : s.regs.phase = .idle) : s.AddsEvents (rregBody a s) := by
  rcases rregBody_ends a hidle with ⟨_, es, hread, hshape, -⟩ | ⟨_, es, hread, hshape, -⟩
  · exact ⟨es, hshape, hread.length_le.trans (by decide)⟩
  · exact ⟨es, hshape, hread.length_le.trans (by decide)⟩

/-- POLL makes all 21 reads, or k < 21 of them and then one that fails. -/
theorem pollBody_addsEvents (c : Config) {s : State} (hidle : s.regs.phase = .idle) : s.AddsEvents (pollBody c s) := by
  rcases pollBody_ends c hidle with ⟨_, traces, -, hreads, hshape, -⟩ |
    ⟨k, _, traces, _, es, hk, -, hreads, hfail, hshape, -⟩
  · exact ⟨_, hshape, hreads.length_le⟩
  · refine ⟨traces.flatten ++ es, by rw [hshape, List.append_assoc], ?_⟩
    have hflat := hreads.length_le
    have hes := hfail.length_le
    rw [List.length_take, pollAddrs_length] at hflat
    rw [List.length_append]
    omega

theorem checked_addsEvents (ok : Bool) {body : State → State} {s : State} (h : s.AddsEvents (body s)) :
    s.AddsEvents (checked ok body s) := by
  unfold checked
  split
  · exact h
  · exact addsEvents_of_shape rfl

theorem transact_addsEvents {body : State → State} {s : State} (h : s.regs.phase = .idle → s.AddsEvents (body s)) :
    s.AddsEvents (transact body s) := by
  by_cases hidle : s.regs.phase = .idle
  · rw [transact_of_idle hidle]
    exact h hidle
  · rw [transact_of_not_idle hidle]
    exact addsEvents_of_shape rfl

theorem Writes.sameShape {i : Instr} {s t : State} (h : Writes s t i) (hi : i.usesBus = false) : t.shape = s.shape := by
  rw [State.shape, State.trace, (h.sameBus hi).1, State.shape, State.trace]

/-- The bus commands add their body's events, the others none (45_config.md R214). -/
theorem exec_addsEvents (i : Instr) (s : State) : ∃ t, exec i s = .next t ∧ s.AddsEvents t := by
  cases i with
  | start => exact ⟨_, rfl, checked_addsEvents _ (startBody_addsEvents s)⟩
  | stop => exact ⟨_, rfl, checked_addsEvents _ (stopBody_addsEvents s)⟩
  | send b => exact ⟨_, rfl, checked_addsEvents _ (sendBody_addsEvents b s)⟩
  | wack => exact ⟨_, rfl, checked_addsEvents _ (wackBody_addsEvents s)⟩
  | recv => exact ⟨_, rfl, checked_addsEvents _ (recvBody_addsEvents s)⟩
  | nack => exact ⟨_, rfl, checked_addsEvents _ (nackBody_addsEvents s)⟩
  | wreg a v => exact ⟨_, rfl, transact_addsEvents fun _ => wregBody_addsEvents a v s⟩
  | rreg a => exact ⟨_, rfl, transact_addsEvents (rregBody_addsEvents a)⟩
  | poll => exact ⟨_, rfl, transact_addsEvents (pollBody_addsEvents _)⟩
  | _ =>
    obtain ⟨t, hexec, hwrites⟩ := exec_writes _ s
    exact ⟨t, hexec, addsEvents_of_shape (hwrites.sameShape rfl)⟩

theorem exec_outsideSame (i : Instr) (s : State) : ∃ t, exec i s = .next t ∧ s.OutsideSame t := by
  obtain ⟨t, hexec, hreaches | ⟨d, -, rfl⟩⟩ := exec_outcome i s
  · exact ⟨t, hexec, hreaches.outsideSame⟩
  · exact ⟨_, hexec, rfl, rfl, rfl, rfl⟩

/-- Settles O54: the bound is POLL's, when each of its 63 ACK slots takes 255 samples. -/
theorem everyCommandEnds : Obligations.EveryCommandEnds := by
  intro i s
  obtain ⟨t, hexec, hadds⟩ := exec_addsEvents i s
  obtain ⟨u, hexec', hsame⟩ := exec_outsideSame i s
  obtain rfl : t = u := by simpa [hexec] using hexec'
  exact ⟨t, hexec, hsame, hadds.trace_length⟩

end Sys2Proof.Machine

/-! PROOFS. Reset and timing (70_reset_and_hazards.md): `rst` on a clock edge, and how many waits, samples and pin events
the engine commands produce. The facts about the model's functions come first in each part, then the theorems that
settle O12 and O25. -/

namespace Sys2Proof.Machine

/-! ## Reset -/

/-- `rst` acts on every edge, with a command in progress or without, and uses up the host's act (R250). -/
theorem step_reset {s : State} {also : Option Word} {rest : List HostAct} (hhost : s.host = .reset also :: rest) :
    step s = .next (State.applyReset Regs.reset { s with host := rest }) := by
  rw [step, edge_reset _ hhost, hostTaken_of_host hhost]
  rfl

/-- With all results 0 every result index reads 0, and so does every reserved one (R23, R48). -/
theorem hostRead_of_zero_results {s : State} (hres : s.regs.res = Results.zero) (level : Bool) {i : BitVec 6}
    (hi : 5 ≤ i.toNat) : s.hostRead level i = 0#32 := by
  unfold State.hostRead
  rw [hres]
  split
  case h_1 | h_2 | h_3 | h_4 | h_5 => omega
  all_goals rfl

/-- Settles O12: the block after `rst` is free, so it accepts the next word as in O9. -/
theorem resetLeavesResetValues : Obligations.ResetLeavesResetValues := by
  intro s also rest hhost
  refine ⟨_, step_reset hhost, rfl, rfl, rfl, ⟨rfl, rfl⟩, rfl, rfl, rfl, rfl, rfl, rfl, rfl, rfl, rfl, rfl,
    fun i hi level => hostRead_of_zero_results rfl level hi, fun w later hrest => ?_⟩
  obtain ⟨u, f, hstep, hflight, hword, -⟩ := acceptanceRaisesBusyAndClearsOvr
    (State.applyReset Regs.reset { s with host := rest }) w later rfl hrest
  exact ⟨u, f, hstep, hflight, hword⟩

/-! ## The events of the engine commands -/

/-! An ACK slot of k + 1 samples has one more wait than samples (40_i2c_engine.md R115). -/

@[simp] theorem countWaits_ack (k : Nat) (last : Bool) : countWaits (traceAck k last) = k + 2 := by
  simp [traceAck, countWaits]

@[simp] theorem countSamples_ack (k : Nat) (last : Bool) : countSamples (traceAck k last) = k + 1 := by
  simp [traceAck, countSamples]

@[simp] theorem countPins_ack (k : Nat) (last : Bool) : countPins (traceAck k last) = 3 := by
  simp [traceAck, countPins]

/-- A command accepted in a legal phase produces the events of its body and no others. -/
theorem counts_of_checked {ok : Bool} {body : State → State} {s t : State} {es : List Event} (hok : ok = true)
    (hexec : (Host.Outcome.next (checked ok body s.accept) : Host.Outcome State Fault Refusal) = .next t)
    (hshape : (body s.accept).shape = s.accept.shape ++ es) :
    countWaits t.trace = countWaits es ∧ countSamples t.trace = countSamples es ∧ countPins t.trace = countPins es := by
  obtain rfl : (body s.accept).done = t := by simpa [checked_of_ok hok] using hexec
  have hes : (body s.accept).done.shape = es := by rw [shape_done, hshape, accept_shape, List.nil_append]
  rw [← countWaits_shape, ← countSamples_shape, ← countPins_shape, hes]
  exact ⟨rfl, rfl, rfl⟩

/-- Settles O25: each command produces the events of its body, and WACK's are those of a slot of R115. -/
theorem engineEventCounts : Obligations.EngineEventCounts := by
  intro s t
  refine ⟨fun hmay hexec => counts_of_checked hmay hexec (startBody_shape _),
    fun hmay hexec => counts_of_checked hmay hexec (stopBody_shape _),
    fun b hmay hexec => counts_of_checked hmay hexec (sendBody_shape _ b), fun hmay hexec => ?_,
    fun hmay hexec => counts_of_checked hmay hexec (recvBody_some _),
    fun hmay hexec => counts_of_checked hmay hexec (nackBody_shape _)⟩
  obtain ⟨_, ⟨k, hbound, -, rfl⟩, hshape⟩ := wackBody_slot s.accept
  obtain ⟨hwaits, hsamples, hpins⟩ := counts_of_checked hmay hexec hshape
  rw [hwaits, hsamples, hpins, countWaits_ack, countSamples_ack, countPins_ack]
  exact ⟨Nat.le_add_left 1 k, hbound, rfl, rfl⟩

end Sys2Proof.Machine
